-- ==== Sys2Proof/Word.lean ====
section
/-! DEFINITION. The word types of the register storage (00_scope.md rule R5: every value is an unsigned bit
vector of a stated width). -/

namespace Sys2Proof

/-- The content of one general-purpose cell `x[n]`, and of a 64-bit System register (R25, R43). -/
abbrev Word := BitVec 64

/-- The content of one AArch32 register: bits[31:0] of a cell (R26), or a 32-bit cell of its own (R44). -/
abbrev Half := BitVec 32

/-- The content of one SIMD and floating-point cell `vreg[n]` (R31). -/
abbrev Quad := BitVec 128

/-- A name or a token of the trace notation (R77), as its characters. -/
abbrev Name := List Char

end Sys2Proof
end

