-- ==== Sys2Proof/Syntax.lean ====
section
/-! DEFINITION. The names the spec gives (Execution states, Exception levels, modes, registers) and the operations of
30_encoding.md rule R70: one constructor of `Instr` per row of spec/opcode_table.json. -/

namespace Sys2Proof

/-- The two Execution states (R20). -/
inductive ExecState where
  | aarch64
  | aarch32
  deriving DecidableEq, Repr

/-- The four Exception levels (R21). -/
inductive EL where
  | el0
  | el1
  | el2
  | el3
  deriving DecidableEq, Repr

/-- The number of an Exception level: "higher" is the larger number (R21). -/
def EL.num : EL → Nat
  | .el0 => 0
  | .el1 => 1
  | .el2 => 2
  | .el3 => 3

/-- The two Security states (R23). -/
inductive Security where
  | secure
  | nonSecure
  deriving DecidableEq, Repr

/-- The AArch32 modes: the seven the source names (R24), and System and Monitor mode, of which R27 says what
a register number denotes there. -/
inductive Mode where
  | usr
  | fiq
  | irq
  | svc
  | abt
  | und
  | hyp
  | sys
  | mon
  deriving DecidableEq, Repr

/-- The 31 AArch32 general-purpose registers by name (the table of R25). -/
inductive A32Reg where
  | r0 | r1 | r2 | r3 | r4 | r5 | r6 | r7
  | r8Usr | r9Usr | r10Usr | r11Usr | r12Usr | spUsr | lrUsr
  | spHyp
  | lrIrq | spIrq
  | lrSvc | spSvc
  | lrAbt | spAbt
  | lrUnd | spUnd
  | r8Fiq | r9Fiq | r10Fiq | r11Fiq | r12Fiq | spFiq | lrFiq
  deriving DecidableEq, Repr

/-- AArch32 System register names: those of R41 to R50, and any other name (R52: a register of the absent tables,
such as a CNTP_* register of R51). -/
inductive A32Sys where
  | spsrSvc | spsrHyp | elrHyp
  | spsrAbt | spsrUnd | spsrIrq | spsrFiq
  | hcr | scr | ifar | dfar | hifar | hdfar
  | other (name : Name)
  deriving DecidableEq, Repr

/-- AArch64 System register names: those R135 lists, and any other name (R52). -/
inductive A64Sys where
  | spsrEl1 | spsrEl2 | elrEl1 | elrEl2
  | spEl0 | spEl1 | spEl2
  | scrEl3 | hcrEl2
  | esrEl1 | esrEl2 | esrEl3
  | fpsr
  | spsrAbt | spsrUnd | spsrIrq | spsrFiq
  | other (name : Name)
  deriving DecidableEq, Repr

/-- The operations of the model (R70). The list is closed. -/
inductive Instr where
  /-- `ERET` (R86). -/
  | eret
  /-- `A32.RD n` (R90): `n` is a register number of an AArch32 instruction, 0 to 15 (R27). -/
  | a32Rd (n : Fin 16)
  /-- `A32.WR n, v` (R91). -/
  | a32Wr (n : Fin 16) (v : Half)
  /-- `A64.RD n` (R92). -/
  | a64Rd (n : Fin 31)
  /-- `A64.WR n, v` (R92). -/
  | a64Wr (n : Fin 31) (v : Word)
  /-- `A32.QRD n` (R110). -/
  | a32Qrd (n : Fin 16)
  /-- `A32.QWR n, v` (R110). -/
  | a32Qwr (n : Fin 16) (v : Quad)
  /-- `A32.DRD m` (R111). -/
  | a32Drd (m : Fin 32)
  /-- `A32.DWR m, v` (R111). -/
  | a32Dwr (m : Fin 32) (v : Word)
  /-- `A32.SRD m` (R112). -/
  | a32Srd (m : Fin 32)
  /-- `A32.SWR m, v` (R112). -/
  | a32Swr (m : Fin 32) (v : Half)
  /-- `A64.VRD n` (R113). -/
  | a64Vrd (n : Fin 32)
  /-- `A64.VWR n, v` (R113). -/
  | a64Vwr (n : Fin 32) (v : Quad)
  /-- `A64.DRD n` (R113). -/
  | a64Drd (n : Fin 32)
  /-- `A64.SRD n` (R113). -/
  | a64Srd (n : Fin 32)
  /-- `A32.SYSRD a` (R135). -/
  | a32Sysrd (a : A32Sys)
  /-- `A32.SYSWR a, v` (R135). -/
  | a32Syswr (a : A32Sys) (v : Half)
  /-- `A64.SYSRD N` (R135). -/
  | a64Sysrd (r : A64Sys)
  /-- `A64.SYSWR N, v` (R135): `v` is a value of the register's width, which for SPSR_EL1 and SPSR_EL2 is the parameter
  `SPSRWidth`, so it is written as a number. -/
  | a64Syswr (r : A64Sys) (v : Nat)
  /-- `EXC_ENTRY target_el, new_pc` (R84). -/
  | excEntry (target : EL) (newPc : Word)
  /-- `EXC_RETURN target_el, target_state, target_mode, new_pc` (R85); no mode is named for a target in AArch64. -/
  | excReturn (target : EL) (state : ExecState) (mode : Option Mode) (newPc : Word)
  /-- `A32.SETMODE target_el, target_mode` (R88). -/
  | a32Setmode (target : EL) (mode : Mode)
  deriving DecidableEq, Repr

/-- What the environment presents for one step: a word of machine code (R72 gives the only one with a meaning) or
a line of the trace notation (R77). -/
inductive Item where
  | word (w : BitVec 32)
  | line (text : List Char)
  deriving DecidableEq, Repr

/-- Why an item is no operation of the closed list of R70. -/
inductive DecodeError where
  /-- A machine word other than that of R72. -/
  | unknownWord
  /-- A line without a token. -/
  | emptyLine
  /-- A first token that names no operation of R70. -/
  | unknownOperation
  /-- The wrong number of operands, or an operand that is no number, value or name of its kind. -/
  | badOperands
  /-- A register number or a value outside the range R70 gives the operation. -/
  | operandRange
  deriving DecidableEq, Repr

end Sys2Proof
end

