-- ==== Sys2Proof/Config.lean ====
section
/-! DEFINITION. The implementation parameters of 00_scope.md rule R4, as plain data that a state carries and no step
changes (so that a statement about every state is a statement about every implementation), and the free values:
constants without a body, of which nothing can be proved. -/

namespace Sys2Proof

/-- The predicate `EL2Enabled` where EL2 is implemented (R4 P9). -/
inductive El2Rule where
  /-- The spec's default: usable when there is no EL3, or SCR_EL3.NS is 1. -/
  | nsBit
  /-- Usable in Secure state too (92_eei_decisions.md D7 names this case). -/
  | alsoSecure
  /-- Any predicate on the state: `Config.el2Open` (Machine/Levels.lean). -/
  | anyRule
  deriving DecidableEq, Repr

/-- The AArch32 registers with a cell of their own: the four of R44, and those of R48 to R50, IFAR and DFAR with
one cell per Security state (R125). -/
inductive A32Cell where
  | spsrAbt | spsrUnd | spsrIrq | spsrFiq
  | hcr | scr
  | ifarS | ifarNS | dfarS | dfarNS
  | hifar | hdfar
  deriving DecidableEq, Repr

/-- One entry of `Bank` that is not the table of R27: which register a number names in a mode (R4 P13). -/
structure BankRow where
  mode : Mode
  n : Fin 16
  reg : A32Reg
  deriving DecidableEq, Repr

/-- Where an AArch32 System register is stored (R120, R124): bits[31:0] or bits[63:32] of an AArch64 register, or
a cell of its own. -/
inductive SysTarget where
  | low (r : A64Sys)
  | high (r : A64Sys)
  | own (c : A32Cell)
  deriving DecidableEq, Repr

/-- One entry of the mapping `SysMap` (R120): an AArch32 name, the Security state where the name is banked, and
where the register is stored. -/
structure SysMapEntry where
  name : A32Sys
  bank : Option Security
  target : SysTarget
  deriving DecidableEq, Repr

/-- The four arguments of an exception return (R85). -/
structure ReturnArgs where
  target : EL
  state : ExecState
  mode : Option Mode
  newPc : Word
  deriving DecidableEq, Repr

/-- One row of the function by which `ReturnEffects` answers `ERET` (R86): level, SPSR (as a number of `SPSRWidth` bits)
and ELR, and the answer. -/
structure ReturnRow where
  el : EL
  spsr : Nat
  elr : Word
  args : ReturnArgs
  deriving DecidableEq, Repr

/-- The answer of the environment to `ERET` as a function of the level, its SPSR and its ELR (R86): the first row
that matches, else `otherwise`. -/
structure ReturnEffects where
  rows : List ReturnRow
  otherwise : ReturnArgs
  deriving DecidableEq, Repr

/-- The parameters of R4. Each docstring names its row. -/
structure Config where
  /-- P1 -/
  haveEL2 : Bool
  /-- P2 -/
  haveEL3 : Bool
  /-- P3, `A32Supported(0)` -/
  a32El0 : Bool
  /-- P3, `A32Supported(1)` -/
  a32El1 : Bool
  /-- P3, `A32Supported(2)` -/
  a32El2 : Bool
  /-- P3, `A32Supported(3)` -/
  a32El3 : Bool
  /-- The Execution state of the highest implemented level, fixed for the implementation (R121). -/
  topState : ExecState
  /-- P9 -/
  el2Rule : El2Rule
  /-- The bit of SCR_EL3 that is its field RW; its position is not in the source (R47). -/
  scrRwBit : Nat
  /-- The bit of SCR_EL3 that is its field NS (R47). -/
  scrNsBit : Nat
  /-- The bit of HCR_EL2 that is its field RW (R48). -/
  hcrRwBit : Nat
  /-- P5, `SMFixedRegBits` -/
  smFixedRegBits : Quad
  /-- P5, `SMFixedFPSR` -/
  smFixedFpsr : Word
  /-- P6 -/
  haveSVE : Bool
  /-- P6 -/
  haveSME : Bool
  /-- P6 -/
  haveSME2 : Bool
  /-- P6: for each SVE register, how many bits it has beside those of `vreg[0..31]`. -/
  sveSizes : List Nat
  /-- P6: how many bits ZA storage has. -/
  zaBits : Nat
  /-- P6: how many bits ZT0 has. -/
  zt0Bits : Nat
  /-- P7, `SPSRWidth` -/
  spsrWidth : Nat
  /-- Whether a RES0 register of R133 is configured to read zero. -/
  res0ReadsZero : Bool
  /-- P8, `BankMap`: the banked AArch32 registers whose Secure instance is the mapped one; for every other it is
  the Non-secure instance. No operation reads it: "no observable result may depend on it" (R127). -/
  bankSecure : List A32Sys
  /-- The entries of `SysMap` beyond those R135 gives (R52, R120), supplied by the user of the model. -/
  sysMapExt : List SysMapEntry
  /-- P12: how `ERET` gets its arguments. -/
  returns : ReturnEffects
  /-- P10, read by no rule (R61). -/
  bigEndian : Bool
  /-- P13, `Bank`: the entries that differ from the table of R27; none at the spec's default. -/
  bankRows : List BankRow
  deriving DecidableEq, Repr

/-- The bounds the spec gives the parameters: SPSRWidth is at least 32 (P7); the fields of SCR_EL3 and HCR_EL2 are bits of
64-bit registers, RW and NS two different ones; and an entry of `Bank` stands only where the source leaves the copy
open, which it does not for R0 to R7 (R25) and for R14 in Abort mode (R27). -/
def Config.wf (c : Config) : Bool :=
  32 ≤ c.spsrWidth && c.scrRwBit < 64 && c.scrNsBit < 64 && c.hcrRwBit < 64 &&
    c.scrRwBit ≠ c.scrNsBit && c.bankRows.all fun b => 8 ≤ b.n.val && !(b.mode == .abt && b.n == 14)

/-- P4, the draw of R95: at draw number `k`, are bits[63:32] of `x[n]` set to zero? -/
opaque Config.upperCleared (k n : Nat) : Bool

/-- The draw of R130: at draw number `k`, are bits[63:32] of ELR_EL2 set to zero? -/
opaque Config.elr2Cleared (k : Nat) : Bool

/-- P12, `EntryEffects` at its default (R154): what ESR of the target level receives at draw number `k`. -/
opaque Config.entryEsr (k : Nat) : Word

/-- P12, `EntryEffects` at its default (R154): what ELR of the target level receives. -/
opaque Config.entryElr (k : Nat) : Word

/-- P12, `EntryEffects` at its default (R154): what SPSR of the target level receives, as a number of which the register
keeps `SPSRWidth` bits. -/
opaque Config.entrySpsr (k : Nat) : Nat

/-- P12, `EntryEffects` at its default (R154, "state this spec does not name"): what a System register that the user
supplied receives. -/
opaque Config.entryExt (k : Nat) (name : Name) : Word

/-- P12, `EntryEffects` at its default (R154): the Security state after the entry. -/
opaque Config.entrySecure (k : Nat) : Bool

/-- P12, `ReturnEffects` at its default (R155): the Security state after the return. -/
opaque Config.returnSecure (k : Nat) : Bool

/-- What a read of a RES0 register of R133 gives at draw number `k`. -/
opaque Config.res0Read (k : Nat) : Half

end Sys2Proof
end

