-- ==== Sys2Proof/Machine/State.lean ====
section
/-! DEFINITION. The state of the one processing element (10_state.md), as plain data: one register storage with two
views (R20), the control state, the parameters of the implementation, and the model's own fields (the last read's
result, the draw counter, the environment's items). -/

namespace Sys2Proof.Machine

/-- Faults. The spec gives the machine none: no operation of files 41 to 44 raises one ("Exceptions raised: none"), and
there is no memory to fault on (R60, R65). So no step ends in a fault. -/
inductive Fault where
  deriving DecidableEq, Repr

/-- Refusals: the situations to which the spec gives no meaning (R6, `refuse(reason)`). All are safe: the machine
stops where the hardware may go on. -/
inductive Refusal where
  /-- Raised by `exec` alone, for an instruction without a meaning yet. No arm uses it. Safe. -/
  | notModelled (mnemonic : String)
  /-- `refuse(wrong_state)`: an operation used where R70 does not make it legal. Every operation. Safe. -/
  | wrongState
  /-- `refuse(pc_as_gpr)`: AArch32 register number 15 (R90, R93). `A32.RD`, `A32.WR`, `ESRRegNum`. Safe. -/
  | pcAsGpr
  /-- `refuse(monitor_bank)`: R13 or R14 in Monitor mode (R27). `A32.RD`, `A32.WR`, `ESRRegNum`. Safe. -/
  | monitorBank
  /-- `refuse(unmapped_sysreg)`: a System register the spec gives no cell or no access (R135, R132). Safe. -/
  | unmappedSysreg
  /-- `refuse(illegal_state_change)`: a "cannot occur" row of R87, or a return R85 excludes. Safe. -/
  | illegalStateChange
  /-- `refuse(outside_spec)`: an exception or a return that keeps the Execution state (R84, R85), or `ERET` at EL0
  (R86). Safe. -/
  | outsideSpec
  /-- `refuse(invalid_rw)`: a cell of the tables of R98 that is not valid (R105). Safe. -/
  | invalidRw
  /-- The target Exception level is not implemented, or it is EL2 and EL2 is not enabled (the operand ranges of R84
  and R85). `EXC_ENTRY`, `EXC_RETURN`, `ERET`. Safe. -/
  | levelAbsent
  /-- The item is no operation of the closed list of R70. Raised by the step. Safe. -/
  | undecodable (e : DecodeError)
  /-- The environment presents no item. Raised by the step. Safe. -/
  | noOperation
  deriving DecidableEq, Repr

/-- The value a read operation gives (`result` in the pseudocode of R90 to R135), with its width. -/
inductive ReadValue where
  | bits32 (v : Half)
  | bits64 (v : Word)
  | bits128 (v : Quad)
  /-- A register of more than 64 bits: bits[63:0], and the bits above, bit 64 first. -/
  | wide (low : Word) (top : List Bool)
  deriving DecidableEq, Repr

/-- The System registers (R40). Two names that are mapped to each other are one cell (R41 to R43). -/
structure SysRegs where
  /-- SPSR_EL1, whose bits[31:0] are SPSR_svc (R41): the low 64 of its `SPSRWidth` bits. -/
  spsrEl1 : Word
  /-- SPSR_EL2, whose bits[31:0] are SPSR_hyp (R42): the low 64 of its `SPSRWidth` bits. -/
  spsrEl2 : Word
  /-- SPSR of EL3, written by `EntryEffects(3)` and read by `ERET` at EL3 (R154, R86): the low 64 of its `SPSRWidth` bits.
  That the width of SPSR_EL1 and SPSR_EL2 (P7) is its width too is a DESIGN CHOICE (notes/assumptions/20.md). -/
  spsrEl3 : Word
  /-- The bits of SPSR_EL1 above bit 63, bit 64 first; none where `SPSRWidth` is at most 64 (R4 P7). -/
  spsrEl1Top : List Bool
  /-- The bits of SPSR_EL2 above bit 63. -/
  spsrEl2Top : List Bool
  /-- The bits of the SPSR of EL3 above bit 63. -/
  spsrEl3Top : List Bool
  /-- ELR_EL1 (R45). -/
  elrEl1 : Word
  /-- ELR_EL2, whose bits[31:0] are ELR_hyp (R43). -/
  elrEl2 : Word
  /-- ELR of EL3, written by `EntryEffects(3)` and read by `ERET` at EL3 (R154, R86). The spec gives it no width: 64 bits are
  PRESUMED (notes/assumptions/4.md). -/
  elrEl3 : Word
  /-- SP_EL0 (R45). -/
  spEl0 : Word
  /-- SP_EL1 (R45). -/
  spEl1 : Word
  /-- SP_EL2 (R45). -/
  spEl2 : Word
  /-- ESR_EL1 (R46). -/
  esrEl1 : Word
  /-- ESR_EL2 (R46). -/
  esrEl2 : Word
  /-- ESR_EL3 (R46). -/
  esrEl3 : Word
  /-- SCR_EL3, with the fields RW and NS (R47). -/
  scrEl3 : Word
  /-- HCR_EL2, with the field RW (R48). -/
  hcrEl2 : Word
  /-- FPSR (R39). -/
  fpsr : Word
  /-- SPSR_abt (R44). -/
  spsrAbt : Half
  /-- SPSR_und (R44). -/
  spsrUnd : Half
  /-- SPSR_irq (R44). -/
  spsrIrq : Half
  /-- SPSR_fiq (R44). -/
  spsrFiq : Half
  /-- HCR of AArch32 (R48); its RW is notional, not a bit of this cell. -/
  hcr : Half
  /-- SCR of AArch32 (R49). -/
  scr : Half
  /-- IFAR, the Secure instance (R50, R125). -/
  ifarS : Half
  /-- IFAR, the Non-secure instance (R50, R125). -/
  ifarNS : Half
  /-- DFAR, the Secure instance (R50, R125). -/
  dfarS : Half
  /-- DFAR, the Non-secure instance (R50, R125). -/
  dfarNS : Half
  /-- HIFAR where it is no alias (R50, R128). -/
  hifar : Half
  /-- HDFAR where it is no alias (R50, R128). -/
  hdfar : Half
  /-- AArch64 System registers beyond those of R40, which the user of the model supplies with `SysMap` (R52). -/
  ext : List (Name × Word)
  deriving DecidableEq, Repr

/-- The whole state. -/
structure State where
  /-- The implementation parameters (R4); no step changes them. -/
  cfg : Config
  /-- `cur_state` (R20). -/
  curState : ExecState
  /-- `el` (R21). -/
  el : EL
  /-- The Execution state of EL0 as last set; `state_of(0)` reads it (R21, R121). -/
  el0State : ExecState
  /-- `secure` (R23). -/
  secure : Bool
  /-- `mode` (R24), without meaning in AArch64 state. -/
  mode : Mode
  /-- `x[0]` to `x[30]` (R25). -/
  x : Vector Word 31
  /-- `vreg[0]` to `vreg[31]` (R31). -/
  vreg : Vector Quad 32
  /-- `pc` (R37). -/
  pc : Word
  /-- The stored PSTATE.SM (R38). -/
  psSM : Bool
  /-- The stored PSTATE.ZA (R38). -/
  psZA : Bool
  /-- For each SVE register, every implemented bit of it that is no bit of `vreg` (R39), bit 0 first. -/
  sveState : List (List Bool)
  /-- ZA storage (R39), bit 0 first. -/
  zaStorage : List Bool
  /-- ZT0 (R39), bit 0 first. -/
  zt0 : List Bool
  /-- The System registers (R40). -/
  sys : SysRegs
  /-- The model's own: the value of the last read operation; `none` before the first. -/
  result : Option ReadValue
  /-- The model's own: how many draws have been made; the free values of Config are applied to it. -/
  draws : Nat
  /-- The model's own: the items the environment presents, the next one first. -/
  input : List Item
  deriving DecidableEq, Repr

/-- The parameters of the reset state. The source fixes none (R4): each is a DESIGN CHOICE of the model
(notes/assumptions/1.md). The bit positions are PRESUMED (GK5 of 93_implementation_defined.md). -/
def resetConfig : Config where
  haveEL2 := true
  haveEL3 := true
  a32El0 := true
  a32El1 := true
  a32El2 := true
  a32El3 := false
  topState := .aarch64
  el2Rule := .nsBit
  scrRwBit := 10
  scrNsBit := 0
  hcrRwBit := 31
  smFixedRegBits := 0
  smFixedFpsr := 0
  haveSVE := false
  haveSME := false
  haveSME2 := false
  sveSizes := []
  zaBits := 0
  zt0Bits := 0
  spsrWidth := 32
  res0ReadsZero := false
  bankSecure := []
  sysMapExt := []
  returns := { rows := [], otherwise := { target := .el0, state := .aarch32, mode := some .usr, newPc := 0 } }
  bigEndian := false
  bankRows := []

/-- Every System register at zero: the source gives no reset value (R55), DESIGN CHOICE (notes/assumptions/2.md). -/
def SysRegs.reset : SysRegs where
  spsrEl1 := 0
  spsrEl2 := 0
  spsrEl3 := 0
  spsrEl1Top := []
  spsrEl2Top := []
  spsrEl3Top := []
  elrEl1 := 0
  elrEl2 := 0
  elrEl3 := 0
  spEl0 := 0
  spEl1 := 0
  spEl2 := 0
  esrEl1 := 0
  esrEl2 := 0
  esrEl3 := 0
  scrEl3 := 0
  hcrEl2 := 0
  fpsr := 0
  spsrAbt := 0
  spsrUnd := 0
  spsrIrq := 0
  spsrFiq := 0
  hcr := 0
  scr := 0
  ifarS := 0
  ifarNS := 0
  dfarS := 0
  dfarNS := 0
  hifar := 0
  hdfar := 0
  ext := []

/-- The state after reset. The source gives no reset value for anything (R55, R170): every field is a DESIGN CHOICE
of the model (notes/assumptions/2.md), a state that satisfies R20 to R22. -/
def State.reset : State where
  cfg := resetConfig
  curState := .aarch64
  el := .el3
  el0State := .aarch32
  secure := true
  mode := .usr
  x := Vector.replicate 31 0
  vreg := Vector.replicate 32 0
  pc := 0
  psSM := false
  psZA := false
  sveState := []
  zaStorage := []
  zt0 := []
  sys := SysRegs.reset
  result := none
  draws := 0
  input := []

/-- The outcome of a meaning on this machine. -/
abbrev Outcome := Host.Outcome State Fault Refusal

end Sys2Proof.Machine
end

