-- ==== Sys2Proof/Machine/Flags.lean ====
section
/-! DEFINITION. The process-state fields the source names, PSTATE.SM and PSTATE.ZA (10_state.md rule R38): what value each
behaves as, and what the rules of 44_sme_interprocessing.md make of PSTATE.SM at a change of Execution state. The source
names no condition flag. -/

namespace Sys2Proof.Machine

/-- The Effective value of PSTATE.SM: 0 in AArch32 state (R142), and 0 without SME (R38). -/
def effectiveSM (s : State) : Bool :=
  s.cfg.haveSME && s.psSM && s.curState == .aarch64

/-- The value PSTATE.ZA behaves as: 0 without SME (R38), else the stored bit in either Execution state (R145). -/
def effectiveZA (s : State) : Bool :=
  s.cfg.haveSME && s.psZA

/-- Does a change of Execution state reset the SVE registers and FPSR (R143)? The stored bit decides (R144). -/
def smResets (s : State) : Bool :=
  s.cfg.haveSME && s.psSM

/-- `n` bits of the pattern `SMFixedRegBits`, which is repeated after its 128 bits (R146, `replicate`). -/
def fixedBits (pattern : Quad) (n : Nat) : List Bool :=
  (List.range n).map fun i => pattern.getLsbD (i % 128)

end Sys2Proof.Machine
end

