-- ==== Sys2Proof/Machine/Levels.lean ====
section
/-! DEFINITION. The controls that decide the Execution state of each Exception level (43_sysreg_interprocessing.md
rule R121), which levels can be used, which mode belongs to which level (10_state.md rule R24), and the two tables of
upper halves (41_gpr_interprocessing.md rules R97 to R99). -/

namespace Sys2Proof

/-- P9 left open: is EL2 usable, as a predicate of the state? -/
opaque Config.el2Open (view : Machine.State) : Bool

end Sys2Proof

namespace Sys2Proof.Machine

/-- The state as the open predicate of P9 sees it: everything but the bits that no AArch32 operation may read, which are
the upper halves of `x` (R26) and V16 to V31 (R36), and but the model's own fields. The parameters are no part of the state
P9 speaks of, so one fixed configuration stands in their place: `BankMap` decides nothing (R127) and no rule reads
`BigEndian` (R61). The predicate is opaque, so it stands for that of any one implementation. PSTATE.SM and
PSTATE.ZA it sees as they behave: PSTATE.SM as 0 in AArch32 state (R142), and both as 0 without SME (R38). What an open
predicate may depend on is not in the spec: DESIGN CHOICE (notes/assumptions/10.md). -/
def el2View (s : State) : State :=
  { s with
    cfg := resetConfig
    x := s.x.map fun w => w &&& 0xFFFFFFFF#64
    vreg := Vector.ofFn fun n : Fin 32 => if n.val < 16 then s.vreg[n.val] else 0
    psSM := effectiveSM s
    psZA := effectiveZA s
    result := none
    draws := 0
    input := [] }

/-- The field RW of SCR_EL3 (R47, R74). -/
def scrRW (s : State) : Bool := s.sys.scrEl3.getLsbD s.cfg.scrRwBit

/-- The field NS of SCR_EL3 (R47). -/
def scrNS (s : State) : Bool := s.sys.scrEl3.getLsbD s.cfg.scrNsBit

/-- The stored field RW of HCR_EL2 (R48, R74). -/
def hcrRW (s : State) : Bool := s.sys.hcrEl2.getLsbD s.cfg.hcrRwBit

/-- The field RW of the AArch32 register HCR: "a notional bit that is RES 0" (R48, R97). -/
def hcrNotionalRW : Bool := false

/-- `EL2Enabled` (R4 P9, R23): EL2 is implemented and the NS bits do not prevent its use. -/
def el2Enabled (s : State) : Bool :=
  s.cfg.haveEL2 &&
    match s.cfg.el2Rule with
    | .nsBit => !s.cfg.haveEL3 || scrNS s
    | .alsoSecure => true
    | .anyRule => Config.el2Open (el2View s)

/-- `state_of(3)`: fixed for the implementation (R121). -/
def stateOf3 (s : State) : ExecState := s.cfg.topState

/-- The Execution state SCR_EL3.RW gives the level below EL3 (R121). -/
def belowEl3 (s : State) : ExecState :=
  if stateOf3 s = .aarch64 ∧ scrRW s = true then .aarch64 else .aarch32

/-- `state_of(2)` (R121). -/
def stateOf2 (s : State) : ExecState :=
  if s.cfg.haveEL3 then belowEl3 s else s.cfg.topState

/-- `state_of(1)` (R121). Where EL2 is using AArch32, HCR.RW is a notional 0 and HCR_EL2.RW is not read. -/
def stateOf1 (s : State) : ExecState :=
  if el2Enabled s then (if stateOf2 s = .aarch64 ∧ hcrRW s = true then .aarch64 else .aarch32)
  else if s.cfg.haveEL3 then belowEl3 s
  else s.cfg.topState

/-- `state_of(0)`: as the last return into EL0 set it, and AArch32 whenever EL1 is using AArch32 (R121). -/
def stateOf0 (s : State) : ExecState :=
  if stateOf1 s = .aarch32 then .aarch32 else s.el0State

/-- `state_of(l)` (R21, R121): the Execution state a level is using. -/
def stateOf (s : State) : EL → ExecState
  | .el0 => stateOf0 s
  | .el1 => stateOf1 s
  | .el2 => stateOf2 s
  | .el3 => stateOf3 s

/-- `A32Supported(l)` (R4 P3). -/
def a32Supported (c : Config) : EL → Bool
  | .el0 => c.a32El0
  | .el1 => c.a32El1
  | .el2 => c.a32El2
  | .el3 => c.a32El3

/-- Is the level implemented (R21)? -/
def levelImplemented (c : Config) : EL → Bool
  | .el0 => true
  | .el1 => true
  | .el2 => c.haveEL2
  | .el3 => c.haveEL3

/-- Can the level be a target: implemented and, for EL2, enabled (R84)? -/
def levelUsable (s : State) : EL → Bool
  | .el2 => el2Enabled s
  | l => levelImplemented s.cfg l

/-- Does the mode belong to the level (R24)? User mode to EL0, Hyp mode to EL2, the others but Monitor mode to EL1, or
to EL3 when EL3 is using AArch32; Monitor mode to such an EL3 only. -/
def modeBelongs (c : Config) (m : Mode) (l : EL) : Bool :=
  match m, l with
  | .usr, .el0 => true
  | .hyp, .el2 => true
  | .usr, _ => false
  | .hyp, _ => false
  | .mon, .el3 => c.haveEL3 && c.topState == .aarch32
  | .mon, _ => false
  | _, .el1 => true
  | _, .el3 => c.haveEL3 && c.topState == .aarch32
  | _, _ => false

/-! ## Upper halves: the tables of R98 and R99 -/

/-- The row index SCR_EL3.RW (R97): read for target EL3, and 1 for every other target. -/
def tableScrRW (s : State) (target : EL) : Bool :=
  if target = .el3 then scrRW s else true

/-- The row index HCR_EL2.RW or HCR.RW (R97): that of SCR_EL3.RW where EL2 cannot be used, the notional 0 of HCR where
EL2 is using AArch32, else the stored bit. -/
def tableHcrRW (s : State) (target : EL) : Bool :=
  if !el2Enabled s then tableScrRW s target
  else if !tableScrRW s target then hcrNotionalRW
  else hcrRW s

/-- A set of registers as the tables write it: a list of ranges, both ends included. -/
abbrev RegRanges := List (Nat × Nat)

/-- Is X`n` in the set? -/
def inRanges (r : RegRanges) (n : Nat) : Bool := r.any fun p => p.1 ≤ n && n ≤ p.2

/-- The table of R98 by (SCR_EL3.RW, HCR_EL2.RW) and target: the registers that can have their upper 32 bits set to
zero; `none` for a dash and for the row that is not valid. -/
def zeroableTable (scr hcr : Bool) (target : EL) : Option RegRanges :=
  match scr, hcr, target with
  | false, false, .el3 => some [(0, 30)]
  | true, false, .el3 => some [(0, 14), (16, 30)]
  | true, false, .el2 => some [(0, 14), (16, 30)]
  | true, true, .el3 => some [(0, 14)]
  | true, true, .el2 => some [(0, 14)]
  | true, true, .el1 => some [(0, 14)]
  | _, _, _ => none

/-- The table of R99: the registers that retain their upper 32 bits. -/
def retainTable (scr hcr : Bool) (target : EL) : Option RegRanges :=
  match scr, hcr, target with
  | false, false, .el3 => some []
  | true, false, .el3 => some [(15, 15)]
  | true, false, .el2 => some [(15, 15)]
  | true, true, .el3 => some [(15, 30)]
  | true, true, .el2 => some [(15, 30)]
  | true, true, .el1 => some [(15, 30)]
  | _, _, _ => none

/-- `ZeroableSet(target_el)` (R98 with the indices of R97). -/
def zeroableSet (s : State) (target : EL) : Option RegRanges :=
  zeroableTable (tableScrRW s target) (tableHcrRW s target) target

/-- `RetainSet(target_el)` (R99 with the indices of R97). -/
def retainSet (s : State) (target : EL) : Option RegRanges :=
  retainTable (tableScrRW s target) (tableHcrRW s target) target

end Sys2Proof.Machine
end

