-- ==== Sys2Proof/WellFormed.lean ====
section
/-! DEFINITION. Which terms of `Instr` are operations of the list of 30_encoding.md rule R70: every operand in the range its
row gives it. (The ranges of the `Fin` operands hold by their type.) -/

namespace Sys2Proof

/-- A letter, a digit or an underscore: the characters of the register names of R77. -/
def isNameChar (c : Char) : Bool := c.isAlphanum || c == '_'

/-- The AArch32 System register names of R41 to R50 that have a constructor of their own. -/
def a32SysNames : List (Name × A32Sys) :=
  [("SPSR_svc".toList, .spsrSvc), ("SPSR_hyp".toList, .spsrHyp), ("ELR_hyp".toList, .elrHyp),
   ("SPSR_abt".toList, .spsrAbt), ("SPSR_und".toList, .spsrUnd), ("SPSR_irq".toList, .spsrIrq),
   ("SPSR_fiq".toList, .spsrFiq), ("HCR".toList, .hcr), ("SCR".toList, .scr), ("IFAR".toList, .ifar),
   ("DFAR".toList, .dfar), ("HIFAR".toList, .hifar), ("HDFAR".toList, .hdfar)]

/-- The AArch64 System register names of R135. -/
def a64SysNames : List (Name × A64Sys) :=
  [("SPSR_EL1".toList, .spsrEl1), ("SPSR_EL2".toList, .spsrEl2), ("ELR_EL1".toList, .elrEl1),
   ("ELR_EL2".toList, .elrEl2), ("SP_EL0".toList, .spEl0), ("SP_EL1".toList, .spEl1), ("SP_EL2".toList, .spEl2),
   ("SCR_EL3".toList, .scrEl3), ("HCR_EL2".toList, .hcrEl2), ("ESR_EL1".toList, .esrEl1),
   ("ESR_EL2".toList, .esrEl2), ("ESR_EL3".toList, .esrEl3), ("FPSR".toList, .fpsr),
   ("SPSR_abt".toList, .spsrAbt), ("SPSR_und".toList, .spsrUnd), ("SPSR_irq".toList, .spsrIrq),
   ("SPSR_fiq".toList, .spsrFiq)]

/-- A name that can stand in a trace line. -/
def isName (nm : Name) : Bool := !nm.isEmpty && nm.all isNameChar

/-- An AArch32 System register operand: another name is a name, and none of those with a constructor. -/
def A32Sys.wellFormed : A32Sys → Bool
  | .other nm => isName nm && !(a32SysNames.map Prod.fst).contains nm
  | _ => true

/-- An AArch64 System register operand: another name is a name, and none of those with a constructor. -/
def A64Sys.wellFormed : A64Sys → Bool
  | .other nm => isName nm && !(a64SysNames.map Prod.fst).contains nm
  | _ => true

/-- The width of the value `A64.SYSWR` writes: 32 bits for the four AArch32-only registers (R44), 64 for the others, and
none fixed here for SPSR_EL1 and SPSR_EL2, whose width is the parameter `SPSRWidth` (R4 P7). -/
def A64Sys.operandWidth : A64Sys → Option Nat
  | .spsrAbt | .spsrUnd | .spsrIrq | .spsrFiq => some 32
  | .spsrEl1 | .spsrEl2 => none
  | _ => some 64

/-- Is the value one of the register's width? -/
def A64Sys.fits (r : A64Sys) (v : Nat) : Bool :=
  match r.operandWidth with
  | some w => v < 2 ^ w
  | none => true

/-- Every operand of the operation is in the range R70 and the opcode table give it. -/
def Instr.wellFormed : Instr → Bool
  | .eret => true
  | .a32Rd n => n.val ≤ 14
  | .a32Wr n _ => n.val ≤ 14
  | .a64Rd _ => true
  | .a64Wr _ _ => true
  | .a32Qrd _ => true
  | .a32Qwr _ _ => true
  | .a32Drd _ => true
  | .a32Dwr _ _ => true
  | .a32Srd _ => true
  | .a32Swr _ _ => true
  | .a64Vrd _ => true
  | .a64Vwr _ _ => true
  | .a64Drd _ => true
  | .a64Srd _ => true
  | .a32Sysrd a => a.wellFormed
  | .a32Syswr a _ => a.wellFormed
  | .a64Sysrd r => r.wellFormed
  | .a64Syswr r v => r.wellFormed && r.fits v
  | .excEntry t _ => t ≠ .el0
  | .excReturn t st m _ => t ≠ .el3 && (m.isSome == (st == .aarch32))
  | .a32Setmode _ _ => true

end Sys2Proof
end

