-- ==== Sys2Proof/Machine/Operands.lean ====
section
/-! DEFINITION. Which storage a register name denotes: the AArch32 general-purpose registers by mode and number (10_state.md
rules R25 and R27), the AArch32 Q, D and S registers (R34, R35), the AArch64 V, D and S registers (R31, R32), and the
System registers by name (R40 to R50, R120 to R129, R135). -/

namespace Sys2Proof.Machine

/-! ## Halves of a word -/

/-- Bits[31:0] of a 64-bit value. -/
def low32 (w : Word) : Half := w.extractLsb' 0 32

/-- Bits[63:32] of a 64-bit value. -/
def high32 (w : Word) : Half := w.extractLsb' 32 32

/-- `w` with bits[31:0] written (R6, `x[i][31:0] <- v`). -/
def setLow32 (w : Word) (v : Half) : Word := high32 w ++ v

/-- `w` with bits[63:32] written. -/
def setHigh32 (w : Word) (v : Half) : Word := v ++ low32 w

/-- Bits[lo+width-1:lo] of a SIMD and floating-point cell. -/
def quadField (q : Quad) (lo width : Nat) : BitVec width := q.extractLsb' lo width

/-- `q` with the field of `width` bits at `lo` written (R6, `vreg[i][hi:lo] <- v`); the other bits keep their value. -/
def setQuadField (q : Quad) (lo : Nat) {width : Nat} (v : BitVec width) : Quad :=
  (q &&& ~~~((BitVec.allOnes width).setWidth 128 <<< lo)) ||| (v.setWidth 128 <<< lo)

/-! ## General-purpose registers -/

/-- `A32Map` (R25): the number of the cell that holds an AArch32 register. -/
def a32Map : A32Reg → Fin 31
  | .r0 => 0
  | .r1 => 1
  | .r2 => 2
  | .r3 => 3
  | .r4 => 4
  | .r5 => 5
  | .r6 => 6
  | .r7 => 7
  | .r8Usr => 8
  | .r9Usr => 9
  | .r10Usr => 10
  | .r11Usr => 11
  | .r12Usr => 12
  | .spUsr => 13
  | .lrUsr => 14
  | .spHyp => 15
  | .lrIrq => 16
  | .spIrq => 17
  | .lrSvc => 18
  | .spSvc => 19
  | .lrAbt => 20
  | .spAbt => 21
  | .lrUnd => 22
  | .spUnd => 23
  | .r8Fiq => 24
  | .r9Fiq => 25
  | .r10Fiq => 26
  | .r11Fiq => 27
  | .r12Fiq => 28
  | .spFiq => 29
  | .lrFiq => 30

/-- The copy of R13 a mode has (R27); Monitor mode's is not mapped. -/
def bankSp : Mode → Except Refusal A32Reg
  | .usr => .ok .spUsr
  | .sys => .ok .spUsr
  | .fiq => .ok .spFiq
  | .irq => .ok .spIrq
  | .svc => .ok .spSvc
  | .abt => .ok .spAbt
  | .und => .ok .spUnd
  | .hyp => .ok .spHyp
  | .mon => .error .monitorBank

/-- The copy of R14 a mode has (R27): Hyp mode has none of its own and uses LR_usr. -/
def bankLr : Mode → Except Refusal A32Reg
  | .usr => .ok .lrUsr
  | .sys => .ok .lrUsr
  | .fiq => .ok .lrFiq
  | .irq => .ok .lrIrq
  | .svc => .ok .lrSvc
  | .abt => .ok .lrAbt
  | .und => .ok .lrUnd
  | .hyp => .ok .lrUsr
  | .mon => .error .monitorBank

/-- The table of R27, the default of `Bank(mode, n)`: the copy that register number `n` names in a mode; 15 names none
(R37). -/
def bankTable (m : Mode) (n : Fin 16) : Except Refusal A32Reg :=
  match n.val with
  | 0 => .ok .r0
  | 1 => .ok .r1
  | 2 => .ok .r2
  | 3 => .ok .r3
  | 4 => .ok .r4
  | 5 => .ok .r5
  | 6 => .ok .r6
  | 7 => .ok .r7
  | 8 => .ok (if m = .fiq then .r8Fiq else .r8Usr)
  | 9 => .ok (if m = .fiq then .r9Fiq else .r9Usr)
  | 10 => .ok (if m = .fiq then .r10Fiq else .r10Usr)
  | 11 => .ok (if m = .fiq then .r11Fiq else .r11Usr)
  | 12 => .ok (if m = .fiq then .r12Fiq else .r12Usr)
  | 13 => bankSp m
  | 14 => bankLr m
  | _ => .error .pcAsGpr

/-- `Bank(mode, n)` (R4 P13): the copy an entry of the parameter names, else that of the table. A number the table gives no
copy has none (R27, R37). -/
def bank (c : Config) (m : Mode) (n : Fin 16) : Except Refusal A32Reg :=
  match bankTable m n with
  | .error r => .error r
  | .ok a =>
    match c.bankRows.find? fun b => b.mode == m && b.n == n with
    | some b => .ok b.reg
    | none => .ok a

/-- `XNum(mode, n)` (R27): the cell that register number `n` denotes in a mode. -/
def xNum (c : Config) (m : Mode) (n : Fin 16) : Except Refusal (Fin 31) :=
  match bank c m n with
  | .ok a => .ok (a32Map a)
  | .error r => .error r

/-- `ESRRegNum(mode, n)` (R93): the register number an exception syndrome reports for register `n` of an instruction
executed in AArch32 mode `m`, as a 5-bit field (R73). -/
def esrRegNum (c : Config) (m : Mode) (n : Fin 16) : Except Refusal (BitVec 5) :=
  match xNum c m n with
  | .ok k => .ok (BitVec.ofNat 5 k.val)
  | .error r => .error r

/-! ## SIMD and floating-point registers -/

/-- The cell of AArch32 Q`n` (R34). -/
def qCell (n : Fin 16) : Fin 32 := ⟨n.val, by omega⟩

/-- The cell that holds AArch32 D`m`: two to a Q register (R35). -/
def dCell (m : Fin 32) : Fin 32 := ⟨m.val / 2, by omega⟩

/-- The lowest bit of AArch32 D`m` in its cell (R35). -/
def dLow (m : Fin 32) : Nat := 64 * (m.val % 2)

/-- The cell that holds AArch32 S`m`: four to a Q register (R35). -/
def sCell (m : Fin 32) : Fin 32 := ⟨m.val / 4, by omega⟩

/-- The lowest bit of AArch32 S`m` in its cell (R35). -/
def sLow (m : Fin 32) : Nat := 32 * (m.val % 4)

/-! ## System registers -/

/-- Is EL3 implemented and using AArch32 (R125)? EL3 is then the highest level, so its state is the fixed one (R121). -/
def el3UsesA32 (s : State) : Bool :=
  s.cfg.haveEL3 && s.cfg.topState == .aarch32

/-- `BankMap` (R4 P8): the instance of a banked AArch32 register that its mapped AArch64 register is mapped onto where EL3
uses AArch64. No operation reads it: "no observable result may depend" on it (R127). -/
def bankMap (c : Config) (a : A32Sys) : Security :=
  if c.bankSecure.contains a then .secure else .nonSecure

/-- The register an AArch32 name denotes and, where banking is supported, the instance: that of the current Security state
(R125), and for HIFAR and HDFAR the Secure IFAR and DFAR (R50, R128). Elsewhere there is one instance, the same whatever
the Security state is (R126, R127). -/
def resolveBank (s : State) (a : A32Sys) : A32Sys × Option Security :=
  if el3UsesA32 s then
    match a with
    | .hifar => (.ifar, some .secure)
    | .hdfar => (.dfar, some .secure)
    | a => (a, some (if s.secure then .secure else .nonSecure))
  else (a, none)

/-- Does an entry stand for a register and instance? An entry or a name without an instance stands for every one. -/
def entryIsFor (e : SysMapEntry) (name : A32Sys) (inst : Option Security) : Bool :=
  e.name == name && (inst == none || e.bank == none || e.bank == inst)

/-- The entry of the user's part of `SysMap` for a name (R120): the first that stands for it. -/
def sysMapExtTarget (s : State) (a : A32Sys) : Option SysTarget :=
  let (name, inst) := resolveBank s a
  (s.cfg.sysMapExt.find? fun e => entryIsFor e name inst).map SysMapEntry.target

/-- Where an AArch32 System register is stored (R135): the three mapped registers, the four with a cell of their own,
and what the user's part of `SysMap` adds (R52). -/
def a32SysTarget (s : State) (a : A32Sys) : Option SysTarget :=
  match a with
  | .spsrSvc => some (.low .spsrEl1)
  | .spsrHyp => some (.low .spsrEl2)
  | .elrHyp => some (.low .elrEl2)
  | .spsrAbt => some (.own .spsrAbt)
  | .spsrUnd => some (.own .spsrUnd)
  | .spsrIrq => some (.own .spsrIrq)
  | .spsrFiq => some (.own .spsrFiq)
  | a => sysMapExtTarget s a

/-- The AArch32 register that a name spells. -/
def a32SysNamed (nm : Name) : A32Sys :=
  ((a32SysNames.find? fun e => e.1 == nm).map Prod.snd).getD (.other nm)

/-- The AArch32 register's own cell that an AArch64 access reaches (R129): one of the four of R44 by its name (R132), and,
under its AArch32 name in the same way, a register that the user's part of `SysMap` gives a cell of its own. -/
def a64OwnCell (s : State) : A64Sys → Option A32Cell
  | .spsrAbt => some .spsrAbt
  | .spsrUnd => some .spsrUnd
  | .spsrIrq => some .spsrIrq
  | .spsrFiq => some .spsrFiq
  | .other nm =>
    match sysMapExtTarget s (a32SysNamed nm) with
    | some (.own c) => some c
    | _ => none
  | _ => none

/-- The level whose AArch32 register a cell holds: AArch64 code reaches it "from a higher Exception level" (R129, R132).
HCR, HIFAR and HDFAR are registers of EL2, and SCR of EL3. -/
def cellLevel : A32Cell → EL
  | .hcr => .el2
  | .hifar => .el2
  | .hdfar => .el2
  | .scr => .el3
  | _ => .el1

/-- The bits of a 64-bit value below `SPSRWidth` (R4 P7): what bits[63:0] of an SPSR can hold. -/
def spsrTrunc (c : Config) (v : Word) : Word :=
  (v.setWidth c.spsrWidth).setWidth 64

/-- The bits of a value from bit 64 up to `SPSRWidth`, bit 64 first: what an SPSR holds above bit 63. -/
def spsrTop (c : Config) (v : Nat) : List Bool :=
  (List.range (c.spsrWidth - 64)).map fun i => v.testBit (64 + i)

/-- The number that bits write, bit 0 first. -/
def bitsValue : List Bool → Nat
  | [] => 0
  | b :: bs => b.toNat + 2 * bitsValue bs

/-- The number whose bits[63:0] and whose bits above are given. -/
def wideValue (low : Word) (top : List Bool) : Nat := low.toNat + 2 ^ 64 * bitsValue top

/-- The content of the first entry for a name. -/
def extRead : List (Name × Word) → Name → Option Word
  | [], _ => none
  | (k, v) :: rest, nm => if k = nm then some v else extRead rest nm

/-- The first entry for a name written; a name without an entry has no cell. -/
def extWrite : List (Name × Word) → Name → Word → List (Name × Word)
  | [], _, _ => []
  | (k, v) :: rest, nm, w => if k = nm then (k, w) :: rest else (k, v) :: extWrite rest nm w

/-- Bits[63:0] of an AArch64 System register; `none` where the register has no cell of 64 bits:
SCR_EL3 without EL3 (R47), HCR_EL2 without EL2 (R48), the four registers of R44, a name nobody supplied (R52). -/
def readCell64 (s : State) (r : A64Sys) : Option Word :=
  match r with
  | .spsrEl1 => some s.sys.spsrEl1
  | .spsrEl2 => some s.sys.spsrEl2
  | .elrEl1 => some s.sys.elrEl1
  | .elrEl2 => some s.sys.elrEl2
  | .spEl0 => some s.sys.spEl0
  | .spEl1 => some s.sys.spEl1
  | .spEl2 => some s.sys.spEl2
  | .scrEl3 => if s.cfg.haveEL3 then some s.sys.scrEl3 else none
  | .hcrEl2 => if s.cfg.haveEL2 then some s.sys.hcrEl2 else none
  | .esrEl1 => some s.sys.esrEl1
  | .esrEl2 => some s.sys.esrEl2
  | .esrEl3 => some s.sys.esrEl3
  | .fpsr => some s.sys.fpsr
  | .spsrAbt => none
  | .spsrUnd => none
  | .spsrIrq => none
  | .spsrFiq => none
  | .other nm => extRead s.sys.ext nm

/-- The System registers with bits[63:0] of an AArch64 register written; an SPSR keeps its implemented bits only. -/
def writeCell64 (c : Config) (r : A64Sys) (v : Word) (g : SysRegs) : SysRegs :=
  match r with
  | .spsrEl1 => { g with spsrEl1 := spsrTrunc c v }
  | .spsrEl2 => { g with spsrEl2 := spsrTrunc c v }
  | .elrEl1 => { g with elrEl1 := v }
  | .elrEl2 => { g with elrEl2 := v }
  | .spEl0 => { g with spEl0 := v }
  | .spEl1 => { g with spEl1 := v }
  | .spEl2 => { g with spEl2 := v }
  | .scrEl3 => { g with scrEl3 := v }
  | .hcrEl2 => { g with hcrEl2 := v }
  | .esrEl1 => { g with esrEl1 := v }
  | .esrEl2 => { g with esrEl2 := v }
  | .esrEl3 => { g with esrEl3 := v }
  | .fpsr => { g with fpsr := v }
  | .spsrAbt => g
  | .spsrUnd => g
  | .spsrIrq => g
  | .spsrFiq => g
  | .other nm => { g with ext := extWrite g.ext nm v }

/-- The bits of an AArch64 System register above bit 63: an SPSR can have some (R4 P7). -/
def readTop (g : SysRegs) : A64Sys → List Bool
  | .spsrEl1 => g.spsrEl1Top
  | .spsrEl2 => g.spsrEl2Top
  | _ => []

/-- The System registers with the bits of an AArch64 register above bit 63 written; only an SPSR has any. -/
def writeTop (r : A64Sys) (top : List Bool) (g : SysRegs) : SysRegs :=
  match r with
  | .spsrEl1 => { g with spsrEl1Top := top }
  | .spsrEl2 => { g with spsrEl2Top := top }
  | _ => g

/-- The System registers with an AArch64 register written as a whole (R135). -/
def writeWhole (c : Config) (r : A64Sys) (v : Nat) (g : SysRegs) : SysRegs :=
  writeTop r (spsrTop c v) (writeCell64 c r (BitVec.ofNat 64 v) g)

/-- The value a read of a whole register gives. -/
def wholeValue (low : Word) (top : List Bool) : ReadValue :=
  match top with
  | [] => .bits64 low
  | _ => .wide low top

/-- The content of an AArch32 register's own cell. -/
def readCell32 (g : SysRegs) : A32Cell → Half
  | .spsrAbt => g.spsrAbt
  | .spsrUnd => g.spsrUnd
  | .spsrIrq => g.spsrIrq
  | .spsrFiq => g.spsrFiq
  | .hcr => g.hcr
  | .scr => g.scr
  | .ifarS => g.ifarS
  | .ifarNS => g.ifarNS
  | .dfarS => g.dfarS
  | .dfarNS => g.dfarNS
  | .hifar => g.hifar
  | .hdfar => g.hdfar

/-- The System registers with an AArch32 register's own cell written. -/
def writeCell32 (c : A32Cell) (v : Half) (g : SysRegs) : SysRegs :=
  match c with
  | .spsrAbt => { g with spsrAbt := v }
  | .spsrUnd => { g with spsrUnd := v }
  | .spsrIrq => { g with spsrIrq := v }
  | .spsrFiq => { g with spsrFiq := v }
  | .hcr => { g with hcr := v }
  | .scr => { g with scr := v }
  | .ifarS => { g with ifarS := v }
  | .ifarNS => { g with ifarNS := v }
  | .dfarS => { g with dfarS := v }
  | .dfarNS => { g with dfarNS := v }
  | .hifar => { g with hifar := v }
  | .hdfar => { g with hdfar := v }

end Sys2Proof.Machine
end

