-- ==== Sys2Proof/Machine/Ops.lean ====
section
/-! DEFINITION. The operations over the register storage that the meanings share: reads and writes of cells, the
helpers of an exception entry (41_gpr_interprocessing.md rule R104, 43_sysreg_interprocessing.md rule R130,
44_sme_interprocessing.md rule R146, 60_exceptions.md rules R154 and R155), and, once each, taking an exception and returning from
one (40_state_change.md rules R84 and R85). -/

namespace Sys2Proof.Machine

/-! ## Cells -/

/-- `x[k]` (R6). -/
def readX (s : State) (k : Fin 31) : Word := s.x[k.val]

/-- `x[k] <- w` (R6). -/
def State.withX (s : State) (k : Fin 31) (w : Word) : State :=
  { s with x := s.x.set k.val w }

/-- `vreg[k]` (R6). -/
def readV (s : State) (k : Fin 32) : Quad := s.vreg[k.val]

/-- `vreg[k] <- q` (R6). -/
def State.withV (s : State) (k : Fin 32) (q : Quad) : State :=
  { s with vreg := s.vreg.set k.val q }

/-- The System registers replaced. -/
def State.withSys (s : State) (g : SysRegs) : State := { s with sys := g }

/-- `result <- v`: the value a read operation gives. -/
def State.withResult (s : State) (v : ReadValue) : State := { s with result := some v }

/-- One draw made. -/
def State.drawn (s : State) : State := { s with draws := s.draws + 1 }

/-- `require cur_state = AArch32` (R70). -/
def inA32 (s : State) (o : Outcome) : Outcome :=
  if s.curState = .aarch32 then o else .refused .wrongState

/-- `require cur_state = AArch64` (R70). -/
def inA64 (s : State) (o : Outcome) : Outcome :=
  if s.curState = .aarch64 then o else .refused .wrongState

/-- Goes on with the cell that AArch32 register number `n` denotes in the current mode, or refuses as R27 says. -/
def withXNum (s : State) (n : Fin 16) (f : Fin 31 → Outcome) : Outcome :=
  match xNum s.cfg s.mode n with
  | .ok k => f k
  | .error r => .refused r

/-! ## System registers -/

/-- Is the cell one of the four registers that are RES0 because EL1 does not support AArch32 (R133)? -/
def isRes0 (c : Config) : A32Cell → Bool
  | .spsrAbt => !c.a32El1
  | .spsrUnd => !c.a32El1
  | .spsrIrq => !c.a32El1
  | .spsrFiq => !c.a32El1
  | _ => false

/-- A read of an AArch32 register's own cell. A RES0 register reads as a draw, or as zero where the implementation is
so configured (R133). -/
def readOwn (c : A32Cell) (s : State) : Outcome :=
  if isRes0 s.cfg c then
    if s.cfg.res0ReadsZero then .next (s.withResult (.bits32 0))
    else .next (s.withResult (.bits32 (Config.res0Read s.draws))).drawn
  else .next (s.withResult (.bits32 (readCell32 s.sys c)))

/-- A write of an AArch32 register's own cell; of a RES0 register it has no effect (R133). -/
def writeOwn (c : A32Cell) (v : Half) (s : State) : Outcome :=
  if isRes0 s.cfg c then .next s else .next (s.withSys (writeCell32 c v s.sys))

/-- A read of an AArch32 System register where it is stored (R135). -/
def readTarget (t : SysTarget) (s : State) : Outcome :=
  match t with
  | .own c => readOwn c s
  | .low r =>
    match readCell64 s r with
    | some w => .next (s.withResult (.bits32 (low32 w)))
    | none => .refused .unmappedSysreg
  | .high r =>
    match readCell64 s r with
    | some w => .next (s.withResult (.bits32 (high32 w)))
    | none => .refused .unmappedSysreg

/-- A write of an AArch32 System register where it is stored: only the mapped half changes (R122). -/
def writeTarget (t : SysTarget) (v : Half) (s : State) : Outcome :=
  match t with
  | .own c => writeOwn c v s
  | .low r =>
    match readCell64 s r with
    | some w => .next (s.withSys (writeCell64 s.cfg r (setLow32 w v) s.sys))
    | none => .refused .unmappedSysreg
  | .high r =>
    match readCell64 s r with
    | some w => .next (s.withSys (writeCell64 s.cfg r (setHigh32 w v) s.sys))
    | none => .refused .unmappedSysreg

/-! ## Helpers of a change of Execution state -/

/-- A word after the draw of R95 or R130: its upper half kept, or set to zero. -/
def drawUpper (cleared : Bool) (w : Word) : Word :=
  if cleared then setHigh32 w 0 else w

/-- `GPRUpperOnEntry` (R104) with `ZeroableSet` given: each register of the set draws for itself. -/
def gprUpperOnEntry (z : RegRanges) (s : State) : State :=
  { s with x := Vector.ofFn fun n : Fin 31 =>
      if inRanges z n.val then drawUpper (Config.upperCleared s.draws n.val) s.x[n.val] else s.x[n.val] }

/-- The case of R130: target EL3, and EL2 usable and using AArch32. -/
def elr2Draws (s : State) (target : EL) : Bool :=
  target == .el3 && el2Enabled s && stateOf2 s == .aarch32

/-- `ELR2UpperOnEntry` (R130). -/
def elr2UpperOnEntry (target : EL) (s : State) : State :=
  if elr2Draws s target then
    s.withSys { s.sys with elrEl2 := drawUpper (Config.elr2Cleared s.draws) s.sys.elrEl2 }
  else s

/-- `SMEOnStateChange` (R146). -/
def smeOnStateChange (s : State) : State :=
  if smResets s then
    { s with
      vreg := Vector.replicate 32 s.cfg.smFixedRegBits
      sveState := s.sveState.map fun r => fixedBits s.cfg.smFixedRegBits r.length
      sys := { s.sys with fpsr := s.cfg.smFixedFpsr } }
  else s

/-- `EntryEffects(target_el)` at its default (R154): every register in its write-frame, the Security state, and the
registers the spec does not name, which the user supplied, receive a draw of any value. -/
def entryEffects (target : EL) (s : State) : State :=
  let k := s.draws
  let g := s.sys
  let spsr := spsrTrunc s.cfg (BitVec.ofNat 64 (Config.entrySpsr k))
  let top := spsrTop s.cfg (Config.entrySpsr k)
  let ext := g.ext.map fun e => (e.1, Config.entryExt k e.1)
  let g' : SysRegs :=
    match target with
    | .el0 => { g with ext := ext }
    | .el1 => { g with esrEl1 := Config.entryEsr k, elrEl1 := Config.entryElr k, spsrEl1 := spsr, spsrEl1Top := top, ext := ext }
    | .el2 => { g with esrEl2 := Config.entryEsr k, elrEl2 := Config.entryElr k, spsrEl2 := spsr, spsrEl2Top := top, ext := ext }
    | .el3 => { g with esrEl3 := Config.entryEsr k, elrEl3 := Config.entryElr k, spsrEl3 := spsr, spsrEl3Top := top, ext := ext }
  { s with sys := g', secure := Config.entrySecure k }

/-- `ReturnEffects(target_el)` at its default (R155): of the state here, only the Security state is in its frame. -/
def returnEffects (s : State) : State :=
  { s with secure := Config.returnSecure s.draws }

/-! ## Taking an exception and returning from one -/

/-- The entry itself: the body of R84 after its tests, with `ZeroableSet` given. -/
def enterA64 (z : RegRanges) (target : EL) (newPc : Word) (s : State) : State :=
  { (entryEffects target (smeOnStateChange (elr2UpperOnEntry target (gprUpperOnEntry z s)))) with
    curState := .aarch64
    el := target
    pc := newPc
    draws := s.draws + 1 }

/-- `EXC_ENTRY target_el, new_pc` (R84): the tests in the rule's order, then the entry. -/
def takeException (target : EL) (newPc : Word) (s : State) : Outcome :=
  if target.num < s.el.num then .refused .illegalStateChange
  else if levelUsable s target = false then .refused .levelAbsent
  else if stateOf s target = s.curState then .refused .outsideSpec
  else if s.curState = .aarch64 then .refused .illegalStateChange
  else if target = s.el then .refused .illegalStateChange
  else
    match zeroableSet s target with
    | none => .refused .invalidRw
    | some z => .next (enterA64 z target newPc s)

/-- The return itself: the body of R85 after its tests. In AArch32 state only bits[31:0] of the new pc are kept. -/
def enterA32 (target : EL) (mode : Mode) (newPc : Word) (s : State) : State :=
  { (returnEffects (smeOnStateChange s)) with
    curState := .aarch32
    el := target
    mode := mode
    el0State := if target = .el0 then .aarch32 else s.el0State
    pc := (low32 newPc).setWidth 64
    draws := s.draws + 1 }

/-- `EXC_RETURN target_el, target_state, target_mode, new_pc` (R85): the tests in the rule's order, then the return. -/
def returnFromException (a : ReturnArgs) (s : State) : Outcome :=
  if s.el.num < a.target.num then .refused .illegalStateChange
  else if s.curState = .aarch32 ∧ a.state = .aarch64 then .refused .illegalStateChange
  else if a.state = s.curState then .refused .outsideSpec
  else if a.target = s.el then .refused .illegalStateChange
  else if levelImplemented s.cfg a.target = false then .refused .levelAbsent
  else if a32Supported s.cfg a.target = false then .refused .illegalStateChange
  else if a.target ≠ .el0 ∧ stateOf s a.target ≠ .aarch32 then .refused .illegalStateChange
  else
    match a.mode with
    | none => .refused .illegalStateChange
    | some m =>
      if modeBelongs s.cfg m a.target = false then .refused .illegalStateChange
      else .next (enterA32 a.target m a.newPc s)

/-- SPSR of the current level as a number (R86); EL0 has none. -/
def levelSpsr (s : State) : EL → Nat
  | .el0 => 0
  | .el1 => wideValue s.sys.spsrEl1 s.sys.spsrEl1Top
  | .el2 => wideValue s.sys.spsrEl2 s.sys.spsrEl2Top
  | .el3 => wideValue s.sys.spsrEl3 s.sys.spsrEl3Top

/-- ELR of the current level (R86); EL0 has none. -/
def levelElr (s : State) : EL → Word
  | .el0 => 0
  | .el1 => s.sys.elrEl1
  | .el2 => s.sys.elrEl2
  | .el3 => s.sys.elrEl3

/-- The answer of `ReturnEffects` for a level, its SPSR and its ELR (R86). -/
def returnAnswer (r : ReturnEffects) (el : EL) (spsr : Nat) (elr : Word) : ReturnArgs :=
  match r.rows.find? fun row => row.el == el && row.spsr == spsr && row.elr == elr with
  | some row => row.args
  | none => r.otherwise

/-- The arguments `ERET` performs its exception return with (R86). -/
def eretArgs (s : State) : ReturnArgs :=
  returnAnswer s.cfg.returns s.el (levelSpsr s s.el) (levelElr s s.el)

end Sys2Proof.Machine
end

