-- ==== Sys2Proof/Machine/Exception.lean ====
section
/-! DEFINITION. The operations that change the Exception level (40_state_change.md rules R84, R85, R86 and R88). -/

namespace Sys2Proof.Machine

/-- `EXC_ENTRY target_el, new_pc` (R84). -/
def execExcEntry (target : EL) (newPc : Word) (s : State) : Outcome :=
  takeException target newPc s

/-- `EXC_RETURN target_el, target_state, target_mode, new_pc` (R85). -/
def execExcReturn (target : EL) (state : ExecState) (mode : Option Mode) (newPc : Word) (s : State) : Outcome :=
  returnFromException { target := target, state := state, mode := mode, newPc := newPc } s

/-- `ERET` (R86): in AArch64 state above EL0, the exception return with the arguments `ReturnEffects` supplies. At EL0 it
is refused as outside the spec, which R86 and T8.12 say, and not as the wrong state, which the table of R70 would
have it (DEDUCED: notes/assumptions/35.md). -/
def execEret (s : State) : Outcome :=
  inA64 s (if s.el = .el0 then .refused .outsideSpec else returnFromException (eretArgs s) s)

/-- `A32.SETMODE target_el, target_mode` (R88): `el` and `mode` change and nothing else. Legal in AArch32 state for a
usable level that is using AArch32 (R70) and a mode that belongs to it (R24). -/
def execA32Setmode (target : EL) (mode : Mode) (s : State) : Outcome :=
  inA32 s
    (if levelUsable s target = true ∧ stateOf s target = .aarch32 ∧
        modeBelongs s.cfg mode target = true then
      .next { s with el := target, mode := mode }
    else .refused .wrongState)

end Sys2Proof.Machine
end

