-- ==== Sys2Proof/Machine/Gpr.lean ====
section
/-! DEFINITION. The general-purpose register operations (41_gpr_interprocessing.md rules R90 to R92). -/

namespace Sys2Proof.Machine

/-- `A32.RD n` (R90): bits[31:0] of the cell the number denotes in the current mode. -/
def execA32Rd (n : Fin 16) (s : State) : Outcome :=
  inA32 s (withXNum s n fun k => .next (s.withResult (.bits32 (low32 (readX s k)))))

/-- `A32.WR n, v` (R91): bits[31:0] of that cell; its bits[63:32] keep their value. -/
def execA32Wr (n : Fin 16) (v : Half) (s : State) : Outcome :=
  inA32 s (withXNum s n fun k => .next (s.withX k (setLow32 (readX s k) v)))

/-- `A64.RD n` (R92): all 64 bits of `x[n]`. -/
def execA64Rd (n : Fin 31) (s : State) : Outcome :=
  inA64 s (.next (s.withResult (.bits64 (readX s n))))

/-- `A64.WR n, v` (R92): all 64 bits of `x[n]`. -/
def execA64Wr (n : Fin 31) (v : Word) (s : State) : Outcome :=
  inA64 s (.next (s.withX n v))

end Sys2Proof.Machine
end

