-- ==== Sys2Proof/Machine/Simd.lean ====
section
/-! DEFINITION. The SIMD and floating-point register operations (42_simd_fp_interprocessing.md rules R110 to R113). -/

namespace Sys2Proof.Machine

/-- `A32.QRD n` (R110). -/
def execA32Qrd (n : Fin 16) (s : State) : Outcome :=
  inA32 s (.next (s.withResult (.bits128 (readV s (qCell n)))))

/-- `A32.QWR n, v` (R110). -/
def execA32Qwr (n : Fin 16) (v : Quad) (s : State) : Outcome :=
  inA32 s (.next (s.withV (qCell n) v))

/-- `A32.DRD m` (R111). -/
def execA32Drd (m : Fin 32) (s : State) : Outcome :=
  inA32 s (.next (s.withResult (.bits64 (quadField (readV s (dCell m)) (dLow m) 64))))

/-- `A32.DWR m, v` (R111): the other 64 bits of the cell are unchanged. -/
def execA32Dwr (m : Fin 32) (v : Word) (s : State) : Outcome :=
  inA32 s (.next (s.withV (dCell m) (setQuadField (readV s (dCell m)) (dLow m) v)))

/-- `A32.SRD m` (R112). -/
def execA32Srd (m : Fin 32) (s : State) : Outcome :=
  inA32 s (.next (s.withResult (.bits32 (quadField (readV s (sCell m)) (sLow m) 32))))

/-- `A32.SWR m, v` (R112): the other 96 bits of the cell are unchanged. -/
def execA32Swr (m : Fin 32) (v : Half) (s : State) : Outcome :=
  inA32 s (.next (s.withV (sCell m) (setQuadField (readV s (sCell m)) (sLow m) v)))

/-- `A64.VRD n` (R113). -/
def execA64Vrd (n : Fin 32) (s : State) : Outcome :=
  inA64 s (.next (s.withResult (.bits128 (readV s n))))

/-- `A64.VWR n, v` (R113). -/
def execA64Vwr (n : Fin 32) (v : Quad) (s : State) : Outcome :=
  inA64 s (.next (s.withV n v))

/-- `A64.DRD n` (R113): the least significant bytes of V`n` (R32). -/
def execA64Drd (n : Fin 32) (s : State) : Outcome :=
  inA64 s (.next (s.withResult (.bits64 (quadField (readV s n) 0 64))))

/-- `A64.SRD n` (R113). -/
def execA64Srd (n : Fin 32) (s : State) : Outcome :=
  inA64 s (.next (s.withResult (.bits32 (quadField (readV s n) 0 32))))

end Sys2Proof.Machine
end

