-- ==== Sys2Proof/Machine/Sysreg.lean ====
section
/-! DEFINITION. The System register operations (43_sysreg_interprocessing.md rule R135, with R122, R132 and R133). -/

namespace Sys2Proof.Machine

/-- `A32.SYSRD a` (R135). -/
def execA32Sysrd (a : A32Sys) (s : State) : Outcome :=
  inA32 s
    (match a32SysTarget s a with
     | some t => readTarget t s
     | none => .refused .unmappedSysreg)

/-- `A32.SYSWR a, v` (R135). -/
def execA32Syswr (a : A32Sys) (v : Half) (s : State) : Outcome :=
  inA32 s
    (match a32SysTarget s a with
     | some t => writeTarget t v s
     | none => .refused .unmappedSysreg)

/-- `A64.SYSRD N` (R135): the whole register; an AArch32 register's own cell from a higher level only (R129, R132). -/
def execA64Sysrd (r : A64Sys) (s : State) : Outcome :=
  inA64 s
    (match a64OwnCell s r with
     | some c => if (cellLevel c).num < s.el.num then readOwn c s else .refused .unmappedSysreg
     | none =>
       match readCell64 s r with
       | some w => .next (s.withResult (wholeValue w (readTop s.sys r)))
       | none => .refused .unmappedSysreg)

/-- `A64.SYSWR N, v` (R135): the whole register; an AArch32 register's own cell from a higher level only (R129, R132). -/
def execA64Syswr (r : A64Sys) (v : Nat) (s : State) : Outcome :=
  inA64 s
    (match a64OwnCell s r with
     | some c => if (cellLevel c).num < s.el.num then writeOwn c (BitVec.ofNat 32 v) s else .refused .unmappedSysreg
     | none =>
       match readCell64 s r with
       | some _ => .next (s.withSys (writeWhole s.cfg r v s.sys))
       | none => .refused .unmappedSysreg)

end Sys2Proof.Machine
end

