-- ==== Sys2Proof/Machine/Dispatch.lean ====
section
/-! DEFINITION. One arm per operation of the list of 30_encoding.md rule R70. -/

namespace Sys2Proof.Machine

/-- The meaning of an operation. -/
def exec (i : Instr) (s : State) : Host.Outcome State Fault Refusal :=
  match i with
  | .eret => Sys2Proof.Machine.execEret s
  | .a32Rd n => Sys2Proof.Machine.execA32Rd n s
  | .a32Wr n v => Sys2Proof.Machine.execA32Wr n v s
  | .a64Rd n => Sys2Proof.Machine.execA64Rd n s
  | .a64Wr n v => Sys2Proof.Machine.execA64Wr n v s
  | .a32Qrd n => Sys2Proof.Machine.execA32Qrd n s
  | .a32Qwr n v => Sys2Proof.Machine.execA32Qwr n v s
  | .a32Drd m => Sys2Proof.Machine.execA32Drd m s
  | .a32Dwr m v => Sys2Proof.Machine.execA32Dwr m v s
  | .a32Srd m => Sys2Proof.Machine.execA32Srd m s
  | .a32Swr m v => Sys2Proof.Machine.execA32Swr m v s
  | .a64Vrd n => Sys2Proof.Machine.execA64Vrd n s
  | .a64Vwr n v => Sys2Proof.Machine.execA64Vwr n v s
  | .a64Drd n => Sys2Proof.Machine.execA64Drd n s
  | .a64Srd n => Sys2Proof.Machine.execA64Srd n s
  | .a32Sysrd a => Sys2Proof.Machine.execA32Sysrd a s
  | .a32Syswr a v => Sys2Proof.Machine.execA32Syswr a v s
  | .a64Sysrd r => Sys2Proof.Machine.execA64Sysrd r s
  | .a64Syswr r v => Sys2Proof.Machine.execA64Syswr r v s
  | .excEntry target newPc => Sys2Proof.Machine.execExcEntry target newPc s
  | .excReturn target state mode newPc => Sys2Proof.Machine.execExcReturn target state mode newPc s
  | .a32Setmode target mode => Sys2Proof.Machine.execA32Setmode target mode s

end Sys2Proof.Machine
end

