-- ==== Sys2Proof/Decode.lean ====
section
/-! DEFINITION. From an item to an operation, and back. A machine word is decoded by 30_encoding.md rule R72 (the one
encoding there is, R71); a line by the trace notation of rule R77, `OP operands`, with the operation names of rule
R70. Decoding is total and rejects by name; `encode` writes the item of an operation in the same notation. -/

namespace Sys2Proof

/-! ## The operation names of R70 -/

/-- The operations by name only, without operands: the first column of the table of R70. -/
inductive Op where
  | eret | a32Rd | a32Wr | a64Rd | a64Wr
  | a32Qrd | a32Qwr | a32Drd | a32Dwr | a32Srd | a32Swr | a64Vrd | a64Vwr | a64Drd | a64Srd
  | a32Sysrd | a32Syswr | a64Sysrd | a64Syswr
  | excEntry | excReturn | a32Setmode
  deriving DecidableEq, Repr

/-- The names of R70, as spec/opcode_table.json spells them. -/
def opNames : List (Name × Op) :=
  [("ERET".toList, .eret), ("A32.RD".toList, .a32Rd), ("A32.WR".toList, .a32Wr), ("A64.RD".toList, .a64Rd),
   ("A64.WR".toList, .a64Wr), ("A32.QRD".toList, .a32Qrd), ("A32.QWR".toList, .a32Qwr), ("A32.DRD".toList, .a32Drd),
   ("A32.DWR".toList, .a32Dwr), ("A32.SRD".toList, .a32Srd), ("A32.SWR".toList, .a32Swr), ("A64.VRD".toList, .a64Vrd),
   ("A64.VWR".toList, .a64Vwr), ("A64.DRD".toList, .a64Drd), ("A64.SRD".toList, .a64Srd),
   ("A32.SYSRD".toList, .a32Sysrd), ("A32.SYSWR".toList, .a32Syswr), ("A64.SYSRD".toList, .a64Sysrd),
   ("A64.SYSWR".toList, .a64Syswr), ("EXC_ENTRY".toList, .excEntry), ("EXC_RETURN".toList, .excReturn),
   ("A32.SETMODE".toList, .a32Setmode)]

/-- The value a name stands for in a table of names. -/
def lookupName {α : Type} (table : List (Name × α)) (t : Name) : Option α :=
  (table.find? fun e => e.1 == t).map Prod.snd

/-- The name a value has in a table of names. -/
def nameOf {α : Type} [DecidableEq α] (table : List (Name × α)) (a : α) : Name :=
  ((table.find? fun e => e.2 == a).map Prod.fst).getD []

/-- The operations whose line may carry `-> value` after the operands (R77): those that read. -/
def Op.isRead : Op → Bool
  | .a32Rd | .a64Rd | .a32Qrd | .a32Drd | .a32Srd | .a64Vrd | .a64Drd | .a64Srd | .a32Sysrd | .a64Sysrd => true
  | _ => false

/-- The mode names of R24 and R27. -/
def modeNames : List (Name × Mode) :=
  [("usr".toList, .usr), ("fiq".toList, .fiq), ("irq".toList, .irq), ("svc".toList, .svc), ("abt".toList, .abt),
   ("und".toList, .und), ("hyp".toList, .hyp), ("sys".toList, .sys), ("mon".toList, .mon)]

/-- The names of the two Execution states (R20). -/
def stateNames : List (Name × ExecState) :=
  [("AArch64".toList, .aarch64), ("AArch32".toList, .aarch32)]

/-- The Exception levels by number (R21). -/
def elNames : List (Name × EL) :=
  [("0".toList, .el0), ("1".toList, .el1), ("2".toList, .el2), ("3".toList, .el3)]

/-! ## Numbers and values -/

/-- A decimal digit's value. -/
def decDigit (c : Char) : Option Nat :=
  if '0'.toNat ≤ c.toNat && c.toNat ≤ '9'.toNat then some (c.toNat - '0'.toNat) else none

/-- A hexadecimal digit's value. -/
def hexDigit (c : Char) : Option Nat :=
  if '0'.toNat ≤ c.toNat && c.toNat ≤ '9'.toNat then some (c.toNat - '0'.toNat)
  else if 'A'.toNat ≤ c.toNat && c.toNat ≤ 'F'.toNat then some (c.toNat - 'A'.toNat + 10)
  else if 'a'.toNat ≤ c.toNat && c.toNat ≤ 'f'.toNat then some (c.toNat - 'a'.toNat + 10)
  else none

/-- The number a run of decimal digits writes, after the digits that wrote `acc`. -/
def decFold : Nat → List Char → Option Nat
  | acc, [] => some acc
  | acc, c :: cs =>
    match decDigit c with
    | some d => decFold (10 * acc + d) cs
    | none => none

/-- A decimal number: one digit or more. -/
def parseDec (t : Name) : Option Nat :=
  if t.isEmpty then none else decFold 0 t

/-- The number a run of hexadecimal digits writes, after the digits that wrote `acc`; an underscore between digits
counts for nothing (95_test_vectors.md writes one between 32-bit groups). -/
def hexFold : Nat → List Char → Option Nat
  | acc, [] => some acc
  | acc, c :: cs =>
    if c = '_' then hexFold acc cs
    else
      match hexDigit c with
      | some d => hexFold (16 * acc + d) cs
      | none => none

/-- A value: `0x` and hexadecimal digits, the first of them a digit (R5). -/
def parseHex : Name → Option Nat
  | '0' :: 'x' :: c :: cs => if (hexDigit c).isSome then hexFold 0 (c :: cs) else none
  | _ => none

/-- A register number below `bound`. -/
def regOperand (bound : Nat) (t : Name) : Except DecodeError (Fin bound) :=
  match parseDec t with
  | none => .error .badOperands
  | some n => if h : n < bound then .ok ⟨n, h⟩ else .error .operandRange

/-- A value of `width` bits. -/
def valueOperand (width : Nat) (t : Name) : Except DecodeError (BitVec width) :=
  match parseHex t with
  | none => .error .badOperands
  | some v => if v < 2 ^ width then .ok (BitVec.ofNat width v) else .error .operandRange

/-- A value of the width of an AArch64 System register. -/
def sysValueOperand (r : A64Sys) (t : Name) : Except DecodeError Nat :=
  match parseHex t with
  | none => .error .badOperands
  | some v => if r.fits v then .ok v else .error .operandRange

/-- A name of a table. -/
def nameOperand {α : Type} (table : List (Name × α)) (t : Name) : Except DecodeError α :=
  match lookupName table t with
  | some a => .ok a
  | none => .error .badOperands

/-- An AArch32 System register name. -/
def a32SysOperand (t : Name) : Except DecodeError A32Sys :=
  match lookupName a32SysNames t with
  | some a => .ok a
  | none => if isName t then .ok (.other t) else .error .badOperands

/-- An AArch64 System register name. -/
def a64SysOperand (t : Name) : Except DecodeError A64Sys :=
  match lookupName a64SysNames t with
  | some r => .ok r
  | none => if isName t then .ok (.other t) else .error .badOperands

/-- A target mode, or `-` where none is named (95_test_vectors.md T8.6). -/
def modeOperand (t : Name) : Except DecodeError (Option Mode) :=
  if t = ['-'] then .ok none
  else
    match lookupName modeNames t with
    | some m => .ok (some m)
    | none => .error .badOperands

/-! ## Lines -/

/-- What separates tokens: a space or a comma. -/
def isSep (c : Char) : Bool := c == ' ' || c == ','

/-- The stretches between separators, empty ones included; never an empty list. -/
def splitToks : List Char → List Name
  | [] => [[]]
  | c :: cs =>
    if isSep c then [] :: splitToks cs
    else
      match splitToks cs with
      | t :: ts => (c :: t) :: ts
      | [] => [[c]]

/-- The tokens of a line; what follows a `;` is a comment (95_test_vectors.md part 9). -/
def tokens (text : List Char) : List Name :=
  (splitToks (text.takeWhile (· != ';'))).filter fun t => !t.isEmpty

/-- The operands of a read without the `-> value` that R77 lets follow them. -/
def dropResult : List Name → List Name
  | [] => []
  | t :: ts =>
    if t = ['-', '>'] then
      match ts with
      | [v] => if (parseHex v).isSome then [] else t :: ts
      | _ => t :: ts
    else t :: dropResult ts

/-- The operation an operation name and its operand tokens make. Any level is read: `EXC_ENTRY 0` has an outcome in
95_test_vectors.md T4.21, the pseudocode of R85 has one for `EXC_RETURN 3`, and R70 lets `A32.SETMODE` target every level
that is using AArch32. -/
def buildInstr (op : Op) (args : List Name) : Except DecodeError Instr :=
  match op, args with
  | .eret, [] => .ok .eret
  | .a32Rd, [n] => do return .a32Rd (← regOperand 16 n)
  | .a32Wr, [n, v] => do return .a32Wr (← regOperand 16 n) (← valueOperand 32 v)
  | .a64Rd, [n] => do return .a64Rd (← regOperand 31 n)
  | .a64Wr, [n, v] => do return .a64Wr (← regOperand 31 n) (← valueOperand 64 v)
  | .a32Qrd, [n] => do return .a32Qrd (← regOperand 16 n)
  | .a32Qwr, [n, v] => do return .a32Qwr (← regOperand 16 n) (← valueOperand 128 v)
  | .a32Drd, [m] => do return .a32Drd (← regOperand 32 m)
  | .a32Dwr, [m, v] => do return .a32Dwr (← regOperand 32 m) (← valueOperand 64 v)
  | .a32Srd, [m] => do return .a32Srd (← regOperand 32 m)
  | .a32Swr, [m, v] => do return .a32Swr (← regOperand 32 m) (← valueOperand 32 v)
  | .a64Vrd, [n] => do return .a64Vrd (← regOperand 32 n)
  | .a64Vwr, [n, v] => do return .a64Vwr (← regOperand 32 n) (← valueOperand 128 v)
  | .a64Drd, [n] => do return .a64Drd (← regOperand 32 n)
  | .a64Srd, [n] => do return .a64Srd (← regOperand 32 n)
  | .a32Sysrd, [a] => do return .a32Sysrd (← a32SysOperand a)
  | .a32Syswr, [a, v] => do return .a32Syswr (← a32SysOperand a) (← valueOperand 32 v)
  | .a64Sysrd, [r] => do return .a64Sysrd (← a64SysOperand r)
  | .a64Syswr, [r, v] => do
    let reg ← a64SysOperand r
    return .a64Syswr reg (← sysValueOperand reg v)
  | .excEntry, [t, p] => do return .excEntry (← nameOperand elNames t) (← valueOperand 64 p)
  | .excReturn, [t, st, m, p] => do
    return .excReturn (← nameOperand elNames t) (← nameOperand stateNames st) (← modeOperand m) (← valueOperand 64 p)
  | .a32Setmode, [t, m] => do return .a32Setmode (← nameOperand elNames t) (← nameOperand modeNames m)
  | _, _ => .error .badOperands

/-- A line's tokens as an operation. -/
def decodeTokens : List Name → Except DecodeError Instr
  | [] => .error .emptyLine
  | t :: args =>
    match lookupName opNames t with
    | none => .error .unknownOperation
    | some op => buildInstr op (if op.isRead then dropResult args else args)

/-- A line of the trace notation (R77). -/
def decodeLine (text : List Char) : Except DecodeError Instr :=
  decodeTokens (tokens text)

/-- The word of `ERET`, field by field as R72 gives it: bits 31..25, 24..21, 20..16, 15..10, 9..5 and 4..0. -/
def eretWord : BitVec 32 :=
  0b1101011#7 ++ 0b0100#4 ++ 0b11111#5 ++ 0b000000#6 ++ 0b11111#5 ++ 0b00000#5

/-- A machine word: match `0xD69F03E0` under the mask `0xFFFFFFFF` (R72), nothing else (R71). -/
def decodeWord (w : BitVec 32) : Except DecodeError Instr :=
  if w = eretWord then .ok .eret else .error .unknownWord

/-- The operation an item stands for. -/
def decode : Item → Except DecodeError Instr
  | .word w => decodeWord w
  | .line text => decodeLine text

/-- The instruction the decoder reads from an instruction whose bits are `w`. The one instruction with an encoding
is one word of 32 bits (R72), so a number that does not fit in 32 bits is none. -/
def decodeTableWord (_nbits w : Nat) : Option Instr :=
  if w < 2 ^ 32 then (decode (.word (BitVec.ofNat 32 w))).toOption else none

/-! ## The encoder -/

/-- The digit of a hexadecimal value below 16. -/
def hexChar (d : Nat) : Char :=
  if d < 10 then Char.ofNat ('0'.toNat + d) else Char.ofNat ('A'.toNat + (d - 10))

/-- The last `k` hexadecimal digits of `v`, the most significant first. -/
def hexDigits : Nat → Nat → List Char
  | 0, _ => []
  | k + 1, v => hexDigits k (v / 16) ++ [hexChar (v % 16)]

/-- A value of `4 * k` bits in `k` digits. -/
def hexToken (k v : Nat) : Name := '0' :: 'x' :: hexDigits k v

/-- A value of any width, in at least 16 digits. -/
def wideToken (v : Nat) : Name := hexToken (max 16 (v.log2 / 4 + 1)) v

/-- A register number below 100. -/
def decToken (n : Nat) : Name :=
  if n < 10 then [hexChar n] else [hexChar (n / 10), hexChar (n % 10)]

/-- An AArch32 System register's name. -/
def a32SysToken : A32Sys → Name
  | .other nm => nm
  | a => nameOf a32SysNames a

/-- An AArch64 System register's name. -/
def a64SysToken : A64Sys → Name
  | .other nm => nm
  | r => nameOf a64SysNames r

/-- A target mode's token. -/
def modeToken : Option Mode → Name
  | none => ['-']
  | some m => nameOf modeNames m

/-- The operation's name of R70, without operands. -/
def opOf : Instr → Op
  | .eret => .eret
  | .a32Rd _ => .a32Rd
  | .a32Wr _ _ => .a32Wr
  | .a64Rd _ => .a64Rd
  | .a64Wr _ _ => .a64Wr
  | .a32Qrd _ => .a32Qrd
  | .a32Qwr _ _ => .a32Qwr
  | .a32Drd _ => .a32Drd
  | .a32Dwr _ _ => .a32Dwr
  | .a32Srd _ => .a32Srd
  | .a32Swr _ _ => .a32Swr
  | .a64Vrd _ => .a64Vrd
  | .a64Vwr _ _ => .a64Vwr
  | .a64Drd _ => .a64Drd
  | .a64Srd _ => .a64Srd
  | .a32Sysrd _ => .a32Sysrd
  | .a32Syswr _ _ => .a32Syswr
  | .a64Sysrd _ => .a64Sysrd
  | .a64Syswr _ _ => .a64Syswr
  | .excEntry _ _ => .excEntry
  | .excReturn _ _ _ _ => .excReturn
  | .a32Setmode _ _ => .a32Setmode

/-- The operand tokens of an operation, in the order of R70's table. -/
def operandTokens : Instr → List Name
  | .eret => []
  | .a32Rd n => [decToken n.val]
  | .a32Wr n v => [decToken n.val, hexToken 8 v.toNat]
  | .a64Rd n => [decToken n.val]
  | .a64Wr n v => [decToken n.val, hexToken 16 v.toNat]
  | .a32Qrd n => [decToken n.val]
  | .a32Qwr n v => [decToken n.val, hexToken 32 v.toNat]
  | .a32Drd m => [decToken m.val]
  | .a32Dwr m v => [decToken m.val, hexToken 16 v.toNat]
  | .a32Srd m => [decToken m.val]
  | .a32Swr m v => [decToken m.val, hexToken 8 v.toNat]
  | .a64Vrd n => [decToken n.val]
  | .a64Vwr n v => [decToken n.val, hexToken 32 v.toNat]
  | .a64Drd n => [decToken n.val]
  | .a64Srd n => [decToken n.val]
  | .a32Sysrd a => [a32SysToken a]
  | .a32Syswr a v => [a32SysToken a, hexToken 8 v.toNat]
  | .a64Sysrd r => [a64SysToken r]
  | .a64Syswr r v => [a64SysToken r, wideToken v]
  | .excEntry t p => [nameOf elNames t, hexToken 16 p.toNat]
  | .excReturn t st m p => [nameOf elNames t, nameOf stateNames st, modeToken m, hexToken 16 p.toNat]
  | .a32Setmode t m => [nameOf elNames t, nameOf modeNames m]

/-- Operands with a comma and a space between them. -/
def joinOperands : List Name → List Char
  | [] => []
  | [t] => t
  | t :: ts => t ++ ',' :: ' ' :: joinOperands ts

/-- The line of an operation: `OP operands` (R77). -/
def encodeLine (i : Instr) : List Char :=
  match operandTokens i with
  | [] => nameOf opNames (opOf i)
  | ts => nameOf opNames (opOf i) ++ ' ' :: joinOperands ts

/-- The item of an operation: the word of R72 for `ERET`, a line of R77 for every other. -/
def encode : Instr → Item
  | .eret => .word eretWord
  | i => .line (encodeLine i)

end Sys2Proof
end

