-- ==== Sys2Proof/Machine/Fetch.lean ====
section
/-! DEFINITION. The next operation: the environment's next item, decoded; and the line of the trace notation
(30_encoding.md rule R77) that an executed operation leaves. -/

namespace Sys2Proof.Machine

/-- The operation of the next item, and the state with that item taken away. -/
def fetch (s : State) : Except Refusal (Instr × State) :=
  match s.input with
  | [] => .error .noOperation
  | item :: rest =>
    match decode item with
    | .ok i => .ok (i, { s with input := rest })
    | .error e => .error (.undecodable e)

/-- A state with a machine word as its next item. -/
def pushWord (s : State) (w : BitVec 32) : State := { s with input := .word w :: s.input }

/-- A value as the trace notation writes it. -/
def resultToken : ReadValue → Name
  | .bits32 v => hexToken 8 v.toNat
  | .bits64 v => hexToken 16 v.toNat
  | .bits128 v => hexToken 32 v.toNat
  | .wide low top => wideToken (wideValue low top)

/-- The trace line of an operation with `s` the state after it: `OP operands`, with `-> value` after a read (R77). -/
def traceLine (i : Instr) (s : State) : List Char :=
  match (opOf i).isRead, s.result with
  | true, some v => encodeLine i ++ ' ' :: '-' :: '>' :: ' ' :: resultToken v
  | _, _ => encodeLine i

end Sys2Proof.Machine
end

