-- ==== Sys2Proof/Machine/Step.lean ====
section
/-! DEFINITION. One step: the next item is taken, decoded and executed. -/

namespace Sys2Proof.Machine

/-- One step. An operation is one atomic step of the one processing element (20_memory.md rule R63). -/
def step (s : State) : Host.Outcome State Fault Refusal :=
  match fetch s with
  | .ok (i, s') => exec i s'
  | .error r => .refused r

/-- `s` with the instruction whose bits are `w` as the next item. The one instruction with an encoding is a word of 32
bits (30_encoding.md rule R72), so 32 bits are placed. -/
def State.withFetchWord (s : State) (_nbits w : Nat) : State :=
  pushWord s (BitVec.ofNat 32 w)

end Sys2Proof.Machine
end

