-- ==== Sys2Proof/Safety.lean ====
section
/-! DEFINITION. The terms in which the statements speak of the machine: when an exception entry or a return is one that
changes the Execution state, which Execution state an operation needs, and the invariants of a state. -/

namespace Sys2Proof.Machine

/-- The interprocessing case of `EXC_ENTRY` (R84): in AArch32 state, to a usable higher level that is using AArch64. -/
abbrev EntryLegal (s : State) (target : EL) : Prop :=
  s.curState = .aarch32 ∧ levelUsable s target = true ∧ stateOf s target = .aarch64 ∧ s.el.num < target.num

/-- The interprocessing case of `EXC_RETURN` (R85): in AArch64 state, to a lower implemented level that supports AArch32,
uses it already or is EL0, and has the mode. -/
abbrev ReturnLegal (s : State) (target : EL) (mode : Mode) : Prop :=
  s.curState = .aarch64 ∧ target.num < s.el.num ∧ levelImplemented s.cfg target = true ∧
    a32Supported s.cfg target = true ∧ (target = .el0 ∨ stateOf s target = .aarch32) ∧
    modeBelongs s.cfg mode target = true

/-- Where `A32.SETMODE` is legal (R70, R88). -/
abbrev SetmodeLegal (s : State) (target : EL) (mode : Mode) : Prop :=
  s.curState = .aarch32 ∧ levelUsable s target = true ∧ stateOf s target = .aarch32 ∧
    modeBelongs s.cfg mode target = true

/-- The Execution state an operation is legal in (R70, the column "legal when"); none for the two events, which R84 and
R85 take in any state. -/
def neededState : Instr → Option ExecState
  | .eret => some .aarch64
  | .a32Rd _ => some .aarch32
  | .a32Wr _ _ => some .aarch32
  | .a64Rd _ => some .aarch64
  | .a64Wr _ _ => some .aarch64
  | .a32Qrd _ => some .aarch32
  | .a32Qwr _ _ => some .aarch32
  | .a32Drd _ => some .aarch32
  | .a32Dwr _ _ => some .aarch32
  | .a32Srd _ => some .aarch32
  | .a32Swr _ _ => some .aarch32
  | .a64Vrd _ => some .aarch64
  | .a64Vwr _ _ => some .aarch64
  | .a64Drd _ => some .aarch64
  | .a64Srd _ => some .aarch64
  | .a32Sysrd _ => some .aarch32
  | .a32Syswr _ _ => some .aarch32
  | .a64Sysrd _ => some .aarch64
  | .a64Syswr _ _ => some .aarch64
  | .excEntry _ _ => none
  | .excReturn _ _ _ _ => none
  | .a32Setmode _ _ => some .aarch32

/-- The operations that take an exception or return from one. -/
def isTransfer : Instr → Bool
  | .eret => true
  | .excEntry _ _ => true
  | .excReturn _ _ _ _ => true
  | _ => false

/-- A register whose fields decide the Execution state of a level (R121). -/
def isControl : A64Sys → Bool
  | .scrEl3 => true
  | .hcrEl2 => true
  | _ => false

/-- Does the operation write SCR_EL3 or HCR_EL2, by its AArch64 name or through an entry the user added to `SysMap`? -/
def writesControl (s : State) : Instr → Bool
  | .a64Syswr r _ => isControl r
  | .a32Syswr a _ =>
    match a32SysTarget s a with
    | some (.low r) => isControl r
    | some (.high r) => isControl r
    | _ => false
  | _ => false

/-- The invariant every step keeps. -/
structure Inv (s : State) : Prop where
  /-- The parameters are within their bounds (R4). -/
  cfg : s.cfg.wf = true
  /-- The current level is implemented (R21). -/
  level : levelImplemented s.cfg s.el = true
  /-- In AArch32 state the mode belongs to the current level (R24). -/
  mode : s.curState = .aarch32 → modeBelongs s.cfg s.mode s.el = true
  /-- Each SVE register, ZA storage and ZT0 has its implemented size, and none where it is not implemented (R39). -/
  sve : s.sveState.map List.length = if s.cfg.haveSVE || s.cfg.haveSME then s.cfg.sveSizes else []
  za : s.zaStorage.length = if s.cfg.haveSME then s.cfg.zaBits else 0
  zt0 : s.zt0.length = if s.cfg.haveSME2 then s.cfg.zt0Bits else 0
  /-- The SPSRs hold no bit above `SPSRWidth` (R4 P7, R41, R42). -/
  spsr1 : spsrTrunc s.cfg s.sys.spsrEl1 = s.sys.spsrEl1
  spsr2 : spsrTrunc s.cfg s.sys.spsrEl2 = s.sys.spsrEl2
  spsr3 : spsrTrunc s.cfg s.sys.spsrEl3 = s.sys.spsrEl3
  top1 : s.sys.spsrEl1Top.length = s.cfg.spsrWidth - 64
  top2 : s.sys.spsrEl2Top.length = s.cfg.spsrWidth - 64
  top3 : s.sys.spsrEl3Top.length = s.cfg.spsrWidth - 64

/-- `cur_state = state_of(el)` (R21). -/
abbrev LevelAgrees (s : State) : Prop := s.curState = stateOf s s.el

end Sys2Proof.Machine
end

