-- ==== Sys2Proof/Certificates/Slice0/Obligations.lean ====
section
/-! DEFINITION. The statements made of this model, each with the rule of spec/ it rests on. A next state is given as a
record update of the state before wherever it can be, so that every field not named is said to be unchanged. -/

open Sys2Proof Sys2Proof.Machine

/-! ## Items, decoding, the step -/

/-- The one machine word with a meaning is that of `ERET` (30_encoding.md section 1; the spec marks the word as
general knowledge). -/
def Obligations.OnlyTheEretWordDecodes : Prop :=
  ∀ (w : BitVec 32) (i : Instr), decode (.word w) = .ok i ↔ w = 0xD69F03E0#32 ∧ i = .eret

/-- Lines of the spec's own traces are the operations they name, and an operand out of its range makes no operation
(30_encoding.md sections 1 and 5; T3.16, T5.9). How a line is read is the model's choice (notes/assumptions/6.md). -/
def Obligations.SpecTraceLinesDecode : Prop :=
  decodeLine "A32.WR 14, 0x00008004".toList = .ok (.a32Wr 14 0x8004#32) ∧
  decodeLine "EXC_ENTRY 3, 0x0".toList = .ok (.excEntry .el3 0#64) ∧
  decodeLine "A64.RD 20 -> 0x12".toList = .ok (.a64Rd 20) ∧
  decodeLine "A64.SYSWR SPSR_EL1, 0x000001D3".toList = .ok (.a64Syswr .spsrEl1 0x1D3) ∧
  decodeLine "EXC_RETURN 1, AArch32, svc, 0x8000".toList = .ok (.excReturn .el1 .aarch32 (some .svc) 0x8000#64) ∧
  decodeLine "A32.SETMODE 1, irq".toList = .ok (.a32Setmode .el1 .irq) ∧
  decodeLine "A32.DRD 3".toList = .ok (.a32Drd 3) ∧
  decodeLine "A32.QRD 16".toList = .error .operandRange ∧
  decodeLine "A32.SRD 32".toList = .error .operandRange ∧
  decodeLine "A64.RD 31".toList = .error .operandRange ∧
  decodeLine "A64.DWR 0, 0x0".toList = .error .unknownOperation

/-- Every well-formed operation is read back from its encoding, with every operand: the word for `ERET`, a line of the
trace notation for every other (notes/assumptions/6.md). -/
def Obligations.DecodeInvertsEncode : Prop :=
  ∀ i : Instr, i.wellFormed = true → decode (encode i) = .ok i

/-- The trace line an executed operation leaves, `-> value` after a read included, is read back (30_encoding.md
section 5; notes/assumptions/6.md). -/
def Obligations.TraceLineReadsBack : Prop :=
  ∀ (i : Instr) (s : State), i.wellFormed = true → decodeLine (traceLine i s) = .ok i

/-- A step takes the next item away and executes the operation it stands for; the instruction placed by
`withFetchWord` is the next one executed. That operations come as items from outside is the model's choice
(notes/assumptions/5.md). -/
def Obligations.StepRunsDecodedOperation : Prop :=
  (∀ (s : State) (item : Item) (rest : List Item) (i : Instr),
    s.input = item :: rest → decode item = .ok i → step s = exec i { s with input := rest }) ∧
  (∀ s : State, step (s.withFetchWord 32 0xD69F03E0) = exec .eret s)

/-- The list of operations is closed (R70, a decision of the spec): an item that is no operation is refused, and so is
a step without an item (the model's choice, notes/assumptions/5.md). -/
def Obligations.StepRefusesWhatIsNoOperation : Prop :=
  (∀ (s : State) (item : Item) (rest : List Item) (e : DecodeError),
    s.input = item :: rest → decode item = .error e → step s = .refused (.undecodable e)) ∧
  (∀ s : State, s.input = [] → step s = .refused .noOperation)

/-- An operation used in the Execution state it is not legal in is refused as such (R70, a decision of the spec). -/
def Obligations.WrongStateRefused : Prop :=
  ∀ (i : Instr) (s : State) (e : ExecState), neededState i = some e → s.curState ≠ e →
    exec i s = .refused .wrongState

/-! ## Invariants -/

/-- The reset state satisfies the invariant and R21; the reset values are the model's choice (notes/assumptions/1.md
and 2.md). -/
def Obligations.ResetSatisfiesInvariant : Prop :=
  Inv State.reset ∧ LevelAgrees State.reset

/-- Every step keeps the invariant: the level is implemented, in AArch32 state the mode belongs to it, the parameters
and the sizes of each SVE register, of ZA storage and of ZT0 stay as they are implemented, and each SPSR has exactly the
bits of its width. -/
def Obligations.StepKeepsInvariant : Prop :=
  ∀ s t : State, Inv s → step s = .next t → Inv t

/-- Every step keeps `cur_state = state_of(el)` (R21), but for one that writes SCR_EL3 or HCR_EL2 (notes/assumptions/27.md)
and, where `EL2Enabled` is an open predicate of the state (notes/assumptions/10.md), one that changes its value. -/
def Obligations.StepKeepsLevelAgreement : Prop :=
  ∀ (s s' t : State) (i : Instr), fetch s = .ok (i, s') → writesControl s i = false → LevelAgrees s →
    step s = .next t → (s.cfg.el2Rule = .anyRule → el2Enabled t = el2Enabled s) → LevelAgrees t

/-- No operation changes the parameters of the implementation (R4). -/
def Obligations.ParametersNeverChange : Prop :=
  ∀ (i : Instr) (s t : State), exec i s = .next t → t.cfg = s.cfg

/-- If a level is using AArch32, every lower level is (10_state.md section 1, R22, which the spec derives). -/
def Obligations.LowerLevelsFollowAArch32 : Prop :=
  ∀ (s : State) (h l : EL), l.num < h.num → stateOf s h = .aarch32 → stateOf s l = .aarch32

/-- The Execution states of EL2 and EL1 under an EL3 in AArch64 with EL2 enabled, by (SCR_EL3.RW, HCR_EL2.RW): T6.14
(43_sysreg_interprocessing.md section 1, R121, which the spec derives). -/
def Obligations.LevelStatesByRwBits : Prop :=
  ∀ s : State, s.cfg.haveEL3 = true → s.cfg.topState = .aarch64 → el2Enabled s = true →
    (stateOf s .el2, stateOf s .el1) =
      match scrRW s, hcrRW s with
      | true, true => (.aarch64, .aarch64)
      | true, false => (.aarch64, .aarch32)
      | false, _ => (.aarch32, .aarch32)

/-- R80: the Execution state changes only where the level changes, upwards from AArch32 or downwards from AArch64, and
only by an exception entry or return; any other operation but `A32.SETMODE` keeps the level too (R88 lets that one
change it, against the words of R80: notes/assumptions/26.md); and the pc changes only with the Execution state
(notes/assumptions/5.md). -/
def Obligations.ExecutionStateChangesOnlyWithLevel : Prop :=
  ∀ (i : Instr) (s t : State), exec i s = .next t →
    (t.curState ≠ s.curState →
      isTransfer i = true ∧
        ((s.curState = .aarch32 ∧ s.el.num < t.el.num) ∨ (s.curState = .aarch64 ∧ t.el.num < s.el.num))) ∧
    (isTransfer i = false → (∀ l m, i ≠ .a32Setmode l m) → t.el = s.el) ∧
    (t.curState = s.curState → t.pc = s.pc)

/-- R82: an exception that changes anything goes from AArch32 state to AArch64 state at a higher level; one to a lower
level, and one from AArch64 to AArch32, is refused. -/
def Obligations.EntryDirection : Prop :=
  ∀ (s : State) (l : EL) (p : Word),
    (∀ t, exec (.excEntry l p) s = .next t →
      s.curState = .aarch32 ∧ t.curState = .aarch64 ∧ s.el.num < l.num ∧ t.el = l) ∧
    (l.num < s.el.num → exec (.excEntry l p) s = .refused .illegalStateChange) ∧
    (levelUsable s l = true → s.curState = .aarch64 → stateOf s l = .aarch32 →
      exec (.excEntry l p) s = .refused .illegalStateChange)

/-- R83: a return that changes anything goes from AArch64 state to AArch32 state at a lower level; one to a higher
level, and one from AArch32 to AArch64, is refused. -/
def Obligations.ReturnDirection : Prop :=
  ∀ (s : State) (l : EL) (st : ExecState) (m : Option Mode) (p : Word),
    (∀ t, exec (.excReturn l st m p) s = .next t →
      s.curState = .aarch64 ∧ st = .aarch32 ∧ t.curState = .aarch32 ∧ l.num < s.el.num ∧ t.el = l) ∧
    (s.el.num < l.num → exec (.excReturn l st m p) s = .refused .illegalStateChange) ∧
    (s.curState = .aarch32 → st = .aarch64 → exec (.excReturn l st m p) s = .refused .illegalStateChange)

/-- The table of 40_state_change.md section 1 (R87, which the spec derives): an entry to a usable level at or above
the current one that is using the current Execution state, and a return at or below the current level that keeps the
Execution state, are outside the spec. -/
def Obligations.SameStateTransfersOutsideSpec : Prop :=
  (∀ (s : State) (l : EL) (p : Word), s.el.num ≤ l.num → levelUsable s l = true → stateOf s l = s.curState →
    exec (.excEntry l p) s = .refused .outsideSpec) ∧
  (∀ (s : State) (l : EL) (m : Option Mode) (p : Word), l.num ≤ s.el.num →
    exec (.excReturn l s.curState m p) s = .refused .outsideSpec)

/-! ## Exception entry -/

/-- R84 with the write-frame of `EntryEffects` at its default (R154, a decision of the spec; notes/assumptions/9.md): a
legal entry is taken, and what it changes: outside `x`, `vreg`, the SVE state and the System registers only the control
state; of the System registers ESR, ELR and SPSR of the target level and those the user supplied, which receive what is
drawn, ELR_EL2 for a target of EL3, and FPSR; the SIMD and SVE state only where PSTATE.SM resets it. The draws are
counted, so that the next entry draws afresh (notes/assumptions/8.md). -/
def Obligations.EntryCompletesWithFrame : Prop :=
  ∀ (s : State) (l : EL) (p : Word), EntryLegal s l →
    ∃ t, exec (.excEntry l p) s = .next t ∧
      t = { s with
            curState := .aarch64, el := l, pc := p, secure := t.secure, x := t.x, vreg := t.vreg,
            sveState := t.sveState, sys := t.sys, draws := s.draws + 1 } ∧
      t.secure = Config.entrySecure s.draws ∧
      (∃ elr2 fpsr : Word, t.sys =
        { ((match l with
          | .el0 => s.sys
          | .el1 =>
            { s.sys with
              esrEl1 := Config.entryEsr s.draws, elrEl1 := Config.entryElr s.draws
              spsrEl1 := spsrTrunc s.cfg (BitVec.ofNat 64 (Config.entrySpsr s.draws))
              spsrEl1Top := spsrTop s.cfg (Config.entrySpsr s.draws) }
          | .el2 =>
            { s.sys with
              esrEl2 := Config.entryEsr s.draws, elrEl2 := Config.entryElr s.draws
              spsrEl2 := spsrTrunc s.cfg (BitVec.ofNat 64 (Config.entrySpsr s.draws))
              spsrEl2Top := spsrTop s.cfg (Config.entrySpsr s.draws) }
          | .el3 =>
            { s.sys with
              esrEl3 := Config.entryEsr s.draws, elrEl3 := Config.entryElr s.draws, elrEl2 := elr2
              spsrEl3 := spsrTrunc s.cfg (BitVec.ofNat 64 (Config.entrySpsr s.draws))
              spsrEl3Top := spsrTop s.cfg (Config.entrySpsr s.draws) }) : SysRegs) with
          ext := s.sys.ext.map fun e : Name × Word => (e.1, Config.entryExt s.draws e.1)
          fpsr := fpsr }) ∧
      ((s.cfg.haveSME && s.psSM) = false →
        t.vreg = s.vreg ∧ t.sveState = s.sveState ∧ t.sys.fpsr = s.sys.fpsr)

/-- R106: an exception from AArch32 to AArch64 changes no bit of `x[n][31:0]`; AArch64 code then finds every AArch32
register in the low half of its cell. -/
def Obligations.LowHalvesFoundAfterEntry : Prop :=
  ∀ (s : State) (l : EL) (p : Word), EntryLegal s l →
    ∃ t, exec (.excEntry l p) s = .next t ∧
      (∀ n : Fin 31, low32 (readX t n) = low32 (readX s n)) ∧
      ∀ a : A32Reg, ∃ w, exec (.a64Rd (a32Map a)) t = .next { t with result := some (.bits64 w) } ∧
        low32 w = low32 (readX s (a32Map a))

/-- `GPRUpperOnEntry` (R104, which the spec derives), with the draws of R95 and D4: on a legal entry each register of
`ZeroableSet` has its upper half kept or zero as is drawn for that register and that entry (the free value
`upperCleared`, notes/assumptions/8.md), and a register outside it is unchanged in all its bits (R102, a decision of the
spec). -/
def Obligations.UpperHalvesAfterEntry : Prop :=
  ∀ (s : State) (l : EL) (p : Word), EntryLegal s l →
    ∃ z t, zeroableSet s l = some z ∧ exec (.excEntry l p) s = .next t ∧ t.draws = s.draws + 1 ∧
      ∀ n : Fin 31,
        low32 (readX t n) = low32 (readX s n) ∧
        (inRanges z n.val = true →
          high32 (readX t n) = if Config.upperCleared s.draws n.val then 0#32 else high32 (readX s n)) ∧
        (inRanges z n.val = false → readX t n = readX s n)

/-- The table of R100, which the spec derives: for a legal entry, `ZeroableSet` and `RetainSet` are decided by the
lowest level that is using AArch64, and do not depend on the target. -/
def Obligations.ZeroableSetByLowestA64Level : Prop :=
  ∀ (s : State) (l : EL), EntryLegal s l →
    (stateOf s .el1 = .aarch64 → zeroableSet s l = some [(0, 14)] ∧ retainSet s l = some [(15, 30)]) ∧
    (stateOf s .el1 = .aarch32 → el2Enabled s = true → stateOf s .el2 = .aarch64 →
      zeroableSet s l = some [(0, 14), (16, 30)] ∧ retainSet s l = some [(15, 15)]) ∧
    (stateOf s .el1 = .aarch32 → (el2Enabled s = false ∨ stateOf s .el2 = .aarch32) →
      zeroableSet s l = some [(0, 30)] ∧ retainSet s l = some [])

/-- R99, its closing paragraph: in every valid cell of the two tables, `RetainSet` is the complement of `ZeroableSet`
in X0 to X30, and the two tables have the same valid cells. -/
def Obligations.RetainSetIsComplement : Prop :=
  ∀ (scr hcr : Bool) (l : EL) (n : Fin 31),
    match zeroableTable scr hcr l, retainTable scr hcr l with
    | some z, some r => inRanges r n.val = !inRanges z n.val
    | none, none => True
    | _, _ => False

/-- R100 (derived by the spec), last column, with the modes of R24 and `Bank` at its default, the table of R27 (general
knowledge): the cells AArch32 code can name with AArch32 at EL0 only, at EL1 and EL0, and at EL2 to EL0 are the three
sets of the table. -/
def Obligations.NameableCellsByLevel : Prop :=
  ∀ (c : Config) (k : Fin 31), c.bankRows = [] →
    ((∃ m n, modeBelongs c m .el0 = true ∧ xNum c m n = .ok k) ↔ inRanges [(0, 14)] k.val = true) ∧
    ((∃ m n, (modeBelongs c m .el0 = true ∨ modeBelongs c m .el1 = true) ∧ xNum c m n = .ok k) ↔
      inRanges [(0, 14), (16, 30)] k.val = true) ∧
    (∃ m n, (modeBelongs c m .el0 = true ∨ modeBelongs c m .el1 = true ∨ modeBelongs c m .el2 = true) ∧
      xNum c m n = .ok k)

/-- R101: with target EL3, EL2 not implemented or NS selecting Secure state (NS = 0, general knowledge in the spec),
and SCR_EL3.RW = 0, X15 is among the registers whose upper half is kept or zeroed, as is drawn
(notes/assumptions/8.md). -/
def Obligations.X15ZeroableWithoutHyp : Prop :=
  ∀ (s : State) (p : Word), EntryLegal s .el3 → s.cfg.haveEL2 = false ∨ scrNS s = false → scrRW s = false →
    ∃ z t, zeroableSet s .el3 = some z ∧ inRanges z 15 = true ∧ exec (.excEntry .el3 p) s = .next t ∧
      low32 (readX t 15) = low32 (readX s 15) ∧
      high32 (readX t 15) = if Config.upperCleared s.draws 15 then 0#32 else high32 (readX s 15)

/-- R105, which the spec derives: no exception entry reaches a table cell that is not valid. -/
def Obligations.EntryNeverAtInvalidCell : Prop :=
  ∀ (s : State) (l : EL) (p : Word), exec (.excEntry l p) s ≠ .refused .invalidRw

/-- R130, as the spec decides to read it, and R136, which it derives: with target EL3 and EL2 enabled and using
AArch32, bits[63:32] of ELR_EL2 are kept or zero as is drawn at that entry (the free value `elr2Cleared`,
notes/assumptions/8.md and 11.md) and bits[31:0] are unchanged; for any other target but EL2 itself, and for EL3
otherwise, ELR_EL2 is unchanged. -/
def Obligations.ElrEl2AfterEntry : Prop :=
  ∀ (s : State) (l : EL) (p : Word), EntryLegal s l →
    ∃ t, exec (.excEntry l p) s = .next t ∧
      (if l = .el3 ∧ el2Enabled s = true ∧ stateOf s .el2 = .aarch32 then
        low32 t.sys.elrEl2 = low32 s.sys.elrEl2 ∧
          high32 t.sys.elrEl2 = (if Config.elr2Cleared s.draws then 0#32 else high32 s.sys.elrEl2)
      else l ≠ .el2 → t.sys.elrEl2 = s.sys.elrEl2)

/-! ## Exception return -/

/-- R85, with the frame of `ReturnEffects` (R155, a decision of the spec): a legal return is made, and what it
changes. -/
def Obligations.ReturnCompletesWithFrame : Prop :=
  ∀ (s : State) (l : EL) (m : Mode) (p : Word), ReturnLegal s l m →
    ∃ t, exec (.excReturn l .aarch32 (some m) p) s = .next t ∧
      t = { s with
            curState := .aarch32, el := l, mode := m, pc := (low32 p).setWidth 64,
            el0State := if l = .el0 then .aarch32 else s.el0State, secure := t.secure, vreg := t.vreg,
            sveState := t.sveState, sys := { s.sys with fpsr := t.sys.fpsr }, draws := t.draws } ∧
      ((s.cfg.haveSME && s.psSM) = false →
        t.vreg = s.vreg ∧ t.sveState = s.sveState ∧ t.sys.fpsr = s.sys.fpsr)

/-- R85, its refusals (the spec's decision): a return to AArch32 at the current level, or at an implemented level that
does not support AArch32, that is using AArch64, or to which the mode does not belong, is refused. The operand ranges of
R84 and R85: an entry to a level at or above the current one that is not implemented, or to an EL2 that is not enabled,
and a return to AArch32 at a lower level that is not implemented, are refused as such (the name of the refusal and its
place among the tests are the model's choice, notes/assumptions/12.md). -/
def Obligations.IllegalTransfersRefused : Prop :=
  (∀ (s : State) (l : EL) (m : Mode) (p : Word), s.curState = .aarch64 →
    l = s.el ∨ (levelImplemented s.cfg l = true ∧
      (a32Supported s.cfg l = false ∨ (l ≠ .el0 ∧ stateOf s l = .aarch64) ∨ modeBelongs s.cfg m l = false)) →
    exec (.excReturn l .aarch32 (some m) p) s = .refused .illegalStateChange) ∧
  (∀ (s : State) (l : EL) (p : Word), s.el.num ≤ l.num →
    (l = .el2 ∧ el2Enabled s = false) ∨ (l = .el3 ∧ s.cfg.haveEL3 = false) →
    exec (.excEntry l p) s = .refused .levelAbsent) ∧
  (∀ (s : State) (m : Mode) (p : Word), s.curState = .aarch64 → s.el = .el3 → s.cfg.haveEL2 = false →
    exec (.excReturn .el2 .aarch32 (some m) p) s = .refused .levelAbsent)

/-- R94: a return from AArch64 to AArch32 changes no bit of `x`, and each AArch32 register is then the low half of its
cell. -/
def Obligations.AArch32ViewAfterReturn : Prop :=
  ∀ (s : State) (l : EL) (m : Mode) (p : Word), ReturnLegal s l m →
    ∃ t, exec (.excReturn l .aarch32 (some m) p) s = .next t ∧
      (∀ k : Fin 31, readX t k = readX s k) ∧
      ∀ (n : Fin 16) (k : Fin 31), xNum s.cfg m n = .ok k →
        exec (.a32Rd n) t = .next { t with result := some (.bits32 (low32 (readX s k))) }

/-- R96 with R104 (the spec derives it): an entry right after a return, with no AArch32 operation between, draws for each
register of `ZeroableSet` as any entry does: its upper half is zeroed or kept as the free value says
(notes/assumptions/8.md); it keeps every low half and every register outside the set. -/
def Obligations.ReturnThenEntryUpperHalves : Prop :=
  ∀ (s t : State) (l : EL) (m : Mode) (p : Word) (l' : EL) (p' : Word),
    exec (.excReturn l .aarch32 (some m) p) s = .next t → EntryLegal t l' →
    ∃ z u, zeroableSet t l' = some z ∧ exec (.excEntry l' p') t = .next u ∧
      ∀ n : Fin 31,
        low32 (readX u n) = low32 (readX s n) ∧
        (inRanges z n.val = true → readX u n = drawUpper (Config.upperCleared t.draws n.val) (readX s n)) ∧
        (inRanges z n.val = false → readX u n = readX s n)

/-- R86 (the instruction is general knowledge in the spec; how the answer is given is the model's choice,
notes/assumptions/9.md): `ERET` in AArch64 state above EL0 is the exception return with the arguments that
`ReturnEffects` gives for the level's SPSR and ELR; at EL0 (notes/assumptions/35.md), and with an AArch64 target at or
below the level, it is outside the spec. -/
def Obligations.EretIsReturnWithSuppliedArguments : Prop :=
  ∀ s : State, s.curState = .aarch64 →
    (s.el = .el0 → exec .eret s = .refused .outsideSpec) ∧
    (∀ a : ReturnArgs, s.el ≠ .el0 →
      a = returnAnswer s.cfg.returns s.el
        (match s.el with
          | .el0 => 0
          | .el1 => wideValue s.sys.spsrEl1 s.sys.spsrEl1Top
          | .el2 => wideValue s.sys.spsrEl2 s.sys.spsrEl2Top
          | .el3 => wideValue s.sys.spsrEl3 s.sys.spsrEl3Top)
        (match s.el with | .el0 => 0 | .el1 => s.sys.elrEl1 | .el2 => s.sys.elrEl2 | .el3 => s.sys.elrEl3) →
      exec .eret s = exec (.excReturn a.target a.state a.mode a.newPc) s ∧
      (a.state = .aarch64 → a.target.num ≤ s.el.num → exec .eret s = .refused .outsideSpec) ∧
      (∀ m, a.state = .aarch32 → a.mode = some m → ReturnLegal s a.target m →
        ∃ t, exec .eret s = .next t ∧
          t = { s with
                curState := .aarch32, el := a.target, mode := m, pc := (low32 a.newPc).setWidth 64,
                el0State := if a.target = .el0 then .aarch32 else s.el0State, secure := t.secure,
                vreg := t.vreg, sveState := t.sveState, sys := { s.sys with fpsr := t.sys.fpsr },
                draws := t.draws }))

/-- R88, a decision of the spec (what is legal: notes/assumptions/13.md): a legal `A32.SETMODE` changes `el` and
`mode` and nothing else; to a level that is using AArch64 it is refused (T8.10). -/
def Obligations.SetmodeChangesLevelAndMode : Prop :=
  ∀ (s : State) (l : EL) (m : Mode),
    (SetmodeLegal s l m → exec (.a32Setmode l m) s = .next { s with el := l, mode := m }) ∧
    (s.curState = .aarch32 → stateOf s l = .aarch64 → exec (.a32Setmode l m) s = .refused .wrongState)

/-! ## SME state -/

/-- R140, R141 and R142: a change of Execution state keeps the stored PSTATE.SM and PSTATE.ZA; in AArch32 state the
Effective value of PSTATE.SM is 0, and after the entry the stored value is in force again. -/
def Obligations.SmAndZaAcrossStateChange : Prop :=
  (∀ s : State, s.curState = .aarch32 → effectiveSM s = false) ∧
  (∀ (s t : State) (l : EL) (st : ExecState) (m : Option Mode) (p : Word),
    exec (.excReturn l st m p) s = .next t → t.psSM = s.psSM ∧ t.psZA = s.psZA ∧ effectiveSM t = false) ∧
  (∀ (s t : State) (l : EL) (p : Word),
    exec (.excEntry l p) s = .next t →
      t.psSM = s.psSM ∧ t.psZA = s.psZA ∧ effectiveSM t = (s.cfg.haveSME && s.psSM))

/-- What R143 says a change of Execution state does to the SVE registers, the SIMD and floating-point registers among
them, and to FPSR: each register keeps its size, and each of its bits is that of the fixed pattern, repeated every 128
bits (notes/assumptions/23.md). -/
def ResetToFixedValue (s t : State) : Prop :=
  (∀ k : Fin 32, readV t k = s.cfg.smFixedRegBits) ∧
  t.sveState.map List.length = s.sveState.map List.length ∧
  (∀ r ∈ t.sveState, ∀ (i : Nat) (h : i < r.length), r[i] = s.cfg.smFixedRegBits.getLsbD (i % 128)) ∧
  t.sys.fpsr = s.cfg.smFixedFpsr

/-- R143 and R146 (the fixed value is a parameter, a decision of the spec; that it is one pattern of 128 bits, repeated, and
the same at every occurrence: notes/assumptions/23.md and 34.md): with SME and a stored PSTATE.SM of 1, a change of
Execution state in either direction resets the SVE registers and FPSR to the fixed value; otherwise it leaves them. -/
def Obligations.SveResetOnStateChange : Prop :=
  (∀ (s : State) (l : EL) (p : Word), EntryLegal s l →
    ∃ t, exec (.excEntry l p) s = .next t ∧
      if s.cfg.haveSME = true ∧ s.psSM = true then ResetToFixedValue s t
      else t.vreg = s.vreg ∧ t.sveState = s.sveState ∧ t.sys.fpsr = s.sys.fpsr) ∧
  (∀ (s : State) (l : EL) (m : Mode) (p : Word), ReturnLegal s l m →
    ∃ t, exec (.excReturn l .aarch32 (some m) p) s = .next t ∧
      if s.cfg.haveSME = true ∧ s.psSM = true then ResetToFixedValue s t
      else t.vreg = s.vreg ∧ t.sveState = s.sveState ∧ t.sys.fpsr = s.sys.fpsr)

/-- R145 (for PSTATE.ZA = 0 a decision of the spec): no operation changes PSTATE.ZA, ZA storage or ZT0, nor the stored
PSTATE.SM. -/
def Obligations.ZaStateNeverChanges : Prop :=
  ∀ (i : Instr) (s t : State), exec i s = .next t →
    t.psZA = s.psZA ∧ t.zaStorage = s.zaStorage ∧ t.zt0 = s.zt0 ∧ t.psSM = s.psSM

/-! ## General-purpose registers -/

/-- R25: the table of `A32Map`, in the order of the cells, and that it is a bijection. -/
def Obligations.A32MapTable : Prop :=
  [A32Reg.r0, .r1, .r2, .r3, .r4, .r5, .r6, .r7, .r8Usr, .r9Usr, .r10Usr, .r11Usr, .r12Usr, .spUsr, .lrUsr, .spHyp,
    .lrIrq, .spIrq, .lrSvc, .spSvc, .lrAbt, .spAbt, .lrUnd, .spUnd, .r8Fiq, .r9Fiq, .r10Fiq, .r11Fiq, .r12Fiq, .spFiq,
    .lrFiq].map (fun a => (a32Map a).val) = List.range 31 ∧
  Function.Bijective a32Map

/-- R93 with `Bank` at its default, the table of R27 (general knowledge in the spec): the register number an exception
syndrome reports. For every `Bank` within its bounds (notes/assumptions/36.md) it is the number of the cell that the
instruction's register is, R14 of Abort mode is 20, and number 15 and the Monitor bank are refused. -/
def Obligations.SyndromeRegisterNumbers : Prop :=
  (∀ (c : Config) (m : Mode) (n : Fin 16), c.bankRows = [] → m ≠ .mon → n.val ≤ 14 →
    ∃ k : Fin 31, xNum c m n = .ok k ∧
      k.val =
        if n.val ≤ 7 then n.val
        else if n.val ≤ 12 then (if m = .fiq then n.val + 16 else n.val)
        else if n.val = 13 then
          (match m with
           | .usr => 13 | .sys => 13 | .hyp => 15 | .irq => 17 | .svc => 19 | .abt => 21 | .und => 23 | .fiq => 29
           | .mon => 0)
        else
          (match m with
           | .usr => 14 | .sys => 14 | .hyp => 14 | .irq => 16 | .svc => 18 | .abt => 20 | .und => 22 | .fiq => 30
           | .mon => 0)) ∧
  (∀ (c : Config) (m : Mode) (n : Fin 16) (k : Fin 31), xNum c m n = .ok k →
    esrRegNum c m n = .ok (BitVec.ofNat 5 k.val)) ∧
  (∀ c : Config, c.wf = true → esrRegNum c .abt 14 = .ok 0b10100#5) ∧
  (∀ (c : Config) (m : Mode), esrRegNum c m 15 = .error .pcAsGpr) ∧
  (∀ c : Config, esrRegNum c .mon 13 = .error .monitorBank ∧ esrRegNum c .mon 14 = .error .monitorBank)

/-- R90: `A32.RD` gives the low half of the cell; number 15 and the Monitor mode's R13 and R14 are refused. -/
def Obligations.A32ReadGpr : Prop :=
  ∀ (s : State) (n : Fin 16), s.curState = .aarch32 →
    (∀ k : Fin 31, xNum s.cfg s.mode n = .ok k →
      exec (.a32Rd n) s = .next { s with result := some (.bits32 (low32 (readX s k))) }) ∧
    (n = 15 → exec (.a32Rd n) s = .refused .pcAsGpr) ∧
    (s.mode = .mon → n = 13 ∨ n = 14 → exec (.a32Rd n) s = .refused .monitorBank)

/-- R91 (that the upper half stays is a decision of the spec): `A32.WR` writes the low half of the cell and leaves its
upper half and every other cell; number 15 and the Monitor mode's R13 and R14 are refused. -/
def Obligations.A32WriteGpr : Prop :=
  ∀ (s : State) (n : Fin 16) (v : Half), s.curState = .aarch32 →
    (∀ k : Fin 31, xNum s.cfg s.mode n = .ok k →
      ∃ t, exec (.a32Wr n v) s = .next t ∧ t = { s with x := t.x } ∧
        low32 (readX t k) = v ∧ high32 (readX t k) = high32 (readX s k) ∧
        ∀ j : Fin 31, j ≠ k → readX t j = readX s j) ∧
    (n = 15 → exec (.a32Wr n v) s = .refused .pcAsGpr) ∧
    (s.mode = .mon → n = 13 ∨ n = 14 → exec (.a32Wr n v) s = .refused .monitorBank)

/-- The corner case of R91, for every `Bank`: what `A32.WR n` writes in one mode is what `A32.RD n'` gives in another mode
exactly when both modes' `Bank` gives the same name; else that read gives what it gave before. -/
def Obligations.WriteSeenWhereBankAgrees : Prop :=
  ∀ (s : State) (m' : Mode) (n n' : Fin 16) (k k' : Fin 31) (v : Half), s.curState = .aarch32 →
    xNum s.cfg s.mode n = .ok k → xNum s.cfg m' n' = .ok k' →
    ∃ t, exec (.a32Wr n v) s = .next t ∧
      exec (.a32Rd n') { t with mode := m' } =
        .next { t with
          mode := m'
          result := some (.bits32
            (if bank s.cfg s.mode n = bank s.cfg m' n' then v else low32 (readX s k'))) }

/-- R92, which the spec derives: `A64.RD` and `A64.WR` read and write all 64 bits of the cell, at any Exception level.
-/
def Obligations.A64ReadWriteGpr : Prop :=
  ∀ (s : State) (n : Fin 31) (v : Word), s.curState = .aarch64 →
    exec (.a64Rd n) s = .next { s with result := some (.bits64 (readX s n)) } ∧
    ∃ t, exec (.a64Wr n v) s = .next t ∧ t = { s with x := t.x } ∧ readX t n = v ∧
      ∀ j : Fin 31, j ≠ n → readX t j = readX s j

/-- R26: in AArch32 state the upper halves are neither read nor written: an operation other than an exception entry
that runs in one state runs in every state with other upper halves, does the same there, and keeps them. Two clauses of
"the same" are the model's choice: that a read of a RES0 register draws the same value in two runs with equal draw
counters (notes/assumptions/8.md), and that an open `EL2Enabled`, which decides where `A32.SETMODE` is legal, does not see
the upper halves (notes/assumptions/10.md). -/
def Obligations.UpperHalvesIgnoredInAArch32 : Prop :=
  ∀ (i : Instr) (s t : State) (x' : Vector Word 31), s.curState = .aarch32 → (∀ l p, i ≠ .excEntry l p) →
    (∀ k : Fin 31, low32 (readX { s with x := x' } k) = low32 (readX s k)) → exec i s = .next t →
    ∃ t', exec i { s with x := x' } = .next t' ∧ t' = { t with x := t'.x } ∧
      ∀ k : Fin 31, low32 (readX t' k) = low32 (readX t k) ∧ high32 (readX t k) = high32 (readX s k) ∧
        high32 (readX t' k) = high32 (readX { s with x := x' } k)

/-! ## SIMD and floating-point registers -/

/-- R110: AArch32 Q`n` is the whole of `vreg[n]`. -/
def Obligations.A32ReadWriteQ : Prop :=
  ∀ (s : State) (n : Fin 16) (k : Fin 32) (v : Quad), s.curState = .aarch32 → k.val = n.val →
    exec (.a32Qrd n) s = .next { s with result := some (.bits128 (readV s k)) } ∧
    ∃ t, exec (.a32Qwr n v) s = .next t ∧ t = { s with vreg := t.vreg } ∧ readV t k = v ∧
      ∀ j : Fin 32, j ≠ k → readV t j = readV s j

/-- R111 (the positions are general knowledge in the spec): AArch32 D`m` is half `m mod 2` of `vreg[m div 2]`; a write
leaves the other half. -/
def Obligations.A32ReadWriteD : Prop :=
  ∀ (s : State) (m k : Fin 32) (v : Word), s.curState = .aarch32 → k.val = m.val / 2 →
    exec (.a32Drd m) s =
      .next { s with result := some (.bits64 ((readV s k).extractLsb' (64 * (m.val % 2)) 64)) } ∧
    ∃ t, exec (.a32Dwr m v) s = .next t ∧ t = { s with vreg := t.vreg } ∧
      (∀ b : Nat, b < 128 → (readV t k).getLsbD b =
        if 64 * (m.val % 2) ≤ b ∧ b < 64 * (m.val % 2) + 64 then v.getLsbD (b - 64 * (m.val % 2))
        else (readV s k).getLsbD b) ∧
      ∀ j : Fin 32, j ≠ k → readV t j = readV s j

/-- R112 (the positions are general knowledge in the spec): AArch32 S`m` is quarter `m mod 4` of `vreg[m div 4]`; a
write leaves the other quarters. -/
def Obligations.A32ReadWriteS : Prop :=
  ∀ (s : State) (m k : Fin 32) (v : Half), s.curState = .aarch32 → k.val = m.val / 4 →
    exec (.a32Srd m) s =
      .next { s with result := some (.bits32 ((readV s k).extractLsb' (32 * (m.val % 4)) 32)) } ∧
    ∃ t, exec (.a32Swr m v) s = .next t ∧ t = { s with vreg := t.vreg } ∧
      (∀ b : Nat, b < 128 → (readV t k).getLsbD b =
        if 32 * (m.val % 4) ≤ b ∧ b < 32 * (m.val % 4) + 32 then v.getLsbD (b - 32 * (m.val % 4))
        else (readV s k).getLsbD b) ∧
      ∀ j : Fin 32, j ≠ k → readV t j = readV s j

/-- R113: the AArch64 V, D and S registers. -/
def Obligations.A64ReadWriteV : Prop :=
  ∀ (s : State) (n : Fin 32) (v : Quad), s.curState = .aarch64 →
    exec (.a64Vrd n) s = .next { s with result := some (.bits128 (readV s n)) } ∧
    exec (.a64Drd n) s = .next { s with result := some (.bits64 ((readV s n).extractLsb' 0 64)) } ∧
    exec (.a64Srd n) s = .next { s with result := some (.bits32 ((readV s n).extractLsb' 0 32)) } ∧
    ∃ t, exec (.a64Vwr n v) s = .next t ∧ t = { s with vreg := t.vreg } ∧ readV t n = v ∧
      ∀ j : Fin 32, j ≠ n → readV t j = readV s j

/-- R116 (the positions are general knowledge in the spec): what an AArch32 read of D`m` or S`m` gives is the part of
what AArch64 code reads from the V register that the unpacking formulae name. -/
def Obligations.UnpackingFormulae : Prop :=
  ∀ (s s' t t' : State) (m k : Fin 32) (q : Quad), s.curState = .aarch64 → s'.curState = .aarch32 → s'.vreg = s.vreg →
    exec (.a64Vrd k) s = .next t → t.result = some (.bits128 q) →
    (k.val = m.val / 2 → exec (.a32Drd m) s' = .next t' →
      t'.result = some (.bits64 (q.extractLsb' (64 * (m.val % 2)) 64))) ∧
    (k.val = m.val / 4 → exec (.a32Srd m) s' = .next t' →
      t'.result = some (.bits32 (q.extractLsb' (32 * (m.val % 4)) 32))) ∧
    (∀ n : Fin 16, k.val = n.val → exec (.a32Qrd n) s' = .next t' → t'.result = some (.bits128 q))

/-- R117: V16 to V31 are not accessible from AArch32 state. An operation that stays in AArch32 state, run in a state with
other contents of V16 to V31, does the same there, and neither run changes them; and across a stretch of AArch32
execution, the return that begins it and the entry that ends it included, they keep their value, but for the reset of
R143 at the change of state that begins or ends it. Two clauses of "the same" are the model's choice: that a read of a RES0
register draws the same value in two runs with equal draw counters (notes/assumptions/8.md), and that an open
`EL2Enabled`, which decides where `A32.SETMODE` is legal, does not see V16 to V31 (notes/assumptions/10.md). -/
def Obligations.V16ToV31UntouchedInAArch32 : Prop :=
  (∀ (i : Instr) (s t : State) (v' : Vector Quad 32), s.curState = .aarch32 → (∀ l p, i ≠ .excEntry l p) →
    (∀ k : Fin 32, k.val < 16 → readV { s with vreg := v' } k = readV s k) → exec i s = .next t →
    ∃ t', exec i { s with vreg := v' } = .next t' ∧ t' = { t with vreg := t'.vreg } ∧
      (∀ k : Fin 32, k.val < 16 → readV t' k = readV t k) ∧
      ∀ k : Fin 32, 16 ≤ k.val → readV t k = readV s k ∧ readV t' k = readV { s with vreg := v' } k) ∧
  (∀ (i : Instr) (s t : State), s.curState = .aarch32 ∨ isTransfer i = true → exec i s = .next t →
    (s.curState = .aarch32 ∧ t.curState = .aarch32) ∨ (s.cfg.haveSME && s.psSM) = false →
    ∀ k : Fin 32, 16 ≤ k.val → readV t k = readV s k)

/-! ## System registers -/

/-- R135: reads of the AArch32 System registers: the three mapped ones; the four of R44 where EL1 supports AArch32;
and a register that the user's part of `SysMap` places in either half of an AArch64 register or in a cell of its own
(notes/assumptions/17.md). -/
def Obligations.A32ReadSysreg : Prop :=
  ∀ s : State, s.curState = .aarch32 →
    exec (.a32Sysrd .spsrSvc) s = .next { s with result := some (.bits32 (low32 s.sys.spsrEl1)) } ∧
    exec (.a32Sysrd .spsrHyp) s = .next { s with result := some (.bits32 (low32 s.sys.spsrEl2)) } ∧
    exec (.a32Sysrd .elrHyp) s = .next { s with result := some (.bits32 (low32 s.sys.elrEl2)) } ∧
    (s.cfg.a32El1 = true →
      exec (.a32Sysrd .spsrAbt) s = .next { s with result := some (.bits32 s.sys.spsrAbt) } ∧
      exec (.a32Sysrd .spsrUnd) s = .next { s with result := some (.bits32 s.sys.spsrUnd) } ∧
      exec (.a32Sysrd .spsrIrq) s = .next { s with result := some (.bits32 s.sys.spsrIrq) } ∧
      exec (.a32Sysrd .spsrFiq) s = .next { s with result := some (.bits32 s.sys.spsrFiq) }) ∧
    (∀ (a : A32Sys) (r : A64Sys) (w : Word), readCell64 s r = some w →
      (a32SysTarget s a = some (.low r) →
        exec (.a32Sysrd a) s = .next { s with result := some (.bits32 (low32 w)) }) ∧
      (a32SysTarget s a = some (.high r) →
        exec (.a32Sysrd a) s = .next { s with result := some (.bits32 (high32 w)) })) ∧
    (∀ (a : A32Sys) (c : A32Cell), a32SysTarget s a = some (.own c) →
      (c ∈ [A32Cell.spsrAbt, .spsrUnd, .spsrIrq, .spsrFiq] → s.cfg.a32El1 = true) →
      exec (.a32Sysrd a) s = .next { s with result := some (.bits32 (readCell32 s.sys c)) })

/-- R122: a write of an AArch32 System register that is mapped changes the mapped half of the AArch64 register and
nothing else, every other bit and register included. (The upper half of an SPSR can be mapped only where the SPSR has
all of it.) -/
def Obligations.A32SysregWriteAffectsOnlyMappedPart : Prop :=
  ∀ (s : State) (a : A32Sys) (v : Half) (r : A64Sys) (w : Word) (hi : Bool), Inv s → s.curState = .aarch32 →
    a32SysTarget s a = some (if hi then .high r else .low r) → readCell64 s r = some w →
    (hi = true → r = .spsrEl1 ∨ r = .spsrEl2 → 64 ≤ s.cfg.spsrWidth) →
    ∃ t w', exec (.a32Syswr a v) s = .next t ∧ t = { s with sys := t.sys } ∧ readCell64 t r = some w' ∧
      (if hi then high32 w' = v ∧ low32 w' = low32 w else low32 w' = v ∧ high32 w' = high32 w) ∧
      (∀ r' : A64Sys, r' ≠ r → readCell64 t r' = readCell64 s r') ∧
      (∀ r' : A64Sys, readTop t.sys r' = readTop s.sys r') ∧
      (∀ c : A32Cell, readCell32 t.sys c = readCell32 s.sys c) ∧
      t.sys.spsrEl3 = s.sys.spsrEl3 ∧ t.sys.spsrEl3Top = s.sys.spsrEl3Top ∧ t.sys.elrEl3 = s.sys.elrEl3

/-- R123: an operation in AArch32 state, other than the entry that leaves it, changes no half of an AArch64 System
register that no AArch32 System register is mapped to, and no bit of an SPSR above bit 63. -/
def Obligations.UnmappedSysregBitsKept : Prop :=
  ∀ (i : Instr) (s t : State) (r : A64Sys) (w : Word), Inv s → s.curState = .aarch32 → (∀ l p, i ≠ .excEntry l p) →
    exec i s = .next t → readCell64 s r = some w →
    ∃ w', readCell64 t r = some w' ∧ readTop t.sys r = readTop s.sys r ∧
      ((∀ a : A32Sys, a32SysTarget s a ≠ some (.high r)) → high32 w' = high32 w) ∧
      ((∀ a : A32Sys, a32SysTarget s a ≠ some (.low r)) → low32 w' = low32 w)

/-- R135: writes of the three mapped registers, in their cells; of the four of R44 where EL1 supports AArch32; and of
a register that the user's part of `SysMap` gives a cell of its own (notes/assumptions/17.md). -/
def Obligations.A32WriteSysreg : Prop :=
  ∀ (s : State) (v : Half), Inv s → s.curState = .aarch32 →
    exec (.a32Syswr .spsrSvc v) s = .next { s with sys := { s.sys with spsrEl1 := setLow32 s.sys.spsrEl1 v } } ∧
    exec (.a32Syswr .spsrHyp v) s = .next { s with sys := { s.sys with spsrEl2 := setLow32 s.sys.spsrEl2 v } } ∧
    exec (.a32Syswr .elrHyp v) s = .next { s with sys := { s.sys with elrEl2 := setLow32 s.sys.elrEl2 v } } ∧
    (s.cfg.a32El1 = true →
      exec (.a32Syswr .spsrAbt v) s = .next { s with sys := { s.sys with spsrAbt := v } } ∧
      exec (.a32Syswr .spsrUnd v) s = .next { s with sys := { s.sys with spsrUnd := v } } ∧
      exec (.a32Syswr .spsrIrq v) s = .next { s with sys := { s.sys with spsrIrq := v } } ∧
      exec (.a32Syswr .spsrFiq v) s = .next { s with sys := { s.sys with spsrFiq := v } }) ∧
    ∀ (a : A32Sys) (c : A32Cell), a32SysTarget s a = some (.own c) →
      (c ∈ [A32Cell.spsrAbt, .spsrUnd, .spsrIrq, .spsrFiq] → s.cfg.a32El1 = true) →
      ∃ t, exec (.a32Syswr a v) s = .next t ∧ t = { s with sys := t.sys } ∧ readCell32 t.sys c = v ∧
        (∀ c' : A32Cell, c' ≠ c → readCell32 t.sys c' = readCell32 s.sys c') ∧
        (∀ r : A64Sys, readCell64 t r = readCell64 s r ∧ readTop t.sys r = readTop s.sys r) ∧
        t.sys.spsrEl3 = s.sys.spsrEl3 ∧ t.sys.spsrEl3Top = s.sys.spsrEl3Top ∧ t.sys.elrEl3 = s.sys.elrEl3

/-- R135: a read and a write of an AArch64 System register as a whole. An SPSR has `SPSRWidth` bits and keeps that many
(notes/assumptions/20.md). That SCR_EL3, HCR_EL2, ESR_ELx and FPSR have 64 bits and hold all of them is presumed
(notes/assumptions/4.md), and for a register the user supplied it is the model's choice (notes/assumptions/19.md). A name
that `SysMap` gives an AArch32 cell of its own is left to the statement after this one. -/
def Obligations.A64ReadWriteSysreg : Prop :=
  ∀ (s : State) (r : A64Sys) (w : Word) (v : Nat), s.curState = .aarch64 → readCell64 s r = some w →
    a64OwnCell s r = none →
    (exec (.a64Sysrd r) s = .next { s with result := some (wholeValue w (readTop s.sys r)) }) ∧
    ∃ t, exec (.a64Syswr r v) s = .next t ∧ t = { s with sys := t.sys } ∧
      (if r = .spsrEl1 ∨ r = .spsrEl2 then
        readCell64 t r = some (((BitVec.ofNat 64 v).setWidth s.cfg.spsrWidth).setWidth 64) ∧
          (readTop t.sys r).length = s.cfg.spsrWidth - 64 ∧
          ∀ (i : Nat) (h : i < (readTop t.sys r).length), (readTop t.sys r)[i] = v.testBit (64 + i)
      else readCell64 t r = some (BitVec.ofNat 64 v) ∧ readTop t.sys r = []) ∧
      (∀ r' : A64Sys, r' ≠ r → readCell64 t r' = readCell64 s r' ∧ readTop t.sys r' = readTop s.sys r') ∧
      (∀ c : A32Cell, readCell32 t.sys c = readCell32 s.sys c) ∧
      t.sys.spsrEl3 = s.sys.spsrEl3 ∧ t.sys.spsrEl3Top = s.sys.spsrEl3Top ∧ t.sys.elrEl3 = s.sys.elrEl3

/-- R132 and R135 for the four registers of R44, which are read and written in AArch64 state above EL1 and refused at EL1
and EL0; and R129 for a register that the user's part of `SysMap` gives a cell of its own, which is read and written
under its name from a level above the one it belongs to, so that every such register is reached. A RES0 register is
left to the next statement. Of the operand the low 32 bits are written (notes/assumptions/21.md); the names of the
accesses and the levels the registers belong to are the model's (notes/assumptions/37.md). -/
def Obligations.BankedSpsrsFromAbove : Prop :=
  (∀ (s : State) (r : A64Sys) (c : A32Cell) (v : Nat), s.curState = .aarch64 →
    (r, c) ∈ [(A64Sys.spsrAbt, A32Cell.spsrAbt), (.spsrUnd, .spsrUnd), (.spsrIrq, .spsrIrq), (.spsrFiq, .spsrFiq)] ∨
      (∃ nm, r = .other nm ∧ sysMapExtTarget s (a32SysNamed nm) = some (.own c)) →
    ((cellLevel c).num < s.el.num →
      (c ∈ [A32Cell.spsrAbt, .spsrUnd, .spsrIrq, .spsrFiq] → s.cfg.a32El1 = true) →
      exec (.a64Sysrd r) s = .next { s with result := some (.bits32 (readCell32 s.sys c)) } ∧
      ∃ t, exec (.a64Syswr r v) s = .next t ∧ t = { s with sys := t.sys } ∧
        readCell32 t.sys c = BitVec.ofNat 32 v ∧
        (∀ c' : A32Cell, c' ≠ c → readCell32 t.sys c' = readCell32 s.sys c') ∧
        (∀ r' : A64Sys, readCell64 t r' = readCell64 s r' ∧ readTop t.sys r' = readTop s.sys r') ∧
        t.sys.spsrEl3 = s.sys.spsrEl3 ∧ t.sys.spsrEl3Top = s.sys.spsrEl3Top ∧ t.sys.elrEl3 = s.sys.elrEl3) ∧
    (s.el.num ≤ (cellLevel c).num →
      exec (.a64Sysrd r) s = .refused .unmappedSysreg ∧ exec (.a64Syswr r v) s = .refused .unmappedSysreg)) ∧
  (cellLevel .spsrAbt = .el1 ∧ cellLevel .spsrUnd = .el1 ∧ cellLevel .spsrIrq = .el1 ∧ cellLevel .spsrFiq = .el1) ∧
  (∀ (s : State) (a : A32Sys) (c : A32Cell), a.wellFormed = true → a32SysTarget s a = some (.own c) →
    ∃ r, a64OwnCell s r = some c)

/-- R133: where EL1 does not support AArch32, a read of one of the four registers, from AArch64 state above EL1 or
from AArch32 state, gives some 32-bit value, zero where so configured, and changes nothing but the result and the draw
counter; a write changes nothing at all, where the rule has it that no other rule depends on what it changes
(notes/assumptions/22.md). -/
def Obligations.BankedSpsrsRes0 : Prop :=
  ∀ (s : State) (r : A64Sys) (a : A32Sys) (v : Nat) (v' : Half),
    (r, a) ∈ [(A64Sys.spsrAbt, A32Sys.spsrAbt), (.spsrUnd, .spsrUnd), (.spsrIrq, .spsrIrq), (.spsrFiq, .spsrFiq)] →
    s.cfg.a32El1 = false →
    (s.curState = .aarch64 → s.el = .el2 ∨ s.el = .el3 →
      (∃ t w, exec (.a64Sysrd r) s = .next t ∧
        t = { s with result := some (.bits32 w), draws := t.draws } ∧
        w = (if s.cfg.res0ReadsZero then 0#32 else Config.res0Read s.draws)) ∧
      exec (.a64Syswr r v) s = .next s) ∧
    (s.curState = .aarch32 →
      (∃ t w, exec (.a32Sysrd a) s = .next t ∧
        t = { s with result := some (.bits32 w), draws := t.draws } ∧
        w = (if s.cfg.res0ReadsZero then 0#32 else Config.res0Read s.draws)) ∧
      exec (.a32Syswr a v') s = .next s)

/-- R131: only `A32.SYSWR` in AArch32 state and `A64.SYSWR` in AArch64 state above EL1 change SPSR_abt, SPSR_und,
SPSR_irq or SPSR_fiq. -/
def Obligations.BankedSpsrsRetained : Prop :=
  ∀ (i : Instr) (s t : State), exec i s = .next t →
    (t.sys.spsrAbt = s.sys.spsrAbt ∧ t.sys.spsrUnd = s.sys.spsrUnd ∧ t.sys.spsrIrq = s.sys.spsrIrq ∧
      t.sys.spsrFiq = s.sys.spsrFiq) ∨
    (∃ a v, i = .a32Syswr a v ∧ s.curState = .aarch32) ∨
    (∃ r v, i = .a64Syswr r v ∧ s.curState = .aarch64 ∧ 1 < s.el.num)

/-- R134: with the spec's own `SysMap`, SP_EL0, SP_EL1, SP_EL2 and ELR_EL1 keep all their bits across a return to
AArch32, any operation in AArch32 state and the entry back; only an entry to EL1 lets `EntryEffects` write ELR_EL1. -/
def Obligations.StackPointersRetained : Prop :=
  ∀ (i : Instr) (s t : State), s.cfg.sysMapExt = [] → s.curState = .aarch32 ∨ isTransfer i = true →
    exec i s = .next t →
    t.sys.spEl0 = s.sys.spEl0 ∧ t.sys.spEl1 = s.sys.spEl1 ∧ t.sys.spEl2 = s.sys.spEl2 ∧
      ((∀ p, i ≠ .excEntry .el1 p) → t.sys.elrEl1 = s.sys.elrEl1)

/-- R135: with the spec's own `SysMap` and no register supplied, any other AArch32 System register, and an AArch64
name without a cell, is refused; and so are SCR_EL3 where there is no EL3 (R47) and HCR_EL2 where there is no EL2 (R48),
the refusal being the model's (notes/assumptions/16.md). -/
def Obligations.UnmappedSysregsRefused : Prop :=
  (∀ (s : State) (a : A32Sys) (v : Half), s.cfg.sysMapExt = [] → s.curState = .aarch32 →
    a ∉ [A32Sys.spsrSvc, .spsrHyp, .elrHyp, .spsrAbt, .spsrUnd, .spsrIrq, .spsrFiq] →
    exec (.a32Sysrd a) s = .refused .unmappedSysreg ∧ exec (.a32Syswr a v) s = .refused .unmappedSysreg) ∧
  (∀ (s : State) (nm : Name) (v : Nat), s.cfg.sysMapExt = [] → s.sys.ext = [] → s.curState = .aarch64 →
    exec (.a64Sysrd (.other nm)) s = .refused .unmappedSysreg ∧
    exec (.a64Syswr (.other nm) v) s = .refused .unmappedSysreg) ∧
  (∀ (s : State) (r : A64Sys) (v : Nat), s.curState = .aarch64 →
    (r = .scrEl3 ∧ s.cfg.haveEL3 = false) ∨ (r = .hcrEl2 ∧ s.cfg.haveEL2 = false) →
    exec (.a64Sysrd r) s = .refused .unmappedSysreg ∧ exec (.a64Syswr r v) s = .refused .unmappedSysreg)

/-- R176, a decision of the spec: a write of SCR_EL3 or HCR_EL2 takes effect at once: the next evaluation of
`state_of` sees the written bits. (An open `EL2Enabled` may see the write too, notes/assumptions/10.md.) -/
def Obligations.ControlWriteTakesEffectAtOnce : Prop :=
  ∀ (s : State) (v : Nat), s.curState = .aarch64 → s.cfg.haveEL3 = true → s.cfg.topState = .aarch64 →
    (∃ t, exec (.a64Syswr .scrEl3 v) s = .next t ∧
      stateOf t .el2 = (if v.testBit s.cfg.scrRwBit && s.cfg.scrRwBit < 64 then .aarch64 else .aarch32)) ∧
    (s.cfg.haveEL2 = true → stateOf s .el2 = .aarch64 →
      ∃ t, exec (.a64Syswr .hcrEl2 v) s = .next t ∧
        (s.cfg.el2Rule ≠ .anyRule → el2Enabled t = el2Enabled s) ∧
        (el2Enabled t = true →
          stateOf t .el1 = (if v.testBit s.cfg.hcrRwBit && s.cfg.hcrRwBit < 64 then .aarch64 else .aarch32)))

/-- Banking by Security state, in the `SysMap` entries a user supplies (notes/assumptions/17.md and 18.md). R127: with EL3
not using AArch32, an AArch32 System register is the same one whatever the Security state is, and the parameter
`BankMap` decides nothing. R128: with EL3 using AArch32, in either Security state, HIFAR is the Secure IFAR and HDFAR is
the Secure DFAR. R125: with EL3 using AArch32, a register banked in two entries is the Secure one in Secure state and
the Non-secure one in Non-secure state. -/
def Obligations.BankingBySecurityState : Prop :=
  (∀ (s : State) (a : A32Sys) (b : Bool) (l : List A32Sys), el3UsesA32 s = false →
    a32SysTarget { s with secure := b, cfg := { s.cfg with bankSecure := l } } a = a32SysTarget s a) ∧
  (∀ s : State, el3UsesA32 s = true →
    a32SysTarget s .hifar = a32SysTarget { s with secure := true } .ifar ∧
    a32SysTarget s .hdfar = a32SysTarget { s with secure := true } .dfar) ∧
  (∀ (s : State) (a : A32Sys) (gS gN : SysTarget), el3UsesA32 s = true →
    a ∉ [A32Sys.spsrSvc, .spsrHyp, .elrHyp, .spsrAbt, .spsrUnd, .spsrIrq, .spsrFiq, .hifar, .hdfar] →
    s.cfg.sysMapExt = [{ name := a, bank := some .secure, target := gS },
      { name := a, bank := some .nonSecure, target := gN }] →
    a32SysTarget s a = some (if s.secure then gS else gN))
end

