-- ==== Sys2Proof/Laws/Bits.lean ====
section
/-! SUPPORT. The halves of a word, the fields of a SIMD and floating-point cell, and the bits an SPSR holds. -/

namespace Sys2Proof.Machine

theorem getLsbD_low32 (w : Word) (i : Nat) : (low32 w).getLsbD i = (decide (i < 32) && w.getLsbD i) := by
  simp [low32]

theorem getLsbD_high32 (w : Word) (i : Nat) : (high32 w).getLsbD i = (decide (i < 32) && w.getLsbD (32 + i)) := by
  simp [high32]

theorem getLsbD_setLow32 (w : Word) (v : Half) (i : Nat) :
    (setLow32 w v).getLsbD i = if i < 32 then v.getLsbD i else (high32 w).getLsbD (i - 32) := by
  refine (BitVec.getLsbD_append (x := high32 w) (y := v)).trans ?_
  split <;> rfl

theorem getLsbD_setHigh32 (w : Word) (v : Half) (i : Nat) :
    (setHigh32 w v).getLsbD i = if i < 32 then (low32 w).getLsbD i else v.getLsbD (i - 32) := by
  refine (BitVec.getLsbD_append (x := v) (y := low32 w)).trans ?_
  split <;> rfl

@[simp] theorem low32_setLow32 (w : Word) (v : Half) : low32 (setLow32 w v) = v := by
  apply BitVec.eq_of_getLsbD_eq
  intro i hi
  rw [getLsbD_low32, getLsbD_setLow32]; simp [hi]

@[simp] theorem high32_setLow32 (w : Word) (v : Half) : high32 (setLow32 w v) = high32 w := by
  apply BitVec.eq_of_getLsbD_eq
  intro i hi
  rw [getLsbD_high32, getLsbD_setLow32]; simp [hi]

@[simp] theorem low32_setHigh32 (w : Word) (v : Half) : low32 (setHigh32 w v) = low32 w := by
  apply BitVec.eq_of_getLsbD_eq
  intro i hi
  rw [getLsbD_low32, getLsbD_setHigh32]; simp [hi]

@[simp] theorem high32_setHigh32 (w : Word) (v : Half) : high32 (setHigh32 w v) = v := by
  apply BitVec.eq_of_getLsbD_eq
  intro i hi
  rw [getLsbD_high32, getLsbD_setHigh32]; simp [hi]

/-- Two words with equal halves are equal. -/
theorem word_ext {a b : Word} (hl : low32 a = low32 b) (hh : high32 a = high32 b) : a = b := by
  ext i hi
  by_cases h : i < 32
  · have := congrArg (fun z : Half => z.getLsbD i) hl
    simpa [low32, h, BitVec.getLsbD_eq_getElem hi] using this
  · have := congrArg (fun z : Half => z.getLsbD (i - 32)) hh
    have e : 32 + (i - 32) = i := by omega
    have l : i - 32 < 32 := by omega
    simpa [high32, e, l, BitVec.getLsbD_eq_getElem hi] using this

/-- Words with equal low halves have equal masked halves. -/
theorem maskLow_congr {a b : Word} (h : low32 a = low32 b) : a &&& 0xFFFFFFFF#64 = b &&& 0xFFFFFFFF#64 := by
  apply BitVec.eq_of_getLsbD_eq
  intro i hi
  have e := congrArg (fun z : Half => z.getLsbD i) h
  simp only [getLsbD_low32] at e
  have hm : (0xFFFFFFFF#64).getLsbD i = decide (i < 32) := by
    have : ∀ j : Fin 64, (0xFFFFFFFF#64).getLsbD j.val = decide (j.val < 32) := by decide
    exact this ⟨i, hi⟩
  rw [BitVec.getLsbD_and, BitVec.getLsbD_and, hm, Bool.and_comm, e, Bool.and_comm]

@[simp] theorem low32_drawUpper (c : Bool) (w : Word) : low32 (drawUpper c w) = low32 w := by
  cases c <;> simp [drawUpper]

/-- A drawn upper half is the one before or zero (R95), whatever was drawn. -/
theorem high32_drawUpper (c : Bool) (w : Word) : high32 (drawUpper c w) = high32 w ∨ high32 (drawUpper c w) = 0 := by
  cases c <;> simp [drawUpper]

/-- A drawn word is the one before or the one before with its upper half zero. -/
theorem drawUpper_cases (c : Bool) (w : Word) : drawUpper c w = w ∨ drawUpper c w = setHigh32 w 0 := by
  cases c <;> simp [drawUpper]

/-- A written field, bit by bit: the value's bits inside the field, the cell's outside it. -/
theorem getLsbD_setQuadField {n : Nat} (q : Quad) (lo : Nat) (v : BitVec n) (b : Nat)
    (hb : b < 128) :
    (setQuadField q lo v).getLsbD b = if lo ≤ b ∧ b < lo + n then v.getLsbD (b - lo) else q.getLsbD b := by
  by_cases h1 : lo ≤ b
  · by_cases h2 : b < lo + n
    · have : b - lo < n := by omega
      simp [setQuadField, h1, h2, hb, this, Nat.not_lt.mpr h1]
    · have : ¬ b - lo < n := by omega
      simp [setQuadField, h1, h2, hb, this, Nat.not_lt.mpr h1, BitVec.getLsbD_of_ge v (b - lo) (by omega)]
  · have : b < lo := by omega
    simp [setQuadField, h1, hb, this]

/-- A written field reads back. -/
theorem quadField_setQuadField {n : Nat} (q : Quad) (lo : Nat) (v : BitVec n) (hn : lo + n ≤ 128) :
    quadField (setQuadField q lo v) lo n = v := by
  ext i hi
  have h := getLsbD_setQuadField q lo v (lo + i) (by omega)
  rw [quadField, ← BitVec.getLsbD_eq_getElem hi, BitVec.getLsbD_extractLsb', h]
  simp [hi]

theorem getLsbD_spsrTrunc (c : Config) (v : Word) (i : Nat) :
    (spsrTrunc c v).getLsbD i = (decide (i < c.spsrWidth) && v.getLsbD i) := by
  by_cases h : i < 64
  · simp [spsrTrunc, h]
  · simp [spsrTrunc, h, BitVec.getLsbD_of_ge v i (by omega)]

@[simp] theorem spsrTrunc_idem (c : Config) (v : Word) : spsrTrunc c (spsrTrunc c v) = spsrTrunc c v := by
  apply BitVec.eq_of_getLsbD_eq
  intro i _
  simp only [getLsbD_spsrTrunc]
  cases decide (i < c.spsrWidth) <;> simp

/-- Writing the low half of an SPSR keeps it within its width (R41), since that is at least 32. -/
theorem spsrTrunc_setLow32 (c : Config) (w : Word) (v : Half) (hw : spsrTrunc c w = w) (h32 : 32 ≤ c.spsrWidth) :
    spsrTrunc c (setLow32 w v) = setLow32 w v := by
  apply BitVec.eq_of_getLsbD_eq
  intro i hi
  rw [getLsbD_spsrTrunc]
  by_cases h : i < c.spsrWidth
  · simp [h]
  · have : ¬ i < 32 := by omega
    have hb : w.getLsbD i = false := by rw [← hw, getLsbD_spsrTrunc]; simp [h]
    have e : 32 + (i - 32) = i := by omega
    simp [h, getLsbD_setLow32, getLsbD_high32, this, hb, e]

end Sys2Proof.Machine
end

