-- ==== Sys2Proof/Laws/Decode.lean ====
section
/-! SUPPORT. The lemmas of the trace notation: numbers and values read back, tokens split where they were joined, and
names stand for what they were written for. -/

namespace Sys2Proof

/-! ## Numbers and values -/

theorem hexDigit_hexChar : ∀ d : Fin 16, hexDigit (hexChar d.val) = some d.val := by decide

theorem hexChar_ne_underscore : ∀ d : Fin 16, hexChar d.val ≠ '_' := by decide

theorem hexChar_isNameChar : ∀ d : Fin 16, isNameChar (hexChar d.val) = true := by decide

/-- Reading on past the digits of `v`: they add `v` below what was read. -/
theorem hexFold_hexDigits (k v acc : Nat) (rest : List Char) :
    hexFold acc (hexDigits k v ++ rest) = hexFold (16 ^ k * acc + v % 16 ^ k) rest := by
  induction k generalizing v rest with
  | zero => simp [hexDigits, Nat.mod_one]
  | succ k ih =>
    have hd : v % 16 < 16 := Nat.mod_lt _ (by decide)
    have h1 := hexDigit_hexChar ⟨v % 16, hd⟩
    have h2 := hexChar_ne_underscore ⟨v % 16, hd⟩
    have e : v % 16 ^ (k + 1) = 16 * (v / 16 % 16 ^ k) + v % 16 := by
      rw [Nat.pow_succ', Nat.mod_mul]; omega
    simp only [hexDigits, List.append_assoc, List.cons_append, List.nil_append, ih, hexFold]
    rw [if_neg h2]
    simp only at h1
    rw [h1]
    simp only
    congr 1
    rw [e, Nat.pow_succ]
    ring

/-- The digits are `k` in number. -/
theorem length_hexDigits (k v : Nat) : (hexDigits k v).length = k := by
  induction k generalizing v with
  | zero => rfl
  | succ k ih => simp [hexDigits, ih]

/-- Every digit is a digit. -/
theorem hexDigits_all (p : Char → Bool) (hp : ∀ d : Fin 16, p (hexChar d.val) = true) (k v : Nat) :
    (hexDigits k v).all p = true := by
  induction k generalizing v with
  | zero => rfl
  | succ k ih =>
    have := hp ⟨v % 16, Nat.mod_lt _ (by decide)⟩
    simp only at this
    simp only [hexDigits, List.all_append, ih, List.all_cons, this, List.all_nil, Bool.and_self]

/-- A value's token reads back. -/
theorem parseHex_hexToken (k v : Nat) (hk : 0 < k) (hv : v < 16 ^ k) : parseHex (hexToken k v) = some v := by
  have hl := length_hexDigits k v
  have ha := hexDigits_all (fun c => (hexDigit c).isSome)
    (fun d => by simp [hexDigit_hexChar d]) k v
  have hf := hexFold_hexDigits k v 0 []
  cases hds : hexDigits k v with
  | nil => rw [hds] at hl; simp at hl; omega
  | cons c cs =>
    rw [hds] at ha hf
    simp only [List.all_cons, Bool.and_eq_true] at ha
    simp only [hexToken, hds, parseHex, ha.1, if_true]
    simpa [hexFold, Nat.mod_eq_of_lt hv] using hf

/-- A value operand of `4 * k` bits reads back. -/
theorem valueOperand_hexToken (k w : Nat) (hk : 0 < k) (hw : w = 4 * k) (v : BitVec w) :
    valueOperand w (hexToken k v.toNat) = .ok v := by
  have hv : v.toNat < 16 ^ k := by
    subst hw
    have := v.isLt
    rwa [Nat.pow_mul] at this
  simp [valueOperand, parseHex_hexToken k _ hk hv, v.isLt]

/-- A value fits in the digits its token has. -/
theorem lt_wideDigits (v : Nat) : v < 16 ^ max 16 (v.log2 / 4 + 1) := by
  have h1 : v < 2 ^ (v.log2 + 1) := Nat.lt_log2_self
  have h2 : (2 : Nat) ^ (v.log2 + 1) ≤ 2 ^ (4 * (v.log2 / 4 + 1)) := Nat.pow_le_pow_right (by decide) (by omega)
  have h3 : (2 : Nat) ^ (4 * (v.log2 / 4 + 1)) = 16 ^ (v.log2 / 4 + 1) := by rw [Nat.pow_mul]
  have h4 : (16 : Nat) ^ (v.log2 / 4 + 1) ≤ 16 ^ max 16 (v.log2 / 4 + 1) :=
    Nat.pow_le_pow_right (by decide) (Nat.le_max_right _ _)
  omega

/-- A value of any width reads back. -/
theorem parseHex_wideToken (v : Nat) : parseHex (wideToken v) = some v :=
  parseHex_hexToken _ _ (by omega) (lt_wideDigits v)

/-- A System register's value reads back. -/
theorem sysValueOperand_wideToken (r : A64Sys) (v : Nat) (h : r.fits v = true) :
    sysValueOperand r (wideToken v) = .ok v := by
  simp [sysValueOperand, parseHex_wideToken, h]

theorem parseDec_decToken : ∀ n : Fin 32, parseDec (decToken n.val) = some n.val := by decide

/-- A register number reads back. -/
theorem regOperand_decToken (b : Nat) (hb : b ≤ 32) (n : Fin b) : regOperand b (decToken n.val) = .ok n := by
  have := parseDec_decToken ⟨n.val, by omega⟩
  simp only at this
  simp [regOperand, this]

/-! ## Tokens -/

/-- A character that ends no token and begins no comment. -/
def plainChar (c : Char) : Bool := !isSep c && c != ';'

/-- A token that stays one token in a line. -/
def plainToken (t : Name) : Bool := !t.isEmpty && t.all plainChar

theorem splitToks_ne_nil (l : List Char) : splitToks l ≠ [] := by
  cases l with
  | nil => simp [splitToks]
  | cons c cs =>
    simp only [splitToks]
    split
    · simp
    · split <;> simp

/-- A stretch without a separator is one piece. -/
theorem splitToks_plain (t : Name) (h : t.all plainChar = true) : splitToks t = [t] := by
  induction t with
  | nil => rfl
  | cons c cs ih =>
    simp only [List.all_cons, Bool.and_eq_true] at h
    have hs : isSep c = false := by
      have := h.1; simp only [plainChar, Bool.and_eq_true, Bool.not_eq_true'] at this; exact this.1
    simp [splitToks, hs, ih h.2]

/-- A stretch before a separator is the first piece. -/
theorem splitToks_append (t : Name) (c : Char) (rest : List Char) (h : t.all plainChar = true)
    (hc : isSep c = true) : splitToks (t ++ c :: rest) = t :: splitToks rest := by
  induction t with
  | nil => simp [splitToks, hc]
  | cons d ds ih =>
    simp only [List.all_cons, Bool.and_eq_true] at h
    have hs : isSep d = false := by
      have := h.1; simp only [plainChar, Bool.and_eq_true, Bool.not_eq_true'] at this; exact this.1
    simp [splitToks, hs, ih h.2]

/-- Operands that were joined split into what they were. -/
theorem splitToks_joinOperands (ts : List Name) (h : ∀ t ∈ ts, plainToken t = true) :
    (splitToks (joinOperands ts)).filter (fun t => !t.isEmpty) = ts := by
  induction ts with
  | nil => rfl
  | cons t ts ih =>
    have ht := h t (by simp)
    simp only [plainToken, Bool.and_eq_true] at ht
    cases ts with
    | nil => simp [joinOperands, splitToks_plain t ht.2, ht.1]
    | cons u us =>
      have := ih fun v hv => h v (by simp [hv])
      have e : joinOperands (t :: u :: us) = t ++ ',' :: ' ' :: joinOperands (u :: us) := rfl
      have e2 : splitToks (' ' :: joinOperands (u :: us)) = [] :: splitToks (joinOperands (u :: us)) := by
        simp [splitToks, isSep]
      rw [e, splitToks_append t ',' _ ht.2 (by decide), e2]
      simp [ht.1, this]

/-- A line without a semicolon loses nothing. -/
theorem takeWhile_plain (l : List Char) (h : ∀ c ∈ l, c ≠ ';') : l.takeWhile (· != ';') = l := by
  rw [List.takeWhile_eq_self_iff]
  intro c hc
  simpa using h c hc

/-- A name is a token of its own. -/
theorem plainToken_of_isName (t : Name) (h : isName t = true) : plainToken t = true := by
  simp only [isName, Bool.and_eq_true, List.all_eq_true] at h
  simp only [plainToken, Bool.and_eq_true, List.all_eq_true]
  refine ⟨h.1, fun c hc => ?_⟩
  have := h.2 c hc
  by_contra hn
  simp only [plainChar, isSep, Bool.and_eq_true, Bool.not_eq_true', Bool.or_eq_false_iff, not_and_or, beq_eq_false_iff_ne,
    bne_iff_ne, ne_eq, not_not] at hn
  rcases hn with (hn | hn) | hn <;> subst hn <;> exact absurd this (by decide)

theorem joinOperands_plain (ts : List Name) (h : ∀ t ∈ ts, plainToken t = true) : ∀ c ∈ joinOperands ts, c ≠ ';' := by
  induction ts with
  | nil => simp [joinOperands]
  | cons t ts ih =>
    have ht : ∀ c ∈ t, c ≠ ';' := by
      have := h t (by simp)
      simp only [plainToken, Bool.and_eq_true, List.all_eq_true] at this
      intro c hc
      have := this.2 c hc
      simp only [plainChar, Bool.and_eq_true, bne_iff_ne] at this
      exact this.2
    cases ts with
    | nil => exact ht
    | cons u us =>
      intro c hc
      have e : joinOperands (t :: u :: us) = t ++ ',' :: ' ' :: joinOperands (u :: us) := rfl
      rw [e] at hc
      simp only [List.mem_append, List.mem_cons] at hc
      rcases hc with hc | rfl | rfl | hc
      · exact ht c hc
      · decide
      · decide
      · exact ih (fun v hv => h v (by simp [hv])) c hc

/-- The tokens of a line made of an operation name and operands are that name and those operands. -/
theorem tokens_join (op : Name) (ts : List Name) (hop : plainToken op = true)
    (hts : ∀ t ∈ ts, plainToken t = true) : tokens (op ++ ' ' :: joinOperands ts) = op :: ts := by
  have h1 := joinOperands_plain [op] (by simpa using hop)
  have h2 := joinOperands_plain ts hts
  have hn : (op ++ ' ' :: joinOperands ts).takeWhile (· != ';') = op ++ ' ' :: joinOperands ts := by
    apply takeWhile_plain
    intro c hc
    simp only [List.mem_append, List.mem_cons] at hc
    rcases hc with hc | rfl | hc
    · exact h1 c hc
    · decide
    · exact h2 c hc
  simp only [plainToken, Bool.and_eq_true] at hop
  rw [tokens, hn, splitToks_append op ' ' _ hop.2 (by decide)]
  simp [hop.1, splitToks_joinOperands ts hts]

/-! ## Names -/

theorem lookupName_opNames : ∀ o : Op, lookupName opNames (nameOf opNames o) = some o := by
  intro o; cases o <;> decide

theorem plainToken_opName : ∀ o : Op, plainToken (nameOf opNames o) = true := by
  intro o; cases o <;> decide

theorem lookupName_modeNames : ∀ m : Mode, lookupName modeNames (nameOf modeNames m) = some m := by
  intro m; cases m <;> decide

theorem plainToken_modeToken : ∀ m : Option Mode, plainToken (modeToken m) = true := by
  intro m
  cases m with
  | none => decide
  | some m => cases m <;> decide

theorem modeOperand_modeToken : ∀ m : Option Mode, modeOperand (modeToken m) = .ok m := by
  intro m
  cases m with
  | none => decide
  | some m => cases m <;> decide

theorem lookupName_stateNames : ∀ e : ExecState, lookupName stateNames (nameOf stateNames e) = some e := by
  intro e; cases e <;> decide

theorem plainToken_stateName : ∀ e : ExecState, plainToken (nameOf stateNames e) = true := by
  intro e; cases e <;> decide

theorem lookupName_elNames : ∀ l : EL, lookupName elNames (nameOf elNames l) = some l := by
  intro l; cases l <;> decide

theorem plainToken_elName : ∀ l : EL, plainToken (nameOf elNames l) = true := by
  intro l; cases l <;> decide

/-- A name in no entry of a table stands for nothing. -/
theorem lookupName_none {α : Type} (table : List (Name × α)) (t : Name)
    (h : (table.map Prod.fst).contains t = false) : lookupName table t = none := by
  simp only [lookupName, Option.map_eq_none_iff, List.find?_eq_none]
  intro e he
  simp only [beq_iff_eq]
  rintro rfl
  have : (table.map Prod.fst).contains e.1 = true := by
    rw [List.contains_iff_mem]; exact List.mem_map_of_mem he
  rw [this] at h; exact absurd h (by decide)

/-- A well-formed AArch32 System register name reads back. -/
theorem a32SysOperand_a32SysToken (a : A32Sys) (h : a.wellFormed = true) : a32SysOperand (a32SysToken a) = .ok a := by
  cases a with
  | other nm =>
    simp only [A32Sys.wellFormed, Bool.and_eq_true, Bool.not_eq_true'] at h
    simp [a32SysOperand, a32SysToken, lookupName_none _ _ h.2, h.1]
  | _ => decide

/-- A well-formed AArch64 System register name reads back. -/
theorem a64SysOperand_a64SysToken (r : A64Sys) (h : r.wellFormed = true) : a64SysOperand (a64SysToken r) = .ok r := by
  cases r with
  | other nm =>
    simp only [A64Sys.wellFormed, Bool.and_eq_true, Bool.not_eq_true'] at h
    simp [a64SysOperand, a64SysToken, lookupName_none _ _ h.2, h.1]
  | _ => decide

theorem plainToken_a32SysToken (a : A32Sys) (h : a.wellFormed = true) : plainToken (a32SysToken a) = true := by
  cases a with
  | other nm =>
    simp only [A32Sys.wellFormed, Bool.and_eq_true] at h
    exact plainToken_of_isName _ h.1
  | _ => decide

theorem plainToken_a64SysToken (r : A64Sys) (h : r.wellFormed = true) : plainToken (a64SysToken r) = true := by
  cases r with
  | other nm =>
    simp only [A64Sys.wellFormed, Bool.and_eq_true] at h
    exact plainToken_of_isName _ h.1
  | _ => decide

theorem plainToken_hexToken (k v : Nat) : plainToken (hexToken k v) = true := by
  have h := hexDigits_all plainChar (by decide) k v
  have hz : plainChar '0' = true := by decide
  have hx : plainChar 'x' = true := by decide
  simp [plainToken, hexToken, h, hz, hx]

theorem plainToken_wideToken (v : Nat) : plainToken (wideToken v) = true := plainToken_hexToken _ _

theorem plainToken_decToken : ∀ n : Fin 32, plainToken (decToken n.val) = true := by decide

end Sys2Proof
end

