-- ==== Sys2Proof/Laws/State.lean ====
section
/-! SUPPORT. One lemma per field per update of the state, true by `rfl`, and the reads of cells over them. -/

namespace Sys2Proof.Machine

variable (s : State)

@[simp] theorem State.withX_cfg (k : Fin 31) (w : Word) : (s.withX k w).cfg = s.cfg := rfl
@[simp] theorem State.withX_curState (k : Fin 31) (w : Word) : (s.withX k w).curState = s.curState := rfl
@[simp] theorem State.withX_el (k : Fin 31) (w : Word) : (s.withX k w).el = s.el := rfl
@[simp] theorem State.withX_el0State (k : Fin 31) (w : Word) : (s.withX k w).el0State = s.el0State := rfl
@[simp] theorem State.withX_secure (k : Fin 31) (w : Word) : (s.withX k w).secure = s.secure := rfl
@[simp] theorem State.withX_mode (k : Fin 31) (w : Word) : (s.withX k w).mode = s.mode := rfl
@[simp] theorem State.withX_x (k : Fin 31) (w : Word) : (s.withX k w).x = s.x.set k.val w := rfl
@[simp] theorem State.withX_vreg (k : Fin 31) (w : Word) : (s.withX k w).vreg = s.vreg := rfl
@[simp] theorem State.withX_pc (k : Fin 31) (w : Word) : (s.withX k w).pc = s.pc := rfl
@[simp] theorem State.withX_psSM (k : Fin 31) (w : Word) : (s.withX k w).psSM = s.psSM := rfl
@[simp] theorem State.withX_psZA (k : Fin 31) (w : Word) : (s.withX k w).psZA = s.psZA := rfl
@[simp] theorem State.withX_sveState (k : Fin 31) (w : Word) : (s.withX k w).sveState = s.sveState := rfl
@[simp] theorem State.withX_zaStorage (k : Fin 31) (w : Word) : (s.withX k w).zaStorage = s.zaStorage := rfl
@[simp] theorem State.withX_zt0 (k : Fin 31) (w : Word) : (s.withX k w).zt0 = s.zt0 := rfl
@[simp] theorem State.withX_sys (k : Fin 31) (w : Word) : (s.withX k w).sys = s.sys := rfl
@[simp] theorem State.withX_result (k : Fin 31) (w : Word) : (s.withX k w).result = s.result := rfl
@[simp] theorem State.withX_draws (k : Fin 31) (w : Word) : (s.withX k w).draws = s.draws := rfl
@[simp] theorem State.withX_input (k : Fin 31) (w : Word) : (s.withX k w).input = s.input := rfl

@[simp] theorem State.withV_cfg (k : Fin 32) (q : Quad) : (s.withV k q).cfg = s.cfg := rfl
@[simp] theorem State.withV_curState (k : Fin 32) (q : Quad) : (s.withV k q).curState = s.curState := rfl
@[simp] theorem State.withV_el (k : Fin 32) (q : Quad) : (s.withV k q).el = s.el := rfl
@[simp] theorem State.withV_el0State (k : Fin 32) (q : Quad) : (s.withV k q).el0State = s.el0State := rfl
@[simp] theorem State.withV_secure (k : Fin 32) (q : Quad) : (s.withV k q).secure = s.secure := rfl
@[simp] theorem State.withV_mode (k : Fin 32) (q : Quad) : (s.withV k q).mode = s.mode := rfl
@[simp] theorem State.withV_x (k : Fin 32) (q : Quad) : (s.withV k q).x = s.x := rfl
@[simp] theorem State.withV_vreg (k : Fin 32) (q : Quad) : (s.withV k q).vreg = s.vreg.set k.val q := rfl
@[simp] theorem State.withV_pc (k : Fin 32) (q : Quad) : (s.withV k q).pc = s.pc := rfl
@[simp] theorem State.withV_psSM (k : Fin 32) (q : Quad) : (s.withV k q).psSM = s.psSM := rfl
@[simp] theorem State.withV_psZA (k : Fin 32) (q : Quad) : (s.withV k q).psZA = s.psZA := rfl
@[simp] theorem State.withV_sveState (k : Fin 32) (q : Quad) : (s.withV k q).sveState = s.sveState := rfl
@[simp] theorem State.withV_zaStorage (k : Fin 32) (q : Quad) : (s.withV k q).zaStorage = s.zaStorage := rfl
@[simp] theorem State.withV_zt0 (k : Fin 32) (q : Quad) : (s.withV k q).zt0 = s.zt0 := rfl
@[simp] theorem State.withV_sys (k : Fin 32) (q : Quad) : (s.withV k q).sys = s.sys := rfl
@[simp] theorem State.withV_result (k : Fin 32) (q : Quad) : (s.withV k q).result = s.result := rfl
@[simp] theorem State.withV_draws (k : Fin 32) (q : Quad) : (s.withV k q).draws = s.draws := rfl
@[simp] theorem State.withV_input (k : Fin 32) (q : Quad) : (s.withV k q).input = s.input := rfl

@[simp] theorem State.withSys_cfg (g : SysRegs) : (s.withSys g).cfg = s.cfg := rfl
@[simp] theorem State.withSys_curState (g : SysRegs) : (s.withSys g).curState = s.curState := rfl
@[simp] theorem State.withSys_el (g : SysRegs) : (s.withSys g).el = s.el := rfl
@[simp] theorem State.withSys_el0State (g : SysRegs) : (s.withSys g).el0State = s.el0State := rfl
@[simp] theorem State.withSys_secure (g : SysRegs) : (s.withSys g).secure = s.secure := rfl
@[simp] theorem State.withSys_mode (g : SysRegs) : (s.withSys g).mode = s.mode := rfl
@[simp] theorem State.withSys_x (g : SysRegs) : (s.withSys g).x = s.x := rfl
@[simp] theorem State.withSys_vreg (g : SysRegs) : (s.withSys g).vreg = s.vreg := rfl
@[simp] theorem State.withSys_pc (g : SysRegs) : (s.withSys g).pc = s.pc := rfl
@[simp] theorem State.withSys_psSM (g : SysRegs) : (s.withSys g).psSM = s.psSM := rfl
@[simp] theorem State.withSys_psZA (g : SysRegs) : (s.withSys g).psZA = s.psZA := rfl
@[simp] theorem State.withSys_sveState (g : SysRegs) : (s.withSys g).sveState = s.sveState := rfl
@[simp] theorem State.withSys_zaStorage (g : SysRegs) : (s.withSys g).zaStorage = s.zaStorage := rfl
@[simp] theorem State.withSys_zt0 (g : SysRegs) : (s.withSys g).zt0 = s.zt0 := rfl
@[simp] theorem State.withSys_sys (g : SysRegs) : (s.withSys g).sys = g := rfl
@[simp] theorem State.withSys_result (g : SysRegs) : (s.withSys g).result = s.result := rfl
@[simp] theorem State.withSys_draws (g : SysRegs) : (s.withSys g).draws = s.draws := rfl
@[simp] theorem State.withSys_input (g : SysRegs) : (s.withSys g).input = s.input := rfl

@[simp] theorem State.withResult_cfg (v : ReadValue) : (s.withResult v).cfg = s.cfg := rfl
@[simp] theorem State.withResult_curState (v : ReadValue) : (s.withResult v).curState = s.curState := rfl
@[simp] theorem State.withResult_el (v : ReadValue) : (s.withResult v).el = s.el := rfl
@[simp] theorem State.withResult_el0State (v : ReadValue) : (s.withResult v).el0State = s.el0State := rfl
@[simp] theorem State.withResult_secure (v : ReadValue) : (s.withResult v).secure = s.secure := rfl
@[simp] theorem State.withResult_mode (v : ReadValue) : (s.withResult v).mode = s.mode := rfl
@[simp] theorem State.withResult_x (v : ReadValue) : (s.withResult v).x = s.x := rfl
@[simp] theorem State.withResult_vreg (v : ReadValue) : (s.withResult v).vreg = s.vreg := rfl
@[simp] theorem State.withResult_pc (v : ReadValue) : (s.withResult v).pc = s.pc := rfl
@[simp] theorem State.withResult_psSM (v : ReadValue) : (s.withResult v).psSM = s.psSM := rfl
@[simp] theorem State.withResult_psZA (v : ReadValue) : (s.withResult v).psZA = s.psZA := rfl
@[simp] theorem State.withResult_sveState (v : ReadValue) : (s.withResult v).sveState = s.sveState := rfl
@[simp] theorem State.withResult_zaStorage (v : ReadValue) : (s.withResult v).zaStorage = s.zaStorage := rfl
@[simp] theorem State.withResult_zt0 (v : ReadValue) : (s.withResult v).zt0 = s.zt0 := rfl
@[simp] theorem State.withResult_sys (v : ReadValue) : (s.withResult v).sys = s.sys := rfl
@[simp] theorem State.withResult_result (v : ReadValue) : (s.withResult v).result = some v := rfl
@[simp] theorem State.withResult_draws (v : ReadValue) : (s.withResult v).draws = s.draws := rfl
@[simp] theorem State.withResult_input (v : ReadValue) : (s.withResult v).input = s.input := rfl

@[simp] theorem State.drawn_cfg : (s.drawn).cfg = s.cfg := rfl
@[simp] theorem State.drawn_curState : (s.drawn).curState = s.curState := rfl
@[simp] theorem State.drawn_el : (s.drawn).el = s.el := rfl
@[simp] theorem State.drawn_el0State : (s.drawn).el0State = s.el0State := rfl
@[simp] theorem State.drawn_secure : (s.drawn).secure = s.secure := rfl
@[simp] theorem State.drawn_mode : (s.drawn).mode = s.mode := rfl
@[simp] theorem State.drawn_x : (s.drawn).x = s.x := rfl
@[simp] theorem State.drawn_vreg : (s.drawn).vreg = s.vreg := rfl
@[simp] theorem State.drawn_pc : (s.drawn).pc = s.pc := rfl
@[simp] theorem State.drawn_psSM : (s.drawn).psSM = s.psSM := rfl
@[simp] theorem State.drawn_psZA : (s.drawn).psZA = s.psZA := rfl
@[simp] theorem State.drawn_sveState : (s.drawn).sveState = s.sveState := rfl
@[simp] theorem State.drawn_zaStorage : (s.drawn).zaStorage = s.zaStorage := rfl
@[simp] theorem State.drawn_zt0 : (s.drawn).zt0 = s.zt0 := rfl
@[simp] theorem State.drawn_sys : (s.drawn).sys = s.sys := rfl
@[simp] theorem State.drawn_result : (s.drawn).result = s.result := rfl
@[simp] theorem State.drawn_draws : (s.drawn).draws = s.draws + 1 := rfl
@[simp] theorem State.drawn_input : (s.drawn).input = s.input := rfl

theorem readX_withX (k j : Fin 31) (w : Word) : readX (s.withX k w) j = if j = k then w else readX s j := by
  by_cases h : j = k
  · subst h; simp [readX]
  · simp [readX, h, Fin.ext_iff.not.mp (Ne.symm h)]

@[simp] theorem readX_withX_same (k : Fin 31) (w : Word) : readX (s.withX k w) k = w := by simp [readX_withX]

theorem readX_withX_ne {k j : Fin 31} (h : j ≠ k) (w : Word) : readX (s.withX k w) j = readX s j := by
  simp [readX_withX, h]

theorem readV_withV (k j : Fin 32) (q : Quad) : readV (s.withV k q) j = if j = k then q else readV s j := by
  by_cases h : j = k
  · subst h; simp [readV]
  · simp [readV, h, Fin.ext_iff.not.mp (Ne.symm h)]

@[simp] theorem readV_withV_same (k : Fin 32) (q : Quad) : readV (s.withV k q) k = q := by simp [readV_withV]

theorem readV_withV_ne {k j : Fin 32} (h : j ≠ k) (q : Quad) : readV (s.withV k q) j = readV s j := by
  simp [readV_withV, h]

/-- Reads of general-purpose cells depend on `x` alone. -/
theorem readX_congr {s t : State} (h : t.x = s.x) (k : Fin 31) : readX t k = readX s k := by simp [readX, h]

/-- Reads of SIMD and floating-point cells depend on `vreg` alone. -/
theorem readV_congr {s t : State} (h : t.vreg = s.vreg) (k : Fin 32) : readV t k = readV s k := by simp [readV, h]

/-- `EL2Enabled` depends on what its predicate sees of the state. -/
theorem el2Enabled_of_view {s t : State} (hv : el2View t = el2View s) (hc : t.cfg = s.cfg) :
    el2Enabled t = el2Enabled s := by
  have hs : (el2View t).sys = (el2View s).sys := congrArg State.sys hv
  have hs : t.sys = s.sys := hs
  unfold el2Enabled scrNS; rw [hc, hs, hv]

/-- At its default, and where EL2 can be used in Secure state too, `EL2Enabled` depends on the parameters and SCR_EL3
alone. -/
theorem el2Enabled_of_rule {s t : State} (hr : s.cfg.el2Rule ≠ .anyRule) (hc : t.cfg = s.cfg)
    (hs : t.sys.scrEl3 = s.sys.scrEl3) : el2Enabled t = el2Enabled s := by
  unfold el2Enabled scrNS; rw [hc, hs]
  cases h : s.cfg.el2Rule <;> simp_all

/-- Other upper halves are not seen by the predicate of `EL2Enabled`. -/
theorem el2View_withUpper (s : State) (x' : Vector Word 31)
    (hx : ∀ k : Fin 31, x'[k.val] &&& 0xFFFFFFFF#64 = s.x[k.val] &&& 0xFFFFFFFF#64) :
    el2View { s with x := x' } = el2View s := by
  have : x'.map (fun w => w &&& 0xFFFFFFFF#64) = s.x.map fun w => w &&& 0xFFFFFFFF#64 := by
    ext i hi : 1
    simpa using hx ⟨i, hi⟩
  simp only [el2View, this, effectiveSM, effectiveZA]

/-- Other contents of V16 to V31 are not seen by the predicate of `EL2Enabled`. -/
theorem el2View_withV16 (s : State) (v' : Vector Quad 32) (hv : ∀ k : Fin 32, k.val < 16 → v'[k.val] = s.vreg[k.val]) :
    el2View { s with vreg := v' } = el2View s := by
  have : (Vector.ofFn fun n : Fin 32 => if n.val < 16 then v'[n.val] else 0) =
      Vector.ofFn fun n : Fin 32 => if n.val < 16 then s.vreg[n.val] else 0 := by
    ext i hi : 1
    simp only [Vector.getElem_ofFn]
    split
    · exact hv ⟨i, hi⟩ ‹_›
    · rfl
  simp only [el2View, this, effectiveSM, effectiveZA]

/-- Other values of `BigEndian` and of `BankMap` decide nothing about `EL2Enabled` (R61, R127). -/
theorem el2Enabled_withUnread (s : State) (b : Bool) (l : List A32Sys) :
    el2Enabled { s with cfg := { s.cfg with bigEndian := b, bankSecure := l } } = el2Enabled s := rfl

/-- In AArch32 state the stored PSTATE.SM is not seen by the predicate of `EL2Enabled` (R142). -/
theorem el2View_withSM {s : State} (h : s.curState = .aarch32) (b : Bool) : el2View { s with psSM := b } = el2View s := by
  have : (ExecState.aarch32 == ExecState.aarch64) = false := rfl
  simp [el2View, effectiveSM, effectiveZA, h, this]

/-- `state_of(2)` depends on the parameters and SCR_EL3 alone. -/
theorem stateOf2_congr {s t : State} (hc : t.cfg = s.cfg) (hs : t.sys.scrEl3 = s.sys.scrEl3) :
    stateOf2 t = stateOf2 s := by
  unfold stateOf2 belowEl3 stateOf3 scrRW; rw [hc, hs]

/-- `state_of(1)` depends on the parameters, the two control registers and `EL2Enabled` alone. -/
theorem stateOf1_congr {s t : State} (hc : t.cfg = s.cfg) (hs : t.sys.scrEl3 = s.sys.scrEl3)
    (hh : t.sys.hcrEl2 = s.sys.hcrEl2) (he : el2Enabled t = el2Enabled s) : stateOf1 t = stateOf1 s := by
  unfold stateOf1 belowEl3 stateOf3 scrRW hcrRW
  rw [he, stateOf2_congr hc hs, hc, hs, hh]

/-- `state_of` depends on the parameters, the stored state of EL0, the two control registers and `EL2Enabled` alone. -/
theorem stateOf_congr {s t : State} (hc : t.cfg = s.cfg) (h0 : t.el0State = s.el0State)
    (hs : t.sys.scrEl3 = s.sys.scrEl3) (hh : t.sys.hcrEl2 = s.sys.hcrEl2) (he : el2Enabled t = el2Enabled s) (l : EL) :
    stateOf t l = stateOf s l := by
  cases l
  · show stateOf0 t = stateOf0 s
    unfold stateOf0; rw [stateOf1_congr hc hs hh he, h0]
  · exact stateOf1_congr hc hs hh he
  · exact stateOf2_congr hc hs
  · show stateOf3 t = stateOf3 s
    unfold stateOf3; rw [hc]

end Sys2Proof.Machine
end

