-- ==== Sys2Proof/Laws/Ops.lean ====
section
/-! SUPPORT. For each shared operation, once, everything it can do: if it answers a next state, what that state is. -/

namespace Sys2Proof.Machine

/-! ## Guards -/

theorem inA32_next {s : State} {o : Outcome} {t : State} (h : inA32 s o = .next t) :
    s.curState = .aarch32 ∧ o = .next t := by
  unfold inA32 at h; split at h
  · exact ⟨‹_›, h⟩
  · simp at h

theorem inA64_next {s : State} {o : Outcome} {t : State} (h : inA64 s o = .next t) :
    s.curState = .aarch64 ∧ o = .next t := by
  unfold inA64 at h; split at h
  · exact ⟨‹_›, h⟩
  · simp at h

theorem inA32_of {s : State} (h : s.curState = .aarch32) (o : Outcome) : inA32 s o = o := by simp [inA32, h]

theorem inA64_of {s : State} (h : s.curState = .aarch64) (o : Outcome) : inA64 s o = o := by simp [inA64, h]

theorem inA32_of_a64 {s : State} (h : s.curState = .aarch64) (o : Outcome) : inA32 s o = .refused .wrongState := by
  simp [inA32, h]

theorem inA64_of_a32 {s : State} (h : s.curState = .aarch32) (o : Outcome) : inA64 s o = .refused .wrongState := by
  simp [inA64, h]

theorem withXNum_next {s : State} {n : Fin 16} {f : Fin 31 → Outcome} {t : State} (h : withXNum s n f = .next t) :
    ∃ k, xNum s.cfg s.mode n = .ok k ∧ f k = .next t := by
  unfold withXNum at h; split at h
  · exact ⟨_, ‹_›, h⟩
  · simp at h

theorem withXNum_of {s : State} {n : Fin 16} {k : Fin 31} (h : xNum s.cfg s.mode n = .ok k) (f : Fin 31 → Outcome) :
    withXNum s n f = f k := by simp [withXNum, h]

/-! ## System registers -/

/-- A read of an own cell changes the result, and the draw counter where the register is RES0. -/
theorem readOwn_next {c : A32Cell} {s t : State} (h : readOwn c s = .next t) :
    ∃ v k, t = { s with result := some v, draws := k } := by
  unfold readOwn at h
  split at h
  · split at h <;> simp only [Host.Outcome.next.injEq] at h <;> subst h
    · exact ⟨_, s.draws, rfl⟩
    · exact ⟨_, s.draws + 1, rfl⟩
  · simp only [Host.Outcome.next.injEq] at h; subst h; exact ⟨_, s.draws, rfl⟩

/-- A read of an AArch32 System register changes the result, and the draw counter where the register is RES0. -/
theorem readTarget_next {g : SysTarget} {s t : State} (h : readTarget g s = .next t) :
    ∃ v k, t = { s with result := some v, draws := k } := by
  unfold readTarget at h
  split at h
  · exact readOwn_next h
  all_goals
    split at h
    · simp only [Host.Outcome.next.injEq] at h; subst h; exact ⟨_, s.draws, rfl⟩
    · simp at h

/-- A write of an own cell changes that cell, or nothing where the register is RES0. -/
theorem writeOwn_next {c : A32Cell} {v : Half} {s t : State} (h : writeOwn c v s = .next t) :
    t = s ∨ t = s.withSys (writeCell32 c v s.sys) := by
  unfold writeOwn at h
  split at h <;> simp only [Host.Outcome.next.injEq] at h <;> subst h
  · exact .inl rfl
  · exact .inr rfl

/-- A write of an AArch32 System register changes its own cell, or writes an AArch64 register that has a cell. -/
theorem writeTarget_next {g : SysTarget} {v : Half} {s t : State} (h : writeTarget g v s = .next t) :
    t = s ∨ (∃ c, g = .own c ∧ t = s.withSys (writeCell32 c v s.sys)) ∨
      (∃ r w, g = .low r ∧ readCell64 s r = some w ∧ t = s.withSys (writeCell64 s.cfg r (setLow32 w v) s.sys)) ∨
      (∃ r w, g = .high r ∧ readCell64 s r = some w ∧ t = s.withSys (writeCell64 s.cfg r (setHigh32 w v) s.sys)) := by
  unfold writeTarget at h
  split at h
  · rcases writeOwn_next h with h | h
    · exact .inl h
    · exact .inr (.inl ⟨_, rfl, h⟩)
  · split at h
    · simp only [Host.Outcome.next.injEq] at h
      exact .inr (.inr (.inl ⟨_, _, rfl, ‹_›, h.symm⟩))
    · simp at h
  · split at h
    · simp only [Host.Outcome.next.injEq] at h
      exact .inr (.inr (.inr ⟨_, _, rfl, ‹_›, h.symm⟩))
    · simp at h

/-! ## A change of Execution state -/

/-- The fields `GPRUpperOnEntry` leaves (R104). -/
theorem gprUpperOnEntry_frame (z : RegRanges) (s : State) :
    gprUpperOnEntry z s = { s with x := (gprUpperOnEntry z s).x } := rfl

theorem readX_gprUpperOnEntry (z : RegRanges) (s : State) (n : Fin 31) :
    readX (gprUpperOnEntry z s) n =
      if inRanges z n.val then drawUpper (Config.upperCleared s.draws n.val) (readX s n) else readX s n := by
  simp [readX, gprUpperOnEntry]

/-- The draws of the upper halves are not seen by the predicate of `EL2Enabled`. -/
theorem el2View_gprUpperOnEntry (z : RegRanges) (s : State) : el2View (gprUpperOnEntry z s) = el2View s := by
  refine el2View_withUpper s _ fun k => maskLow_congr ?_
  show low32 (readX (gprUpperOnEntry z s) k) = low32 (readX s k)
  rw [readX_gprUpperOnEntry]
  split <;> simp

/-- `ELR2UpperOnEntry` changes the cell of ELR_EL2 alone (R130). -/
theorem elr2UpperOnEntry_eq (t : EL) (s : State) :
    elr2UpperOnEntry t s =
      s.withSys
        { s.sys with
          elrEl2 := if elr2Draws s t then drawUpper (Config.elr2Cleared s.draws) s.sys.elrEl2 else s.sys.elrEl2 } := by
  unfold elr2UpperOnEntry; split <;> rfl

/-- `SMEOnStateChange` changes `vreg`, the SVE state and FPSR alone (R146). -/
theorem smeOnStateChange_eq (s : State) :
    smeOnStateChange s =
      { s with
        vreg := if smResets s then Vector.replicate 32 s.cfg.smFixedRegBits else s.vreg
        sveState := if smResets s then s.sveState.map fun r => fixedBits s.cfg.smFixedRegBits r.length else s.sveState
        sys := { s.sys with fpsr := if smResets s then s.cfg.smFixedFpsr else s.sys.fpsr } } := by
  unfold smeOnStateChange; split <;> rfl

@[simp] theorem length_fixedBits (p : Quad) (n : Nat) : (fixedBits p n).length = n := by simp [fixedBits]

theorem getElem_fixedBits (p : Quad) (n i : Nat) (h : i < (fixedBits p n).length) :
    (fixedBits p n)[i] = p.getLsbD (i % 128) := by simp [fixedBits]

/-- What the entry leaves in the System registers before `EntryEffects`. -/
def sysBeforeEffects (t : EL) (s : State) : SysRegs :=
  { s.sys with
    elrEl2 := if elr2Draws s t then drawUpper (Config.elr2Cleared s.draws) s.sys.elrEl2 else s.sys.elrEl2
    fpsr := if smResets s then s.cfg.smFixedFpsr else s.sys.fpsr }

/-- What the entry leaves in the System registers, with the draws of `EntryEffects` (R154). -/
def sysAfterEntry (t : EL) (s : State) : SysRegs :=
  (entryEffects t { s with sys := sysBeforeEffects t s }).sys

/-- The whole entry, field by field (R84). -/
theorem enterA64_eq (z : RegRanges) (t : EL) (p : Word) (s : State) :
    enterA64 z t p s =
      { s with
        curState := .aarch64
        el := t
        secure := Config.entrySecure s.draws
        x := (gprUpperOnEntry z s).x
        vreg := if smResets s then Vector.replicate 32 s.cfg.smFixedRegBits else s.vreg
        pc := p
        sveState := if smResets s then s.sveState.map fun r => fixedBits s.cfg.smFixedRegBits r.length else s.sveState
        sys := sysAfterEntry t s
        draws := s.draws + 1 } := by
  have h1 : elr2Draws (gprUpperOnEntry z s) t = elr2Draws s t := by
    unfold elr2Draws
    rw [el2Enabled_of_view (el2View_gprUpperOnEntry z s) (by simp only [gprUpperOnEntry]),
      stateOf2_congr (s := s) (t := gprUpperOnEntry z s) (by simp only [gprUpperOnEntry]) (by simp only [gprUpperOnEntry])]
  have h2 : smResets (elr2UpperOnEntry t (gprUpperOnEntry z s)) = smResets s := by
    rw [elr2UpperOnEntry_eq]; simp only [smResets, State.withSys_cfg, State.withSys_psSM, gprUpperOnEntry]
  unfold enterA64
  rw [smeOnStateChange_eq, h2, elr2UpperOnEntry_eq, h1]
  cases t <;> simp only [entryEffects, sysAfterEntry, sysBeforeEffects, gprUpperOnEntry, State.withSys]

/-- Everything taking an exception can do: if it answers a next state, the entry was legal and the state is the entry's
(R84). -/
theorem takeException_next {t : EL} {p : Word} {s u : State} (h : takeException t p s = .next u) :
    EntryLegal s t ∧ ∃ z, zeroableSet s t = some z ∧ u = enterA64 z t p s := by
  unfold takeException at h
  split at h
  · simp at h
  rename_i h1
  split at h
  · simp at h
  rename_i h2
  split at h
  · simp at h
  rename_i h3
  split at h
  · simp at h
  rename_i h4
  split at h
  · simp at h
  rename_i h5
  have hc : s.curState = .aarch32 := by cases hcs : s.curState <;> simp_all
  have ho : stateOf s t = .aarch64 := by cases hso : stateOf s t <;> simp_all
  have hl : s.el.num < t.num := by
    rcases Nat.lt_or_ge s.el.num t.num with h | h
    · exact h
    · exfalso; apply h5; revert h h1; cases t <;> cases s.el <;> simp [EL.num]
  split at h
  · simp at h
  · simp only [Host.Outcome.next.injEq] at h
    exact ⟨⟨hc, by simpa using h2, ho, hl⟩, _, ‹_›, h.symm⟩

/-- A legal entry with a valid table cell is taken (R84). -/
theorem takeException_of_legal {t : EL} {s : State} {z : RegRanges} (p : Word) (h : EntryLegal s t)
    (hz : zeroableSet s t = some z) : takeException t p s = .next (enterA64 z t p s) := by
  obtain ⟨hc, hu, ho, hl⟩ := h
  have h1 : ¬ t.num < s.el.num := by omega
  have h5 : t ≠ s.el := by rintro rfl; omega
  simp [takeException, h1, hu, hc, ho, h5, hz]

/-- The whole return, field by field (R85). -/
theorem enterA32_eq (t : EL) (m : Mode) (p : Word) (s : State) :
    enterA32 t m p s =
      { s with
        curState := .aarch32
        el := t
        el0State := if t = .el0 then .aarch32 else s.el0State
        secure := Config.returnSecure s.draws
        mode := m
        vreg := if smResets s then Vector.replicate 32 s.cfg.smFixedRegBits else s.vreg
        pc := (low32 p).setWidth 64
        sveState := if smResets s then s.sveState.map fun r => fixedBits s.cfg.smFixedRegBits r.length else s.sveState
        sys := { s.sys with fpsr := if smResets s then s.cfg.smFixedFpsr else s.sys.fpsr }
        draws := s.draws + 1 } := by
  unfold enterA32
  rw [smeOnStateChange_eq]
  rfl

/-- Everything returning from an exception can do: if it answers a next state, the return was legal and the state is the
return's (R85). -/
theorem returnFromException_next {a : ReturnArgs} {s u : State} (h : returnFromException a s = .next u) :
    ∃ m, a.state = .aarch32 ∧ a.mode = some m ∧ ReturnLegal s a.target m ∧ u = enterA32 a.target m a.newPc s := by
  unfold returnFromException at h
  split at h
  · simp at h
  rename_i h1
  split at h
  · simp at h
  rename_i h2
  split at h
  · simp at h
  rename_i h3
  split at h
  · simp at h
  rename_i h4
  split at h
  · simp at h
  rename_i h5
  split at h
  · simp at h
  rename_i h6
  split at h
  · simp at h
  rename_i h7
  split at h
  · simp at h
  rename_i m hm
  split at h
  · simp at h
  rename_i h8
  simp only [Host.Outcome.next.injEq] at h
  have hc : s.curState = .aarch64 := by
    cases hcs : s.curState <;> cases has : a.state <;> simp_all
  have ha : a.state = .aarch32 := by
    cases has : a.state <;> simp_all
  have hl : a.target.num < s.el.num := by
    rcases Nat.lt_or_ge a.target.num s.el.num with h | h
    · exact h
    · exfalso; apply h4; revert h h1; cases a.target <;> cases s.el <;> simp [EL.num]
  refine ⟨m, ha, hm, ⟨hc, hl, by simpa using h5, by simpa using h6, ?_, by simpa using h8⟩, h.symm⟩
  by_cases h0 : a.target = .el0
  · exact .inl h0
  · right
    by_contra hn
    exact h7 ⟨h0, hn⟩

/-- A legal return is made (R85). -/
theorem returnFromException_of_legal {t : EL} {m : Mode} {s : State} (p : Word) (h : ReturnLegal s t m) :
    returnFromException { target := t, state := .aarch32, mode := some m, newPc := p } s =
      .next (enterA32 t m p s) := by
  obtain ⟨hc, hl, hi, ha, ho, hm⟩ := h
  have h1 : ¬ s.el.num < t.num := by omega
  have h4 : t ≠ s.el := by rintro rfl; omega
  have h7 : ¬ (t ≠ .el0 ∧ stateOf s t ≠ .aarch32) := by
    rintro ⟨h0, h2⟩
    rcases ho with ho | ho
    · exact h0 ho
    · exact h2 ho
  simp only [returnFromException, h1, hc, h4, hi, ha, h7, hm, if_false]
  simp

end Sys2Proof.Machine
end

