-- ==== Sys2Proof/Laws/Exec.lean ====
section
/-! SUPPORT. What each operation can do, said once: the inversion lemmas of `exec`, of the System register cells and of
the user-supplied registers. -/

namespace Sys2Proof.Machine

/-! ## The user-supplied registers -/

/-- A write of a name with an entry reads back. -/
theorem extRead_extWrite_same (g : List (Name × Word)) (nm : Name) (v w : Word) (h : extRead g nm = some w) :
    extRead (extWrite g nm v) nm = some v := by
  induction g with
  | nil => simp [extRead] at h
  | cons e g ih =>
    obtain ⟨k, u⟩ := e
    by_cases hk : k = nm
    · simp [extWrite, extRead, hk]
    · simp only [extRead, hk, if_false] at h
      simp only [extWrite, hk, if_false, extRead]
      exact ih h

/-- A write leaves every other name. -/
theorem extRead_extWrite_ne (g : List (Name × Word)) (nm nm' : Name) (v : Word) (h : nm' ≠ nm) :
    extRead (extWrite g nm v) nm' = extRead g nm' := by
  induction g with
  | nil => rfl
  | cons e g ih =>
    obtain ⟨k, u⟩ := e
    by_cases hk : k = nm
    · subst hk; simp [extWrite, extRead, Ne.symm h]
    · by_cases hk' : k = nm' <;> simp [extWrite, extRead, hk, hk', h, ih]

/-! ## System register cells -/

/-- What a cell holds after a write of `v`: an SPSR its implemented bits, every other register all of it (R135). -/
def storedValue (c : Config) (r : A64Sys) (v : Word) : Word :=
  if r = .spsrEl1 ∨ r = .spsrEl2 then spsrTrunc c v else v

/-- A write of a register that has a cell reads back. -/
theorem readCell64_writeCell64_same {s : State} {r : A64Sys} {w : Word} (v : Word) (h : readCell64 s r = some w) :
    readCell64 (s.withSys (writeCell64 s.cfg r v s.sys)) r = some (storedValue s.cfg r v) := by
  cases r with
  | other nm => exact extRead_extWrite_same _ _ _ _ h
  | scrEl3 =>
    simp only [readCell64] at h ⊢
    split at h
    · rename_i hc; simp [writeCell64, storedValue, hc]
    · simp at h
  | hcrEl2 =>
    simp only [readCell64] at h ⊢
    split at h
    · rename_i hc; simp [writeCell64, storedValue, hc]
    · simp at h
  | spsrAbt => simp [readCell64] at h
  | spsrUnd => simp [readCell64] at h
  | spsrIrq => simp [readCell64] at h
  | spsrFiq => simp [readCell64] at h
  | _ => simp [readCell64, writeCell64, storedValue]

/-- A write of one register leaves every other. -/
theorem readCell64_writeCell64_ne {s : State} {r r' : A64Sys} (v : Word) (h : r' ≠ r) :
    readCell64 (s.withSys (writeCell64 s.cfg r v s.sys)) r' = readCell64 s r' := by
  cases r <;> cases r' <;> first
    | exact absurd rfl h
    | rfl
    | exact extRead_extWrite_ne _ _ _ _ (fun e => h (by rw [e]))

/-- A write of an AArch64 register leaves every cell that is an AArch32 register's own. -/
theorem readCell32_writeCell64 (k : Config) (r : A64Sys) (v : Word) (g : SysRegs) (c : A32Cell) :
    readCell32 (writeCell64 k r v g) c = readCell32 g c := by cases r <;> cases c <;> rfl

/-- A write of an AArch64 register leaves the cells of EL3 that no name reaches. -/
theorem writeCell64_el3 (k : Config) (r : A64Sys) (v : Word) (g : SysRegs) :
    (writeCell64 k r v g).spsrEl3 = g.spsrEl3 ∧ (writeCell64 k r v g).spsrEl3Top = g.spsrEl3Top ∧
      (writeCell64 k r v g).elrEl3 = g.elrEl3 := by cases r <;> exact ⟨rfl, rfl, rfl⟩

/-! ## The bits of an SPSR above bit 63 -/

/-- A write of bits[63:0] leaves the bits above. -/
@[simp] theorem readTop_writeCell64 (k : Config) (r r' : A64Sys) (v : Word) (g : SysRegs) :
    readTop (writeCell64 k r v g) r' = readTop g r' := by cases r <;> cases r' <;> rfl

/-- A write of the bits above bit 63 leaves bits[63:0] of every register. -/
@[simp] theorem readCell64_writeTop (s : State) (r r' : A64Sys) (b : List Bool) (g : SysRegs) :
    readCell64 (s.withSys (writeTop r b g)) r' = readCell64 (s.withSys g) r' := by cases r <;> cases r' <;> rfl

@[simp] theorem readCell32_writeTop (r : A64Sys) (b : List Bool) (g : SysRegs) (c : A32Cell) :
    readCell32 (writeTop r b g) c = readCell32 g c := by cases r <;> cases c <;> rfl

theorem readTop_writeTop_ne {r r' : A64Sys} (h : r' ≠ r) (b : List Bool) (g : SysRegs) :
    readTop (writeTop r b g) r' = readTop g r' := by
  cases r <;> cases r' <;> first | exact absurd rfl h | rfl

/-- The fields a write of the bits above bit 63 leaves. -/
theorem writeTop_frame (r : A64Sys) (b : List Bool) (g : SysRegs) :
    (writeTop r b g).spsrEl3 = g.spsrEl3 ∧ (writeTop r b g).spsrEl3Top = g.spsrEl3Top ∧
      (writeTop r b g).elrEl3 = g.elrEl3 ∧ (writeTop r b g).scrEl3 = g.scrEl3 ∧
      (writeTop r b g).hcrEl2 = g.hcrEl2 := by cases r <;> exact ⟨rfl, rfl, rfl, rfl, rfl⟩

/-- A whole register that was written reads back, in its bits[63:0]. -/
theorem readCell64_writeWhole_same {s : State} {r : A64Sys} {w : Word} (v : Nat) (h : readCell64 s r = some w) :
    readCell64 (s.withSys (writeWhole s.cfg r v s.sys)) r = some (storedValue s.cfg r (BitVec.ofNat 64 v)) := by
  rw [writeWhole, readCell64_writeTop]
  exact readCell64_writeCell64_same _ h

/-- A write of a whole register leaves every other. -/
theorem readCell64_writeWhole_ne {s : State} {r r' : A64Sys} (v : Nat) (h : r' ≠ r) :
    readCell64 (s.withSys (writeWhole s.cfg r v s.sys)) r' = readCell64 s r' := by
  rw [writeWhole, readCell64_writeTop]
  exact readCell64_writeCell64_ne _ h

/-- A whole SPSR that was written reads back in its bits above bit 63; no other register has any. -/
theorem readTop_writeWhole_same (k : Config) (r : A64Sys) (v : Nat) (g : SysRegs) :
    readTop (writeWhole k r v g) r = if r = .spsrEl1 ∨ r = .spsrEl2 then spsrTop k v else [] := by
  cases r <;> simp [writeWhole, writeTop, readTop]

theorem readTop_writeWhole_ne {r r' : A64Sys} (h : r' ≠ r) (k : Config) (v : Nat) (g : SysRegs) :
    readTop (writeWhole k r v g) r' = readTop g r' := by
  rw [writeWhole, readTop_writeTop_ne h, readTop_writeCell64]

theorem readCell32_writeWhole (k : Config) (r : A64Sys) (v : Nat) (g : SysRegs) (c : A32Cell) :
    readCell32 (writeWhole k r v g) c = readCell32 g c := by
  rw [writeWhole, readCell32_writeTop, readCell32_writeCell64]

/-- A write of a whole register leaves the cells of EL3 that no name reaches. -/
theorem writeWhole_el3 (k : Config) (r : A64Sys) (v : Nat) (g : SysRegs) :
    (writeWhole k r v g).spsrEl3 = g.spsrEl3 ∧ (writeWhole k r v g).spsrEl3Top = g.spsrEl3Top ∧
      (writeWhole k r v g).elrEl3 = g.elrEl3 := by cases r <;> exact ⟨rfl, rfl, rfl⟩

@[simp] theorem length_spsrTop (c : Config) (v : Nat) : (spsrTop c v).length = c.spsrWidth - 64 := by simp [spsrTop]

/-! ## AArch32 cells -/

/-- A write of an AArch32 register's own cell leaves the bits of an SPSR above bit 63. -/
@[simp] theorem readTop_writeCell32 (c : A32Cell) (v : Half) (g : SysRegs) (r : A64Sys) :
    readTop (writeCell32 c v g) r = readTop g r := by cases c <;> cases r <;> rfl

theorem readCell32_writeCell32_same (c : A32Cell) (v : Half) (g : SysRegs) :
    readCell32 (writeCell32 c v g) c = v := by cases c <;> rfl

theorem readCell32_writeCell32_ne {c c' : A32Cell} (h : c' ≠ c) (v : Half) (g : SysRegs) :
    readCell32 (writeCell32 c v g) c' = readCell32 g c' := by
  cases c <;> cases c' <;> first | exact absurd rfl h | rfl

/-- A write of an AArch32 register's own cell leaves every AArch64 register. -/
theorem readCell64_writeCell32 (c : A32Cell) (v : Half) (s : State) (r : A64Sys) :
    readCell64 (s.withSys (writeCell32 c v s.sys)) r = readCell64 s r := by cases c <;> cases r <;> rfl

/-- A write of an AArch32 register's own cell leaves the cells of EL3 that no name reaches. -/
theorem writeCell32_el3 (c : A32Cell) (v : Half) (g : SysRegs) :
    (writeCell32 c v g).spsrEl3 = g.spsrEl3 ∧ (writeCell32 c v g).spsrEl3Top = g.spsrEl3Top ∧
      (writeCell32 c v g).elrEl3 = g.elrEl3 := by cases c <;> exact ⟨rfl, rfl, rfl⟩

/-! ## The System register operations -/

theorem execA64Sysrd_next {r : A64Sys} {s t : State} (h : execA64Sysrd r s = .next t) :
    s.curState = .aarch64 ∧ ∃ v k, t = { s with result := some v, draws := k } := by
  obtain ⟨hc, h⟩ := inA64_next h
  refine ⟨hc, ?_⟩
  split at h
  · split at h
    · exact readOwn_next h
    · simp at h
  · split at h
    · simp only [Host.Outcome.next.injEq] at h; subst h; exact ⟨_, s.draws, rfl⟩
    · simp at h

theorem execA32Sysrd_next {a : A32Sys} {s t : State} (h : execA32Sysrd a s = .next t) :
    s.curState = .aarch32 ∧ ∃ v k, t = { s with result := some v, draws := k } := by
  obtain ⟨hc, h⟩ := inA32_next h
  refine ⟨hc, ?_⟩
  split at h
  · exact readTarget_next h
  · simp at h

/-- Everything a write in AArch64 state can do: an AArch32 register's own cell from a higher level, or a register with a
cell of 64 bits. -/
theorem execA64Syswr_next {r : A64Sys} {v : Nat} {s t : State} (h : execA64Syswr r v s = .next t) :
    s.curState = .aarch64 ∧
      ((∃ c, a64OwnCell s r = some c ∧ (cellLevel c).num < s.el.num ∧
          (t = s ∨ t = s.withSys (writeCell32 c (BitVec.ofNat 32 v) s.sys))) ∨
       (∃ w, a64OwnCell s r = none ∧ readCell64 s r = some w ∧ t = s.withSys (writeWhole s.cfg r v s.sys))) := by
  obtain ⟨hc, h⟩ := inA64_next h
  refine ⟨hc, ?_⟩
  split at h
  · rename_i c ho
    split at h
    · rename_i hl; exact .inl ⟨c, ho, hl, writeOwn_next h⟩
    · simp at h
  · rename_i ho
    split at h
    · rename_i w hw
      simp only [Host.Outcome.next.injEq] at h
      exact .inr ⟨w, ho, hw, h.symm⟩
    · simp at h

/-- Everything a write in AArch32 state can do. -/
theorem execA32Syswr_next {a : A32Sys} {v : Half} {s t : State} (h : execA32Syswr a v s = .next t) :
    s.curState = .aarch32 ∧ ∃ g, a32SysTarget s a = some g ∧ writeTarget g v s = .next t := by
  obtain ⟨hc, h⟩ := inA32_next h
  refine ⟨hc, ?_⟩
  split at h
  · exact ⟨_, ‹_›, h⟩
  · simp at h

/-! ## All operations -/

/-- The System registers after a write: unchanged, an own cell written, or an AArch64 register with a cell written, in its
bits[63:0] or as a whole. -/
def SysWritten (s : State) (g : SysRegs) : Prop :=
  g = s.sys ∨ (∃ c v, g = writeCell32 c v s.sys) ∨
    (∃ r v w, readCell64 s r = some w ∧ g = writeCell64 s.cfg r v s.sys) ∨
    (∃ r v w, readCell64 s r = some w ∧ g = writeWhole s.cfg r v s.sys)

/-- What an operation that neither transfers nor sets the mode leaves, and how it can write the System registers. -/
theorem exec_quiet {i : Instr} {s t : State} (h : exec i s = .next t) (ht : isTransfer i = false)
    (hm : ∀ l m, i ≠ .a32Setmode l m) :
    t = { s with x := t.x, vreg := t.vreg, sys := t.sys, result := t.result, draws := t.draws } ∧
      SysWritten s t.sys := by
  cases i with
  | eret => simp [isTransfer] at ht
  | excEntry => simp [isTransfer] at ht
  | excReturn => simp [isTransfer] at ht
  | a32Setmode l m => exact absurd rfl (hm l m)
  | a32Rd n =>
    obtain ⟨k, _, h⟩ := withXNum_next (inA32_next h).2
    simp only [Host.Outcome.next.injEq] at h; subst h; exact ⟨rfl, .inl rfl⟩
  | a32Wr n v =>
    obtain ⟨k, _, h⟩ := withXNum_next (inA32_next h).2
    simp only [Host.Outcome.next.injEq] at h; subst h; exact ⟨rfl, .inl rfl⟩
  | a32Sysrd a =>
    obtain ⟨_, v, k, rfl⟩ := execA32Sysrd_next h; exact ⟨rfl, .inl rfl⟩
  | a64Sysrd a =>
    obtain ⟨_, v, k, rfl⟩ := execA64Sysrd_next h; exact ⟨rfl, .inl rfl⟩
  | a32Syswr a v =>
    obtain ⟨_, g, _, h⟩ := execA32Syswr_next h
    rcases writeTarget_next h with rfl | ⟨c, _, rfl⟩ | ⟨r, w, _, hr, rfl⟩ | ⟨r, w, _, hr, rfl⟩
    · exact ⟨rfl, .inl rfl⟩
    · exact ⟨rfl, .inr (.inl ⟨_, _, rfl⟩)⟩
    · exact ⟨rfl, .inr (.inr (.inl ⟨_, _, _, hr, rfl⟩))⟩
    · exact ⟨rfl, .inr (.inr (.inl ⟨_, _, _, hr, rfl⟩))⟩
  | a64Syswr r v =>
    obtain ⟨_, ⟨c, _, _, rfl | rfl⟩ | ⟨w, _, hr, rfl⟩⟩ := execA64Syswr_next h
    · exact ⟨rfl, .inl rfl⟩
    · exact ⟨rfl, .inr (.inl ⟨_, _, rfl⟩)⟩
    · exact ⟨rfl, .inr (.inr (.inr ⟨_, _, _, hr, rfl⟩))⟩
  | a64Rd | a64Wr | a64Vrd | a64Vwr | a64Drd | a64Srd =>
    have h := (inA64_next h).2
    simp only [Host.Outcome.next.injEq] at h; subst h; exact ⟨rfl, .inl rfl⟩
  | a32Qrd | a32Qwr | a32Drd | a32Dwr | a32Srd | a32Swr =>
    have h := (inA32_next h).2
    simp only [Host.Outcome.next.injEq] at h; subst h; exact ⟨rfl, .inl rfl⟩

/-- Everything `A32.SETMODE` can do (R88). -/
theorem execA32Setmode_next {l : EL} {m : Mode} {s t : State} (h : execA32Setmode l m s = .next t) :
    SetmodeLegal s l m ∧ t = { s with el := l, mode := m } := by
  obtain ⟨hc, h⟩ := inA32_next h
  split at h
  · rename_i hl
    simp only [Host.Outcome.next.injEq] at h
    exact ⟨⟨hc, hl⟩, h.symm⟩
  · simp at h

/-- Everything an exception entry, a return or `ERET` can do: an entry is one of R84, a return one of R85. -/
theorem exec_transfer {i : Instr} {s t : State} (h : exec i s = .next t) (ht : isTransfer i = true) :
    (∃ l p z, i = .excEntry l p ∧ EntryLegal s l ∧ zeroableSet s l = some z ∧ t = enterA64 z l p s) ∨
    (∃ l m p, (∀ l' p', i ≠ .excEntry l' p') ∧ ReturnLegal s l m ∧ t = enterA32 l m p s) := by
  cases i with
  | excEntry l p =>
    obtain ⟨hl, z, hz, e⟩ := takeException_next h
    exact .inl ⟨l, p, z, rfl, hl, hz, e⟩
  | excReturn l st m p =>
    obtain ⟨m', _, _, hl, e⟩ := returnFromException_next h
    exact .inr ⟨_, m', _, by simp, hl, e⟩
  | eret =>
    have h := (inA64_next h).2
    split at h
    · simp at h
    · obtain ⟨m', _, _, hl, e⟩ := returnFromException_next h
      exact .inr ⟨_, m', _, by simp, hl, e⟩
  | _ => simp [isTransfer] at ht

/-! ## The controls and the mode -/

/-- Only a write of the register itself changes SCR_EL3 or HCR_EL2. -/
theorem writeCell64_controls (k : Config) (r : A64Sys) (v : Word) (g : SysRegs) (h : isControl r = false) :
    (writeCell64 k r v g).scrEl3 = g.scrEl3 ∧ (writeCell64 k r v g).hcrEl2 = g.hcrEl2 := by
  cases r <;> first | exact ⟨rfl, rfl⟩ | simp [isControl] at h

theorem writeWhole_controls (k : Config) (r : A64Sys) (v : Nat) (g : SysRegs) (h : isControl r = false) :
    (writeWhole k r v g).scrEl3 = g.scrEl3 ∧ (writeWhole k r v g).hcrEl2 = g.hcrEl2 := by
  cases r <;> first | exact ⟨rfl, rfl⟩ | simp [isControl] at h

theorem writeCell32_controls (c : A32Cell) (v : Half) (g : SysRegs) :
    (writeCell32 c v g).scrEl3 = g.scrEl3 ∧ (writeCell32 c v g).hcrEl2 = g.hcrEl2 := by cases c <;> exact ⟨rfl, rfl⟩

/-- The entry leaves both controls. -/
theorem sysAfterEntry_controls (l : EL) (s : State) :
    (sysAfterEntry l s).scrEl3 = s.sys.scrEl3 ∧ (sysAfterEntry l s).hcrEl2 = s.sys.hcrEl2 := by
  cases l <;> exact ⟨rfl, rfl⟩

/-- A usable level is implemented. -/
theorem levelImplemented_of_usable {s : State} {l : EL} (h : levelUsable s l = true) :
    levelImplemented s.cfg l = true := by
  cases l with
  | el2 =>
    simp only [levelUsable, el2Enabled, Bool.and_eq_true] at h
    exact h.1
  | _ => exact h

/-- Exception levels are told apart by their numbers. -/
theorem num_inj {a b : EL} (h : a.num = b.num) : a = b := by
  revert h; cases a <;> cases b <;> simp [EL.num]

end Sys2Proof.Machine
end

