-- ==== Sys2Proof/Laws/PerInstr.lean ====
section
/-! SUPPORT. The statements made of every operation, one lemma per constructor of `Instr`. -/

namespace Sys2Proof.Laws.OperandsPlain

/-- Every operand token of a well-formed operation stays one token in a line (R77). -/
def Statement (i : Instr) : Prop :=
  i.wellFormed = true → ∀ t ∈ operandTokens i, plainToken t = true

theorem hex (k v : Nat) : plainToken (hexToken k v) = true := plainToken_hexToken k v

theorem dec (b : Nat) (hb : b ≤ 32) (n : Fin b) : plainToken (decToken n.val) = true :=
  plainToken_decToken ⟨n.val, by omega⟩

theorem eret : Statement .eret := by simp [Statement, operandTokens]
theorem a32Rd (n) : Statement (.a32Rd n) := by simp [Statement, operandTokens, dec 16]
theorem a32Wr (n v) : Statement (.a32Wr n v) := by simp [Statement, operandTokens, dec 16, hex]
theorem a64Rd (n) : Statement (.a64Rd n) := by simp [Statement, operandTokens, dec 31]
theorem a64Wr (n v) : Statement (.a64Wr n v) := by simp [Statement, operandTokens, dec 31, hex]
theorem a32Qrd (n) : Statement (.a32Qrd n) := by simp [Statement, operandTokens, dec 16]
theorem a32Qwr (n v) : Statement (.a32Qwr n v) := by simp [Statement, operandTokens, dec 16, hex]
theorem a32Drd (m) : Statement (.a32Drd m) := by simp [Statement, operandTokens, dec 32]
theorem a32Dwr (m v) : Statement (.a32Dwr m v) := by simp [Statement, operandTokens, dec 32, hex]
theorem a32Srd (m) : Statement (.a32Srd m) := by simp [Statement, operandTokens, dec 32]
theorem a32Swr (m v) : Statement (.a32Swr m v) := by simp [Statement, operandTokens, dec 32, hex]
theorem a64Vrd (n) : Statement (.a64Vrd n) := by simp [Statement, operandTokens, dec 32]
theorem a64Vwr (n v) : Statement (.a64Vwr n v) := by simp [Statement, operandTokens, dec 32, hex]
theorem a64Drd (n) : Statement (.a64Drd n) := by simp [Statement, operandTokens, dec 32]
theorem a64Srd (n) : Statement (.a64Srd n) := by simp [Statement, operandTokens, dec 32]
theorem a32Sysrd (a) : Statement (.a32Sysrd a) := by
  intro h; simpa [operandTokens] using plainToken_a32SysToken a h
theorem a32Syswr (a v) : Statement (.a32Syswr a v) := by
  intro h; simpa [operandTokens, hex] using plainToken_a32SysToken a h
theorem a64Sysrd (r) : Statement (.a64Sysrd r) := by
  intro h; simpa [operandTokens] using plainToken_a64SysToken r h
theorem a64Syswr (r v) : Statement (.a64Syswr r v) := by
  intro h
  simp only [Instr.wellFormed, Bool.and_eq_true] at h
  simpa [operandTokens, plainToken_wideToken] using plainToken_a64SysToken r h.1
theorem excEntry (t p) : Statement (.excEntry t p) := by simp [Statement, operandTokens, hex, plainToken_elName]
theorem excReturn (t st m p) : Statement (.excReturn t st m p) := by
  simp [Statement, operandTokens, hex, plainToken_elName, plainToken_stateName, plainToken_modeToken]
theorem a32Setmode (t m) : Statement (.a32Setmode t m) := by
  have := plainToken_modeToken (some m)
  simpa [Statement, operandTokens, plainToken_elName, modeToken] using fun _ => this

end Sys2Proof.Laws.OperandsPlain
end

