-- ==== Sys2Proof/Tests/Slice0.lean ====
section
/-! SUPPORT. Tests: the smoke test of `WellFormed`, the decoding of one written-out item per operation, one or two small
facts per operation (the expected values are those of 95_test_vectors.md and of the worked examples of the rules),
and, for each statement with hypotheses, a state and operands that meet them. -/

namespace Sys2Proof.Tests

open Sys2Proof Sys2Proof.Machine

/-! ## Well-formedness: each check refuses an ill-formed term -/

theorem test_wf_a32Rd_pc : (Instr.a32Rd 15).wellFormed = false := by decide
theorem test_wf_a32Wr_pc : (Instr.a32Wr 15 0).wellFormed = false := by decide
theorem test_wf_a32Sysrd_reserved_name : (Instr.a32Sysrd (.other "SPSR_svc".toList)).wellFormed = false := by decide
theorem test_wf_a32Syswr_no_name : (Instr.a32Syswr (.other []) 0).wellFormed = false := by decide
theorem test_wf_a64Sysrd_reserved_name : (Instr.a64Sysrd (.other "FPSR".toList)).wellFormed = false := by decide
theorem test_wf_a64Syswr_bad_character : (Instr.a64Syswr (.other "A B".toList) 0).wellFormed = false := by decide
theorem test_wf_a64Syswr_too_wide : (Instr.a64Syswr .spsrAbt 0x100000000).wellFormed = false := by decide
theorem test_wf_excEntry_el0 : (Instr.excEntry .el0 0).wellFormed = false := by decide
theorem test_wf_excReturn_el3 : (Instr.excReturn .el3 .aarch32 (some .svc) 0).wellFormed = false := by decide
theorem test_wf_excReturn_no_mode : (Instr.excReturn .el1 .aarch32 none 0).wellFormed = false := by decide
theorem test_wf_excReturn_spare_mode : (Instr.excReturn .el1 .aarch64 (some .svc) 0).wellFormed = false := by decide
theorem test_wf_a64Syswr_65_bits : (Instr.a64Syswr .hcrEl2 0x10000000000000000).wellFormed = false := by decide
theorem test_wf_boundary_accepted :
    (Instr.a32Rd 14).wellFormed = true ∧ (Instr.a64Syswr .spsrAbt 0xFFFFFFFF).wellFormed = true ∧
      (Instr.excReturn .el0 .aarch64 none 0).wellFormed = true ∧ (Instr.a32Setmode .el3 .svc).wellFormed = true ∧
      (Instr.a32Sysrd (.other "CNTP_CTL".toList)).wellFormed = true := by decide

/-! ## Decoding: one item per operation, written out from R72 and from the operand order of R70 -/

/-- R72, field by field: 1101011 0100 11111 000000 11111 00000. -/
theorem test_decode_eret : decodeWord 0b11010110100111110000001111100000#32 = .ok .eret := by decide
theorem test_decode_eret_neighbour : decodeWord 0b11010110100111110000001111100001#32 = .error .unknownWord := by decide
theorem test_decode_eret_table : decodeTableWord 32 0xD69F03E0 = some .eret := by decide
theorem test_decode_eret_line : decodeLine "ERET".toList = .ok .eret := by decide
theorem test_decode_a32Rd : decodeLine "A32.RD 13 -> 0x20000000".toList = .ok (.a32Rd 13) := by decide
theorem test_decode_a32Wr : decodeLine "A32.WR 14, 0x0000BEEF ; LR_svc".toList = .ok (.a32Wr 14 0xBEEF#32) := by decide
theorem test_decode_a64Rd : decodeLine "A64.RD 30".toList = .ok (.a64Rd 30) := by decide
theorem test_decode_a64Wr : decodeLine "A64.WR 0, 0x01234567_89ABCDEF".toList = .ok (.a64Wr 0 0x0123456789ABCDEF#64) := by
  decide
theorem test_decode_a32Qrd : decodeLine "A32.QRD 15".toList = .ok (.a32Qrd 15) := by decide
theorem test_decode_a32Qwr : decodeLine "A32.QWR 3, 0xFFEEDDCC_BBAA9988_77665544_33221100".toList =
    .ok (.a32Qwr 3 0xFFEEDDCCBBAA99887766554433221100#128) := by decide
theorem test_decode_a32Drd : decodeLine "A32.DRD 31".toList = .ok (.a32Drd 31) := by decide
theorem test_decode_a32Dwr : decodeLine "A32.DWR 31, 0x01020304_05060708".toList =
    .ok (.a32Dwr 31 0x0102030405060708#64) := by decide
theorem test_decode_a32Srd : decodeLine "A32.SRD 31".toList = .ok (.a32Srd 31) := by decide
theorem test_decode_a32Swr : decodeLine "A32.SWR 4, 0xDEADBEEF".toList = .ok (.a32Swr 4 0xDEADBEEF#32) := by decide
theorem test_decode_a64Vrd : decodeLine "A64.VRD 16".toList = .ok (.a64Vrd 16) := by decide
theorem test_decode_a64Vwr : decodeLine "A64.VWR 31, 0x1".toList = .ok (.a64Vwr 31 1#128) := by decide
theorem test_decode_a64Drd : decodeLine "A64.DRD 1 -> 0x77665544_DEADBEEF".toList = .ok (.a64Drd 1) := by decide
theorem test_decode_a64Srd : decodeLine "A64.SRD 1".toList = .ok (.a64Srd 1) := by decide
theorem test_decode_a32Sysrd : decodeLine "A32.SYSRD ELR_hyp".toList = .ok (.a32Sysrd .elrHyp) := by decide
theorem test_decode_a32Syswr : decodeLine "A32.SYSWR SPSR_fiq, 0x00002000".toList =
    .ok (.a32Syswr .spsrFiq 0x2000#32) := by decide
theorem test_decode_a64Sysrd : decodeLine "A64.SYSRD SPSR_abt".toList = .ok (.a64Sysrd .spsrAbt) := by decide
theorem test_decode_a64Syswr : decodeLine "A64.SYSWR SPSR_EL1, 0x000001D3".toList =
    .ok (.a64Syswr .spsrEl1 0x1D3) := by decide
theorem test_decode_excEntry : decodeLine "EXC_ENTRY 3, 0x0".toList = .ok (.excEntry .el3 0#64) := by decide
theorem test_decode_excReturn : decodeLine "EXC_RETURN 0, AArch32, usr, 0x00010000".toList =
    .ok (.excReturn .el0 .aarch32 (some .usr) 0x10000#64) := by decide
/-- T8.6 writes a dash where no mode is named. -/
theorem test_decode_excReturn_dash : decodeLine "EXC_RETURN 1, AArch64, -, 0x0".toList =
    .ok (.excReturn .el1 .aarch64 none 0#64) := by decide
theorem test_decode_setmode : decodeLine "A32.SETMODE 1, irq".toList = .ok (.a32Setmode .el1 .irq) ∧
    decodeLine "A32.SETMODE 3, svc".toList = .ok (.a32Setmode .el3 .svc) := by decide

/-! ## States: the configurations of 95_test_vectors.md -/

/-- The parameters with EL3 and EL2 present or absent. -/
def config (e3 e2 : Bool) : Config := { resetConfig with haveEL3 := e3, haveEL2 := e2 }

/-- A state of part 3 and part 5 of the vectors: `x[n] = 0xA5A5A5A5_000000nn`, and the three cells of part 5. -/
def start (c : Config) (scr hcr : Word) (cur : ExecState) (l : EL) (m : Mode) : State :=
  { State.reset with
    cfg := c
    curState := cur
    el := l
    mode := m
    x := Vector.ofFn fun n => 0xA5A5A5A500000000#64 + BitVec.ofNat 64 n.val
    vreg := Vector.ofFn fun n =>
      if n.val = 1 then 0xFFEEDDCCBBAA99887766554433221100#128
      else if n.val = 15 then 0x0F0E0D0C0B0A09080706050403020100#128
      else if n.val = 16 then 0x16161616161616161616161616161616#128
      else 0#128
    sys := { SysRegs.reset with scrEl3 := scr, hcrEl2 := hcr, elrEl2 := 0x0000FFFF00001000#64, spsrAbt := 0x197#32 } }

/-- K11: RW bits (1, 1), Non-secure. -/
def k11 (cur : ExecState) (l : EL) (m : Mode) : State := start (config true true) 0x401#64 0x80000000#64 cur l m
/-- K10: RW bits (1, 0). -/
def k10 (cur : ExecState) (l : EL) (m : Mode) : State := start (config true true) 0x401#64 0#64 cur l m
/-- K00: RW bits (0, 0). -/
def k00 (cur : ExecState) (l : EL) (m : Mode) : State := start (config true true) 1#64 0#64 cur l m
/-- K0x: RW bits (0, 1). -/
def k0x (cur : ExecState) (l : EL) (m : Mode) : State := start (config true true) 1#64 0x80000000#64 cur l m
/-- S0 and S1c: Secure, SCR_EL3.RW 0 and 1. -/
def s0 (l : EL) (m : Mode) : State := start (config true true) 0#64 0#64 .aarch32 l m
def s1c (l : EL) (m : Mode) : State := start (config true true) 0x400#64 0#64 .aarch32 l m
/-- N2-0 and N2-1: no EL2. -/
def n20 (l : EL) (m : Mode) : State := start (config true false) 0#64 0#64 .aarch32 l m
def n21 (l : EL) (m : Mode) : State := start (config true false) 0x400#64 0#64 .aarch32 l m
/-- N3-0 and N3-1: no EL3, EL2 the highest level. -/
def n30 (l : EL) (m : Mode) : State := start (config false true) 0#64 0#64 .aarch32 l m
def n31 (l : EL) (m : Mode) : State := start (config false true) 0#64 0x80000000#64 .aarch32 l m
/-- N23: neither. -/
def n23 (l : EL) (m : Mode) : State := start (config false false) 0#64 0#64 .aarch32 l m

/-- A state with SME and PSTATE.SM and PSTATE.ZA stored as 1 (part 7). -/
def withSme (s : State) : State :=
  { s with
    cfg := { s.cfg with haveSME := true, sveSizes := [3, 1], zaBits := 2, smFixedRegBits := 5#128, smFixedFpsr := 9#64 }
    psSM := true
    psZA := true
    sveState := [[false, false, false], [true]]
    zaStorage := [true, false] }

/-- A state in which EL1 does not support AArch32 (R133). -/
def noA32El1 (s : State) : State := { s with cfg := { s.cfg with a32El1 := false } }

/-- A state with one entry added to `SysMap`. -/
def withMap (s : State) (e : SysMapEntry) : State := { s with cfg := { s.cfg with sysMapExt := [e] } }

/-- A state in which `SysMap` gives HCR a cell of its own. -/
def withHcr (s : State) : State := withMap s { name := .hcr, bank := none, target := .own .hcr }

/-- A state whose SPSRs have 72 bits. -/
def wideSpsr (s : State) : State :=
  { s with
    cfg := { s.cfg with spsrWidth := 72 }
    sys := { s.sys with
      spsrEl1Top := List.replicate 8 false, spsrEl2Top := List.replicate 8 false, spsrEl3Top := List.replicate 8 false } }

/-- A state with the environment's answer to `ERET`. -/
def answering (s : State) (a : ReturnArgs) : State := { s with cfg := { s.cfg with returns := { rows := [], otherwise := a } } }

/-- An EL3 that uses AArch32, in Monitor mode. -/
def a32El3 : State :=
  start { config true true with topState := .aarch32, a32El3 := true } 0#64 0#64 .aarch32 .el3 .mon

/-- Does the outcome go on? -/
def goesOn : Outcome → Bool
  | .next _ => true
  | _ => false

/-- The refusal of an outcome. -/
def refusal : Outcome → Option Refusal
  | .refused r => some r
  | _ => none

/-- A field of the next state. -/
def after {α : Type} (f : State → α) : Outcome → Option α
  | .next t => some (f t)
  | _ => none

/-- An outcome that goes on answers a next state. -/
theorem next_of_goesOn {o : Outcome} (h : goesOn o = true) : ∃ t, o = .next t := by
  cases o with
  | next t => exact ⟨t, rfl⟩
  | fault r => simp [goesOn] at h
  | refused r => simp [goesOn] at h

/-! ## Levels and tables -/

/-- The column "state_of" of the configuration table of 95_test_vectors.md, and T6.14. -/
theorem test_stateOf_configurations :
    [k11 .aarch64 .el3 .usr, k10 .aarch64 .el3 .usr, k00 .aarch64 .el3 .usr, k0x .aarch64 .el3 .usr].map
        (fun s => (stateOf s .el3, stateOf s .el2, stateOf s .el1)) =
      [(.aarch64, .aarch64, .aarch64), (.aarch64, .aarch64, .aarch32), (.aarch64, .aarch32, .aarch32),
       (.aarch64, .aarch32, .aarch32)] ∧
    [s0 .el1 .svc, s1c .el0 .usr, n20 .el1 .und, n21 .el0 .usr, n30 .el1 .irq, n31 .el0 .usr, n23 .el0 .usr].map
        (fun s => stateOf s .el1) =
      [.aarch32, .aarch64, .aarch32, .aarch64, .aarch32, .aarch64, .aarch64] := by decide

/-- T4.1 to T4.19: `ZeroableSet` by configuration and target. -/
theorem test_zeroableSet_vectors :
    [(k11 .aarch32 .el0 .usr, EL.el1), (k11 .aarch32 .el0 .usr, .el2), (k11 .aarch32 .el0 .usr, .el3),
     (s1c .el0 .usr, .el3), (s1c .el0 .usr, .el1), (n21 .el0 .usr, .el1), (n21 .el0 .usr, .el3),
     (n31 .el0 .usr, .el1), (n31 .el0 .usr, .el2), (n23 .el0 .usr, .el1)].map (fun p => zeroableSet p.1 p.2) =
      List.replicate 10 (some [(0, 14)]) ∧
    [(k10 .aarch32 .el1 .svc, EL.el2), (k10 .aarch32 .el0 .usr, .el2), (k10 .aarch32 .el1 .abt, .el3),
     (n30 .el1 .irq, .el2)].map (fun p => zeroableSet p.1 p.2) = List.replicate 4 (some [(0, 14), (16, 30)]) ∧
    [k00 .aarch32 .el2 .hyp, k00 .aarch32 .el1 .svc, k0x .aarch32 .el1 .svc, s0 .el1 .svc, n20 .el1 .und].map
      (zeroableSet · .el3) = List.replicate 5 (some [(0, 30)]) := by decide

/-! ## General-purpose registers (part 3) -/

/-- T3.2, T3.4. -/
theorem test_a32Rd_banked :
    after State.result (exec (.a32Rd 13) (k10 .aarch32 .el1 .svc)) = some (some (.bits32 0x13#32)) ∧
    after State.result (exec (.a32Rd 8) (k10 .aarch32 .el1 .fiq)) = some (some (.bits32 0x18#32)) := by decide
/-- T3.11, T3.13. -/
theorem test_a32Rd_refused :
    refusal (exec (.a32Rd 15) (k10 .aarch32 .el1 .svc)) = some .pcAsGpr ∧
    refusal (exec (.a32Rd 0) (k10 .aarch64 .el2 .usr)) = some .wrongState := by decide
/-- T3.8. -/
theorem test_a32Wr_low_half :
    after (fun t => (readX t 20, readX t 14)) (exec (.a32Wr 14 0xFFFFFFFF#32) (k10 .aarch32 .el1 .abt)) =
      some (0xA5A5A5A5FFFFFFFF#64, 0xA5A5A5A50000000E#64) := by decide
/-- T3.10: the write in FIQ mode goes to x[26]. -/
theorem test_a32Wr_fiq :
    after (fun t => (readX t 26, readX t 10)) (exec (.a32Wr 10 2#32) (k10 .aarch32 .el1 .fiq)) =
      some (0xA5A5A5A500000002#64, 0xA5A5A5A50000000A#64) := by decide
/-- T3.14, T3.12. -/
theorem test_a64Rd :
    after State.result (exec (.a64Rd 20) (k10 .aarch64 .el2 .usr)) = some (some (.bits64 0xA5A5A5A500000014#64)) ∧
    refusal (exec (.a64Rd 0) (k10 .aarch32 .el1 .svc)) = some .wrongState := by decide
/-- T3.15. -/
theorem test_a64Wr :
    after (readX · 30) (exec (.a64Wr 30 0x0123456789ABCDEF#64) (k10 .aarch64 .el0 .usr)) =
      some 0x0123456789ABCDEF#64 := by decide

/-! ## SIMD and floating-point registers (part 5) -/

/-- T5.1. -/
theorem test_a32Qrd : after State.result (exec (.a32Qrd 1) (k10 .aarch32 .el1 .svc)) =
    some (some (.bits128 0xFFEEDDCCBBAA99887766554433221100#128)) := by decide
/-- The worked example of R110. -/
theorem test_a32Qwr : after (readV · 15) (exec (.a32Qwr 15 7#128) (k10 .aarch32 .el1 .svc)) = some 7#128 := by decide
/-- T5.2, T5.3, T5.5. -/
theorem test_a32Drd : [2, 3, 30, 31].map (fun m => after State.result (exec (.a32Drd m) (k10 .aarch32 .el1 .svc))) =
    [0x7766554433221100#64, 0xFFEEDDCCBBAA9988#64, 0x0706050403020100#64, 0x0F0E0D0C0B0A0908#64].map
      (fun v => some (some (.bits64 v))) := by decide
/-- T5.8. -/
theorem test_a32Dwr : after (readV · 1) (exec (.a32Dwr 3 0x1122334455667788#64) (k10 .aarch32 .el1 .svc)) =
    some 0x11223344556677887766554433221100#128 := by decide
/-- T5.4. -/
theorem test_a32Srd : [4, 5, 6, 7].map (fun m => after State.result (exec (.a32Srd m) (k10 .aarch32 .el1 .svc))) =
    [0x33221100#32, 0x77665544#32, 0xBBAA9988#32, 0xFFEEDDCC#32].map (fun v => some (some (.bits32 v))) := by decide
/-- T5.7. -/
theorem test_a32Swr : after (readV · 1) (exec (.a32Swr 5 0xAABBCCDD#32) (k10 .aarch32 .el1 .svc)) =
    some 0xFFEEDDCCBBAA9988AABBCCDD33221100#128 := by decide
/-- T5.15. -/
theorem test_a64Vrd : after State.result (exec (.a64Vrd 16) (k10 .aarch64 .el2 .usr)) =
    some (some (.bits128 0x16161616161616161616161616161616#128)) := by decide
theorem test_a64Vwr : after (fun t => (readV t 31, readV t 1)) (exec (.a64Vwr 31 3#128) (k10 .aarch64 .el2 .usr)) =
    some (3#128, 0xFFEEDDCCBBAA99887766554433221100#128) := by decide
/-- T5.11, T5.12. -/
theorem test_a64Drd : after State.result (exec (.a64Drd 1) (k10 .aarch64 .el2 .usr)) =
    some (some (.bits64 0x7766554433221100#64)) := by decide
theorem test_a64Srd : after State.result (exec (.a64Srd 1) (k10 .aarch64 .el2 .usr)) =
    some (some (.bits32 0x33221100#32)) := by decide

/-! ## System registers (part 6) -/

/-- T6.3, its read; T6.13. -/
theorem test_a32Sysrd :
    after State.result (exec (.a32Sysrd .elrHyp) (k00 .aarch32 .el2 .hyp)) = some (some (.bits32 0x1000#32)) ∧
    refusal (exec (.a32Sysrd .dfar) (k00 .aarch32 .el2 .hyp)) = some .unmappedSysreg := by decide
/-- T6.3, its write. -/
theorem test_a32Syswr : after (fun t => t.sys.elrEl2) (exec (.a32Syswr .elrHyp 0x2000#32) (k00 .aarch32 .el2 .hyp)) =
    some 0x0000FFFF00002000#64 := by decide
/-- T6.8, T6.9. -/
theorem test_a64Sysrd_banked :
    after State.result (exec (.a64Sysrd .spsrAbt) (k10 .aarch64 .el2 .usr)) = some (some (.bits32 0x197#32)) ∧
    refusal (exec (.a64Sysrd .spsrAbt) (k11 .aarch64 .el1 .usr)) = some .unmappedSysreg := by decide
/-- T6.11, where the registers are configured to read zero; a write has no effect (R133). -/
theorem test_a64Sysrd_res0 :
    after State.result (exec (.a64Sysrd .spsrIrq)
      { noA32El1 (k10 .aarch64 .el2 .usr) with
        cfg := { (noA32El1 (k10 .aarch64 .el2 .usr)).cfg with res0ReadsZero := true } }) =
      some (some (.bits32 0#32)) ∧
    after (fun t => t.sys.spsrAbt) (exec (.a64Syswr .spsrAbt 1) (noA32El1 (k10 .aarch64 .el2 .usr))) =
      some 0x197#32 := by decide
/-- Step 5 of P1; an SPSR of 32 bits keeps no higher bit (R41). -/
theorem test_a64Syswr :
    after (fun t => t.sys.spsrEl1) (exec (.a64Syswr .spsrEl1 0xFF000001D3) (k10 .aarch64 .el2 .usr)) =
      some 0x1D3#64 ∧
    after (fun t => stateOf t .el1) (exec (.a64Syswr .hcrEl2 0x80000000) (k10 .aarch64 .el2 .usr)) =
      some .aarch64 := by decide

/-- R4 P7: an SPSR of 72 bits holds and reads back all of them. -/
theorem test_a64Syswr_wide_spsr :
    after (fun t => after State.result (exec (.a64Sysrd .spsrEl2) t))
        (exec (.a64Syswr .spsrEl2 0xF5A0000000000000001) (wideSpsr (k10 .aarch64 .el2 .usr))) =
      some (some (some (.wide 1#64 [false, true, false, true, true, false, true, false]))) := by decide
/-- R129: AArch64 code above the level of HCR reads it in its own cell; code at that level does not. -/
theorem test_a64Sysrd_own_cell :
    after State.result (exec (.a64Sysrd (.other "HCR".toList)) (withHcr (k00 .aarch64 .el3 .usr))) =
      some (some (.bits32 0#32)) ∧
    refusal (exec (.a64Sysrd (.other "HCR".toList)) (withHcr (k10 .aarch64 .el2 .usr))) = some .unmappedSysreg := by decide

/-! ## Transfers (parts 4, 7 and 8) -/

/-- T4.4: X15 is retained in full; the control state after. -/
theorem test_excEntry_retained :
    after (fun t => (t.curState, t.el, t.pc, readX t 15)) (exec (.excEntry .el2 0x80#64) (k10 .aarch32 .el1 .svc)) =
      some (.aarch64, .el2, 0x80#64, 0xA5A5A5A50000000F#64) := by decide
/-- The worked example of R84 (K00, LR_abt): two outcomes and no other. -/
theorem test_excEntry_drawn :
    ∃ t, exec (.excEntry .el3 0#64) (k00 .aarch32 .el1 .abt) = .next t ∧
      (readX t 20 = 0xA5A5A5A500000014#64 ∨ readX t 20 = 0x0000000000000014#64) := by
  refine ⟨_, takeException_of_legal (t := .el3) (s := k00 .aarch32 .el1 .abt) (z := [(0, 30)]) _ (by decide) (by decide), ?_⟩
  have h : readX (enterA64 [(0, 30)] .el3 0#64 (k00 .aarch32 .el1 .abt)) 20 =
      drawUpper (Config.upperCleared 0 20) 0xA5A5A5A500000014#64 := by rw [enterA64_eq]; rfl
  rw [h]
  rcases drawUpper_cases (Config.upperCleared 0 20) 0xA5A5A5A500000014#64 with h | h
  · exact .inl h
  · exact .inr (h.trans (by decide))
/-- T4.7, T4.10, T4.20, T4.21. -/
theorem test_excEntry_refused :
    refusal (exec (.excEntry .el1 0#64) (k10 .aarch32 .el0 .usr)) = some .outsideSpec ∧
    refusal (exec (.excEntry .el2 0#64) (k00 .aarch32 .el1 .svc)) = some .outsideSpec ∧
    refusal (exec (.excEntry .el3 0#64) (k11 .aarch64 .el1 .usr)) = some .outsideSpec ∧
    refusal (exec (.excEntry .el0 0#64) (k10 .aarch32 .el1 .svc)) = some .illegalStateChange := by decide
/-- T8.1, T8.14: bits[31:0] of the new pc are kept, and no cell of `x` changes. -/
theorem test_excReturn :
    after (fun t => (t.curState, t.el, t.mode, t.pc, readX t 18))
      (exec (.excReturn .el1 .aarch32 (some .svc) 0xFFFFFFFF00008001#64) (k10 .aarch64 .el2 .usr)) =
      some (.aarch32, .el1, .svc, 0x8001#64, 0xA5A5A5A500000012#64) := by decide
/-- T8.2, T8.3, T8.5, T8.8, T8.7. -/
theorem test_excReturn_refused :
    [exec (.excReturn .el1 .aarch32 (some .hyp) 0#64) (k10 .aarch64 .el2 .usr),
     exec (.excReturn .el1 .aarch32 (some .svc) 0#64) (k11 .aarch64 .el2 .usr),
     exec (.excReturn .el1 .aarch32 (some .svc) 0#64) (k11 .aarch64 .el1 .usr),
     exec (.excReturn .el1 .aarch32 (some .svc) 0#64) (noA32El1 (k10 .aarch64 .el2 .usr)),
     exec (.excReturn .el2 .aarch32 (some .hyp) 0#64) (k10 .aarch32 .el1 .svc)].map refusal =
      List.replicate 5 (some .illegalStateChange) := by decide
/-- T7.3: with PSTATE.SM = 1 the return resets `vreg` and FPSR, and keeps both bits and ZA storage. -/
theorem test_excReturn_resets_sve :
    after (fun t => (readV t 1, readV t 20, t.sveState, t.sys.fpsr))
      (exec (.excReturn .el0 .aarch32 (some .usr) 0#64) (withSme (k11 .aarch64 .el1 .usr))) =
      some (5#128, 5#128, [[true, false, true], [true]], 9#64) ∧
    after (fun t => (t.psSM, effectiveSM t, t.psZA, t.zaStorage))
      (exec (.excReturn .el0 .aarch32 (some .usr) 0#64) (withSme (k11 .aarch64 .el1 .usr))) =
      some (true, false, true, [true, false]) := by decide
/-- T8.13: the word of `ERET` as the next item of the step. -/
theorem test_eret :
    after (fun t => (t.curState, t.el, t.mode, t.pc))
      (step ((answering (k10 .aarch64 .el2 .usr)
        { target := .el1, state := .aarch32, mode := some .svc, newPc := 0x8000#64 }).withFetchWord 32 0xD69F03E0)) =
      some (.aarch32, .el1, .svc, 0x8000#64) := by decide
/-- T8.12. -/
theorem test_eret_el0 : refusal (exec .eret (k11 .aarch64 .el0 .usr)) = some .outsideSpec := by decide
/-- T8.9, T8.11. -/
theorem test_setmode :
    after (fun t => (t.el, t.mode)) (exec (.a32Setmode .el1 .irq) (k10 .aarch32 .el1 .svc)) = some (.el1, .irq) ∧
    after (fun t => (t.el, t.mode)) (exec (.a32Setmode .el2 .hyp) (k00 .aarch32 .el1 .svc)) = some (.el2, .hyp) := by
  decide
/-- R88 names no highest target: an EL3 that is using AArch32 (R70). -/
theorem test_setmode_el3 : after (fun t => (t.el, t.mode)) (exec (.a32Setmode .el3 .und) a32El3) = some (.el3, .und) := by
  decide
/-- T8.10. -/
theorem test_setmode_refused : refusal (exec (.a32Setmode .el2 .hyp) (k10 .aarch32 .el1 .svc)) = some .wrongState := by
  decide
/-- S1, T2.2. -/
theorem test_esrRegNum : esrRegNum resetConfig .abt 14 = .ok 0b10100#5 ∧ esrRegNum resetConfig .fiq 12 = .ok 28#5 ∧
    esrRegNum resetConfig .hyp 14 = .ok 14#5 ∧ esrRegNum resetConfig .irq 12 = .ok 12#5 := by decide
/-- R4 P13: a `Bank` in which Hyp mode has an R14 of its own cell, and one that would give Monitor mode an R13. -/
theorem test_bank_parameter :
    xNum { resetConfig with bankRows := [{ mode := .hyp, n := 14, reg := .lrAbt }] } .hyp 14 = .ok 20 ∧
    xNum { resetConfig with bankRows := [{ mode := .mon, n := 13, reg := .spUsr }] } .mon 13 = .error .monitorBank := by
  decide

/-! ## For each statement with hypotheses, a state and operands that meet them

A clause of a statement has a conjunct of its own; the values are at the ends of the ranges. -/

/-- A state whose next item is a line. -/
def presenting (s : State) (text : String) : State := { s with input := [.line text.toList] }

/-- A state with the register `FAR_EL1` supplied, and DFAR mapped into its low or its high half (R124). -/
def packed (hi : Bool) : State :=
  { withMap (k00 .aarch32 .el2 .hyp)
      { name := .dfar, bank := none,
        target := if hi then .high (.other "FAR_EL1".toList) else .low (.other "FAR_EL1".toList) } with
    sys := { SysRegs.reset with scrEl3 := 1#64, ext := [("FAR_EL1".toList, 0x1122334455667788#64)] } }

theorem witness_DecodeInvertsEncode :
    (Instr.a32Wr 14 0xFFFFFFFF#32).wellFormed = true ∧ (Instr.a32Syswr (.other "SCTLR".toList) 0).wellFormed = true ∧
    (Instr.a64Syswr .spsrFiq 0xFFFFFFFF).wellFormed = true ∧ (Instr.excEntry .el3 0).wellFormed = true ∧
    (Instr.excReturn .el2 .aarch32 (some .hyp) 0).wellFormed = true ∧ (Instr.a32Setmode .el0 .usr).wellFormed = true := by
  decide

/-- An operation that reads, after it has read, and one that does not. -/
theorem witness_TraceLineReadsBack :
    (Instr.a64Rd 20).wellFormed = true ∧ (k10 .aarch64 .el2 .usr).result = none ∧
    after (traceLine (.a64Rd 20)) (exec (.a64Rd 20) (k10 .aarch64 .el2 .usr)) =
      some "A64.RD 20 -> 0xA5A5A5A500000014".toList ∧
    (Instr.excEntry .el3 0).wellFormed = true := by decide

theorem witness_StepRunsDecodedOperation :
    (presenting State.reset "A64.RD 0").input = .line "A64.RD 0".toList :: [] ∧
    decode (.line "A64.RD 0".toList) = .ok (.a64Rd 0) ∧ goesOn (step (presenting State.reset "A64.RD 0")) = true := by
  decide

theorem witness_StepRefusesWhatIsNoOperation :
    (presenting State.reset "A64.RD 31").input = .line "A64.RD 31".toList :: [] ∧
    decode (.line "A64.RD 31".toList) = .error .operandRange ∧ State.reset.input = [] := by decide

theorem witness_WrongStateRefused :
    neededState (.a32Rd 0) = some .aarch32 ∧ (k10 .aarch64 .el2 .usr).curState ≠ .aarch32 ∧
    neededState (.a64Rd 0) = some .aarch64 ∧ (k10 .aarch32 .el1 .svc).curState ≠ .aarch64 := by decide

/-- EL3 in AArch64 state, without EL2; EL2 in AArch64 state, without EL3. -/
def noEl2At3 : State := start (config true false) 0#64 0#64 .aarch64 .el3 .usr
def noEl3At2 : State := start (config false true) 0#64 0#64 .aarch64 .el2 .usr

/-- A register write, a return and an entry. -/
theorem witness_StepKeepsInvariant :
    (Inv (presenting (k10 .aarch64 .el2 .usr) "A64.SYSWR SPSR_EL1, 0xFF000001D3") ∧
      ∃ t, step (presenting (k10 .aarch64 .el2 .usr) "A64.SYSWR SPSR_EL1, 0xFF000001D3") = .next t) ∧
    (Inv (withSme (presenting (k11 .aarch64 .el1 .usr) "EXC_RETURN 0, AArch32, usr, 0x0")) ∧
      ∃ t, step (withSme (presenting (k11 .aarch64 .el1 .usr) "EXC_RETURN 0, AArch32, usr, 0x0")) = .next t) ∧
    (Inv (presenting (k00 .aarch32 .el1 .svc) "EXC_ENTRY 3, 0x0") ∧
      ∃ t, step (presenting (k00 .aarch32 .el1 .svc) "EXC_ENTRY 3, 0x0") = .next t) := by
  refine ⟨⟨?_, next_of_goesOn (by decide)⟩, ⟨?_, next_of_goesOn (by decide)⟩, ⟨?_, next_of_goesOn (by decide)⟩⟩ <;>
    constructor <;> decide

theorem witness_StepKeepsLevelAgreement :
    (∃ i s', fetch (presenting (k10 .aarch64 .el2 .usr) "EXC_RETURN 1, AArch32, svc, 0x0") = .ok (i, s') ∧
      writesControl (presenting (k10 .aarch64 .el2 .usr) "EXC_RETURN 1, AArch32, svc, 0x0") i = false) ∧
    LevelAgrees (presenting (k10 .aarch64 .el2 .usr) "EXC_RETURN 1, AArch32, svc, 0x0") ∧
    ∃ t, step (presenting (k10 .aarch64 .el2 .usr) "EXC_RETURN 1, AArch32, svc, 0x0") = .next t := by
  refine ⟨⟨.excReturn .el1 .aarch32 (some .svc) 0#64, { presenting (k10 .aarch64 .el2 .usr) "" with input := [] },
    by decide, by decide⟩, by decide, next_of_goesOn (by decide)⟩

theorem witness_ParametersNeverChange : ∃ t, exec (.excEntry .el3 0) (k00 .aarch32 .el1 .svc) = .next t :=
  next_of_goesOn (by decide)

theorem witness_LowerLevelsFollowAArch32 :
    EL.el0.num < EL.el1.num ∧ stateOf (k10 .aarch64 .el2 .usr) .el1 = .aarch32 ∧
    EL.el1.num < EL.el2.num ∧ stateOf (k00 .aarch64 .el3 .usr) .el2 = .aarch32 ∧
    EL.el0.num < EL.el3.num ∧ stateOf a32El3 .el3 = .aarch32 := by decide

theorem witness_LevelStatesByRwBits :
    [k11 .aarch64 .el3 .usr, k10 .aarch64 .el3 .usr, k00 .aarch64 .el3 .usr, k0x .aarch64 .el3 .usr].map
      (fun s => (s.cfg.haveEL3, s.cfg.topState, el2Enabled s, scrRW s, hcrRW s)) =
    [(true, .aarch64, true, true, true), (true, .aarch64, true, true, false), (true, .aarch64, true, false, false),
     (true, .aarch64, true, false, true)] := by decide

/-- An entry, a return, an operation that is neither, and `A32.SETMODE`. -/
theorem witness_ExecutionStateChangesOnlyWithLevel :
    goesOn (exec (.excEntry .el2 0) (k10 .aarch32 .el1 .svc)) = true ∧
    after State.curState (exec (.excEntry .el2 0) (k10 .aarch32 .el1 .svc)) = some .aarch64 ∧
    after State.curState (exec (.excReturn .el1 .aarch32 (some .svc) 0) (k10 .aarch64 .el2 .usr)) = some .aarch32 ∧
    goesOn (exec (.a32Rd 0) (k10 .aarch32 .el1 .svc)) = true ∧
    goesOn (exec (.a32Setmode .el2 .hyp) (k00 .aarch32 .el1 .svc)) = true := by decide

theorem witness_EntryDirection :
    goesOn (exec (.excEntry .el1 0) (k11 .aarch32 .el0 .usr)) = true ∧
    EL.el0.num < (k10 .aarch32 .el1 .svc).el.num ∧
    levelUsable (k10 .aarch64 .el1 .usr) .el1 = true ∧ (k10 .aarch64 .el1 .usr).curState = .aarch64 ∧
    stateOf (k10 .aarch64 .el1 .usr) .el1 = .aarch32 := by decide

theorem witness_ReturnDirection :
    goesOn (exec (.excReturn .el0 .aarch32 (some .usr) 0) (k11 .aarch64 .el1 .usr)) = true ∧
    (k10 .aarch32 .el1 .svc).el.num < EL.el2.num ∧ (k10 .aarch32 .el1 .svc).curState = .aarch32 := by decide

theorem witness_SameStateTransfersOutsideSpec :
    (k10 .aarch32 .el0 .usr).el.num ≤ EL.el1.num ∧ levelUsable (k10 .aarch32 .el0 .usr) .el1 = true ∧
    stateOf (k10 .aarch32 .el0 .usr) .el1 = (k10 .aarch32 .el0 .usr).curState ∧
    levelUsable (k11 .aarch64 .el1 .usr) .el1 = true ∧
    stateOf (k11 .aarch64 .el1 .usr) .el1 = (k11 .aarch64 .el1 .usr).curState ∧
    EL.el1.num ≤ (k11 .aarch64 .el1 .usr).el.num := by decide

/-- Each target, without and with PSTATE.SM. -/
theorem witness_EntryCompletesWithFrame :
    EntryLegal (k11 .aarch32 .el0 .usr) .el1 ∧ EntryLegal (k10 .aarch32 .el1 .svc) .el2 ∧
    EntryLegal (k00 .aarch32 .el2 .hyp) .el3 ∧ EntryLegal (withSme (k11 .aarch32 .el0 .usr)) .el1 ∧
    smResets (k11 .aarch32 .el0 .usr) = false := by decide

theorem witness_LowHalvesFoundAfterEntry :
    EntryLegal (k11 .aarch32 .el0 .usr) .el1 ∧ EntryLegal (n30 .el1 .irq) .el2 ∧
    EntryLegal (k0x .aarch32 .el1 .svc) .el3 := by decide

/-- A register of the set and one outside it. -/
theorem witness_UpperHalvesAfterEntry :
    EntryLegal (k10 .aarch32 .el1 .svc) .el2 ∧
    zeroableSet (k10 .aarch32 .el1 .svc) .el2 = some [(0, 14), (16, 30)] ∧
    inRanges [(0, 14), (16, 30)] 30 = true ∧ inRanges [(0, 14), (16, 30)] 15 = false := by decide

/-- The three rows of R100, the last with EL2 enabled and without. -/
theorem witness_ZeroableSetByLowestA64Level :
    (EntryLegal (k11 .aarch32 .el0 .usr) .el1 ∧ stateOf (k11 .aarch32 .el0 .usr) .el1 = .aarch64) ∧
    (EntryLegal (k10 .aarch32 .el0 .usr) .el2 ∧ stateOf (k10 .aarch32 .el0 .usr) .el1 = .aarch32 ∧
      el2Enabled (k10 .aarch32 .el0 .usr) = true ∧ stateOf (k10 .aarch32 .el0 .usr) .el2 = .aarch64) ∧
    (EntryLegal (k00 .aarch32 .el1 .svc) .el3 ∧ stateOf (k00 .aarch32 .el1 .svc) .el1 = .aarch32 ∧
      stateOf (k00 .aarch32 .el1 .svc) .el2 = .aarch32) ∧
    (EntryLegal (s0 .el1 .svc) .el3 ∧ stateOf (s0 .el1 .svc) .el1 = .aarch32 ∧
      el2Enabled (s0 .el1 .svc) = false) := by decide

theorem witness_X15ZeroableWithoutHyp :
    (EntryLegal (s0 .el1 .svc) .el3 ∧ scrNS (s0 .el1 .svc) = false ∧ scrRW (s0 .el1 .svc) = false) ∧
    (EntryLegal (n20 .el1 .und) .el3 ∧ (n20 .el1 .und).cfg.haveEL2 = false ∧ scrRW (n20 .el1 .und) = false) := by decide

/-- T6.4, T6.5 and T6.7. -/
theorem witness_ElrEl2AfterEntry :
    (EntryLegal (k00 .aarch32 .el1 .svc) .el3 ∧ el2Enabled (k00 .aarch32 .el1 .svc) = true ∧
      stateOf (k00 .aarch32 .el1 .svc) .el2 = .aarch32) ∧
    (EntryLegal (k10 .aarch32 .el1 .svc) .el3 ∧ stateOf (k10 .aarch32 .el1 .svc) .el2 = .aarch64) ∧
    EntryLegal (k10 .aarch32 .el1 .svc) .el2 := by decide

/-- Each target, without and with PSTATE.SM. -/
theorem witness_ReturnCompletesWithFrame :
    ReturnLegal (k11 .aarch64 .el1 .usr) .el0 .usr ∧ ReturnLegal (k10 .aarch64 .el2 .usr) .el1 .svc ∧
    ReturnLegal (k00 .aarch64 .el3 .usr) .el2 .hyp ∧ ReturnLegal (withSme (k11 .aarch64 .el1 .usr)) .el0 .usr ∧
    smResets (k11 .aarch64 .el1 .usr) = false := by decide

theorem witness_IllegalTransfersRefused :
    (k10 .aarch64 .el2 .usr).curState = .aarch64 ∧ EL.el2 = (k10 .aarch64 .el2 .usr).el ∧
    levelImplemented (k10 .aarch64 .el2 .usr).cfg .el1 = true ∧
    a32Supported (noA32El1 (k10 .aarch64 .el2 .usr)).cfg .el1 = false ∧
    stateOf (k11 .aarch64 .el2 .usr) .el1 = .aarch64 ∧
    modeBelongs (k10 .aarch64 .el2 .usr).cfg .hyp .el1 = false ∧
    ((s1c .el0 .usr).el.num ≤ EL.el2.num ∧ el2Enabled (s1c .el0 .usr) = false) ∧
    ((n31 .el0 .usr).el.num ≤ EL.el3.num ∧ (n31 .el0 .usr).cfg.haveEL3 = false) ∧
    (noEl2At3.curState = .aarch64 ∧ noEl2At3.el = .el3 ∧ noEl2At3.cfg.haveEL2 = false) := by decide

theorem witness_AArch32ViewAfterReturn :
    ReturnLegal (k10 .aarch64 .el2 .usr) .el1 .svc ∧ xNum (k10 .aarch64 .el2 .usr).cfg .svc 0 = .ok 0 ∧
    xNum (k10 .aarch64 .el2 .usr).cfg .fiq 14 = .ok 30 := by decide

/-- Scenario S2. -/
theorem witness_ReturnThenEntryUpperHalves :
    ∃ t, exec (.excReturn .el1 .aarch32 (some .svc) 0x8000#64) (k10 .aarch64 .el2 .usr) = .next t ∧
      EntryLegal t .el2 ∧ zeroableSet t .el2 = some [(0, 14), (16, 30)] :=
  ⟨_, returnFromException_of_legal (t := .el1) (m := .svc) (s := k10 .aarch64 .el2 .usr) _ (by decide), by decide,
    by decide⟩

/-- EL0; an answer in AArch64; an answer that is a legal return. -/
theorem witness_EretIsReturnWithSuppliedArguments :
    ((k11 .aarch64 .el0 .usr).curState = .aarch64 ∧ (k11 .aarch64 .el0 .usr).el = .el0) ∧
    (eretArgs (answering (k11 .aarch64 .el2 .usr)
        { target := .el2, state := .aarch64, mode := none, newPc := 0 })).state = .aarch64 ∧
    (eretArgs (answering (k10 .aarch64 .el2 .usr)
        { target := .el1, state := .aarch32, mode := some .svc, newPc := 0 }) =
      { target := .el1, state := .aarch32, mode := some .svc, newPc := 0 } ∧
      (k10 .aarch64 .el2 .usr).el ≠ .el0 ∧ ReturnLegal (k10 .aarch64 .el2 .usr) .el1 .svc) := by decide

theorem witness_SetmodeChangesLevelAndMode :
    SetmodeLegal (k10 .aarch32 .el1 .svc) .el1 .irq ∧ SetmodeLegal (k00 .aarch32 .el1 .svc) .el2 .hyp ∧
    SetmodeLegal (k10 .aarch32 .el1 .svc) .el0 .usr ∧ SetmodeLegal a32El3 .el3 .svc ∧
    (k10 .aarch32 .el1 .svc).curState = .aarch32 ∧ stateOf (k10 .aarch32 .el1 .svc) .el2 = .aarch64 := by decide

theorem witness_SmAndZaAcrossStateChange :
    (withSme (k11 .aarch32 .el0 .usr)).curState = .aarch32 ∧ (withSme (k11 .aarch32 .el0 .usr)).psSM = true ∧
    goesOn (exec (.excReturn .el0 .aarch32 (some .usr) 0) (withSme (k11 .aarch64 .el1 .usr))) = true ∧
    goesOn (exec (.excEntry .el1 0) (withSme (k11 .aarch32 .el0 .usr))) = true := by decide

theorem witness_SveResetOnStateChange :
    EntryLegal (withSme (k11 .aarch32 .el0 .usr)) .el1 ∧ smResets (withSme (k11 .aarch32 .el0 .usr)) = true ∧
    EntryLegal (k11 .aarch32 .el0 .usr) .el1 ∧ ReturnLegal (withSme (k11 .aarch64 .el1 .usr)) .el0 .usr ∧
    ReturnLegal (k11 .aarch64 .el1 .usr) .el0 .usr := by decide

theorem witness_ZaStateNeverChanges : ∃ t, exec (.excEntry .el1 0) (withSme (k11 .aarch32 .el0 .usr)) = .next t :=
  next_of_goesOn (by decide)

theorem witness_SyndromeRegisterNumbers :
    resetConfig.bankRows = [] ∧ Mode.fiq ≠ .mon ∧ Mode.hyp ≠ .mon ∧ (14 : Fin 16).val ≤ 14 ∧
    xNum resetConfig .fiq 12 = .ok 28 ∧ resetConfig.wf = true ∧
    { resetConfig with bankRows := [{ mode := .hyp, n := 14, reg := .lrAbt }] }.wf = true := by decide

theorem witness_NameableCellsByLevel : resetConfig.bankRows = [] := by decide

/-- Numbers 0 and 14, number 15, and Monitor mode. -/
theorem witness_A32ReadGpr :
    (k10 .aarch32 .el1 .fiq).curState = .aarch32 ∧ xNum (k10 .aarch32 .el1 .fiq).cfg (k10 .aarch32 .el1 .fiq).mode 0 = .ok 0 ∧
    xNum (k10 .aarch32 .el1 .fiq).cfg (k10 .aarch32 .el1 .fiq).mode 14 = .ok 30 ∧ a32El3.curState = .aarch32 ∧ a32El3.mode = .mon := by decide

theorem witness_A32WriteGpr :
    (k10 .aarch32 .el1 .abt).curState = .aarch32 ∧ xNum (k10 .aarch32 .el1 .abt).cfg (k10 .aarch32 .el1 .abt).mode 14 = .ok 20 ∧
    xNum (k10 .aarch32 .el1 .abt).cfg (k10 .aarch32 .el1 .abt).mode 15 = .error .pcAsGpr ∧ a32El3.curState = .aarch32 ∧ a32El3.mode = .mon := by
  decide

/-- Two modes that share a register and two that do not. -/
theorem witness_WriteSeenWhereBankAgrees :
    (k00 .aarch32 .el2 .hyp).curState = .aarch32 ∧
    xNum (k00 .aarch32 .el2 .hyp).cfg .hyp 14 = .ok 14 ∧ xNum (k00 .aarch32 .el2 .hyp).cfg .usr 14 = .ok 14 ∧
    bank (k00 .aarch32 .el2 .hyp).cfg .hyp 14 = bank (k00 .aarch32 .el2 .hyp).cfg .usr 14 ∧
    xNum (k00 .aarch32 .el2 .hyp).cfg .hyp 13 = .ok 15 ∧ xNum (k00 .aarch32 .el2 .hyp).cfg .irq 13 = .ok 17 ∧
    bank (k00 .aarch32 .el2 .hyp).cfg .hyp 13 ≠ bank (k00 .aarch32 .el2 .hyp).cfg .irq 13 := by decide

theorem witness_A64ReadWriteGpr :
    (k11 .aarch64 .el0 .usr).curState = .aarch64 ∧ (30 : Fin 31) ≠ 0 := by decide

/-- The same state with other upper halves. -/
theorem witness_UpperHalvesIgnoredInAArch32 :
    (k10 .aarch32 .el1 .svc).curState = .aarch32 ∧
    (∀ k : Fin 31,
      low32 (readX { k10 .aarch32 .el1 .svc with x := Vector.ofFn fun n => BitVec.ofNat 64 n.val } k) =
        low32 (readX (k10 .aarch32 .el1 .svc) k)) ∧
    goesOn (exec (.a32Wr 13 1#32) (k10 .aarch32 .el1 .svc)) = true := by decide

theorem witness_A32ReadWriteQ :
    (k10 .aarch32 .el1 .svc).curState = .aarch32 ∧ (0 : Fin 32).val = (0 : Fin 16).val ∧
    (15 : Fin 32).val = (15 : Fin 16).val := by decide

theorem witness_A32ReadWriteD :
    (k10 .aarch32 .el1 .svc).curState = .aarch32 ∧ (0 : Fin 32).val = (0 : Fin 32).val / 2 ∧
    (15 : Fin 32).val = (31 : Fin 32).val / 2 := by decide

theorem witness_A32ReadWriteS :
    (k10 .aarch32 .el1 .svc).curState = .aarch32 ∧ (0 : Fin 32).val = (0 : Fin 32).val / 4 ∧
    (7 : Fin 32).val = (31 : Fin 32).val / 4 := by decide

theorem witness_A64ReadWriteV : (k10 .aarch64 .el2 .usr).curState = .aarch64 ∧ (31 : Fin 32) ≠ 0 := by decide

/-- D31 in V15, S31 in V7, Q15 in V15. -/
theorem witness_UnpackingFormulae :
    (k10 .aarch64 .el2 .usr).curState = .aarch64 ∧ (k10 .aarch32 .el1 .svc).curState = .aarch32 ∧
    (k10 .aarch32 .el1 .svc).vreg = (k10 .aarch64 .el2 .usr).vreg ∧
    after State.result (exec (.a64Vrd 15) (k10 .aarch64 .el2 .usr)) =
      some (some (.bits128 0x0F0E0D0C0B0A09080706050403020100#128)) ∧
    [exec (.a32Drd 31) (k10 .aarch32 .el1 .svc), exec (.a32Srd 31) (k10 .aarch32 .el1 .svc),
      exec (.a32Qrd 15) (k10 .aarch32 .el1 .svc)].map goesOn = [true, true, true] := by decide

/-- A state with other contents of V16 to V31; a step that stays in AArch32 state, an entry and a return without
PSTATE.SM; V16 and V31. -/
theorem witness_V16ToV31UntouchedInAArch32 :
    (k10 .aarch32 .el1 .svc).curState = .aarch32 ∧
    (∀ k : Fin 32, k.val < 16 →
      readV { k10 .aarch32 .el1 .svc with vreg := (k10 .aarch32 .el1 .svc).vreg.set 16 7#128 } k =
        readV (k10 .aarch32 .el1 .svc) k) ∧
    readV { k10 .aarch32 .el1 .svc with vreg := (k10 .aarch32 .el1 .svc).vreg.set 16 7#128 } 16 ≠
      readV (k10 .aarch32 .el1 .svc) 16 ∧
    after State.curState (exec (.a32Dwr 31 1#64) (k10 .aarch32 .el1 .svc)) = some .aarch32 ∧
    goesOn (exec (.excEntry .el2 0) (k10 .aarch32 .el1 .svc)) = true ∧
    ((k10 .aarch32 .el1 .svc).cfg.haveSME && (k10 .aarch32 .el1 .svc).psSM) = false ∧
    (isTransfer (.excReturn .el1 .aarch32 (some .svc) 0) = true ∧
      goesOn (exec (.excReturn .el1 .aarch32 (some .svc) 0) (k10 .aarch64 .el2 .usr)) = true) ∧
    16 ≤ (16 : Fin 32).val ∧ 16 ≤ (31 : Fin 32).val := by decide

/-- A register in the low half, one in the high half, and one with a cell of its own. -/
theorem witness_A32ReadSysreg :
    (k10 .aarch32 .el1 .svc).curState = .aarch32 ∧ (k10 .aarch32 .el1 .svc).cfg.a32El1 = true ∧
    readCell64 (packed false) (.other "FAR_EL1".toList) = some 0x1122334455667788#64 ∧
    a32SysTarget (packed false) .dfar = some (.low (.other "FAR_EL1".toList)) ∧
    a32SysTarget (packed true) .dfar = some (.high (.other "FAR_EL1".toList)) ∧
    a32SysTarget (withHcr (k00 .aarch32 .el2 .hyp)) .hcr =
      some (.own .hcr) := by decide

theorem witness_A32SysregWriteAffectsOnlyMappedPart :
    Inv (packed true) ∧ (packed true).curState = .aarch32 ∧
    a32SysTarget (packed true) .dfar = some (.high (.other "FAR_EL1".toList)) ∧
    readCell64 (packed true) (.other "FAR_EL1".toList) = some 0x1122334455667788#64 ∧
    Inv (k10 .aarch32 .el1 .svc) ∧ a32SysTarget (k10 .aarch32 .el1 .svc) .spsrSvc = some (.low .spsrEl1) ∧
    readCell64 (k10 .aarch32 .el1 .svc) .spsrEl1 = some 0#64 :=
  ⟨by constructor <;> decide, by decide, by decide, by decide, by constructor <;> decide, by decide, by decide⟩

theorem witness_UnmappedSysregBitsKept :
    Inv (k00 .aarch32 .el2 .hyp) ∧ (k00 .aarch32 .el2 .hyp).curState = .aarch32 ∧
    (∃ t, exec (.a32Syswr .elrHyp 0x2000#32) (k00 .aarch32 .el2 .hyp) = .next t) ∧
    readCell64 (k00 .aarch32 .el2 .hyp) .elrEl2 = some 0x0000FFFF00001000#64 ∧
    (∀ a : A32Sys, a32SysTarget (k00 .aarch32 .el2 .hyp) a ≠ some (.high .elrEl2)) ∧
    (∀ a : A32Sys, a32SysTarget (k00 .aarch32 .el2 .hyp) a ≠ some (.low .spEl1)) := by
  have h : (k00 .aarch32 .el2 .hyp).cfg.sysMapExt = [] := by decide
  refine ⟨by constructor <;> decide, by decide, next_of_goesOn (by decide), by decide, ?_, ?_⟩ <;>
    intro a <;> cases a <;> simp [a32SysTarget, sysMapExtTarget, h]

theorem witness_A32WriteSysreg :
    Inv (k10 .aarch32 .el1 .svc) ∧ (k10 .aarch32 .el1 .svc).curState = .aarch32 ∧
    (k10 .aarch32 .el1 .svc).cfg.a32El1 = true ∧
    Inv (withHcr (k00 .aarch32 .el2 .hyp)) ∧
    a32SysTarget (withHcr (k00 .aarch32 .el2 .hyp)) .hcr =
      some (.own .hcr) :=
  ⟨by constructor <;> decide, by decide, by decide, by constructor <;> decide, by decide⟩

/-- A register of 64 bits and one of 32; an SPSR of 72 bits. -/
theorem witness_A64ReadWriteSysreg :
    a64OwnCell (k10 .aarch64 .el2 .usr) .spsrEl1 = none ∧ a64OwnCell (k10 .aarch64 .el2 .usr) .scrEl3 = none ∧
    ((wideSpsr (k10 .aarch64 .el2 .usr)).curState = .aarch64 ∧
      readCell64 (wideSpsr (k10 .aarch64 .el2 .usr)) .spsrEl2 = some 0#64 ∧
      a64OwnCell (wideSpsr (k10 .aarch64 .el2 .usr)) .spsrEl2 = none) ∧
    (k10 .aarch64 .el2 .usr).curState = .aarch64 ∧ readCell64 (k10 .aarch64 .el2 .usr) .spsrEl1 = some 0#64 ∧
    readCell64 (k10 .aarch64 .el2 .usr) .scrEl3 = some 0x401#64 ∧
    readCell64 (k10 .aarch64 .el2 .usr) .elrEl2 = some 0x0000FFFF00001000#64 := by decide

/-- EL2 and EL3 with AArch32 supported at EL1; EL0 and EL1; HCR with a cell of its own, at EL3 and at EL2. -/
theorem witness_BankedSpsrsFromAbove :
    (sysMapExtTarget (withHcr (k00 .aarch64 .el3 .usr)) (a32SysNamed "HCR".toList) = some (.own .hcr) ∧
      (withHcr (k00 .aarch64 .el3 .usr)).curState = .aarch64 ∧
      (cellLevel .hcr).num < (withHcr (k00 .aarch64 .el3 .usr)).el.num ∧
      (A32Sys.hcr).wellFormed = true ∧ a32SysTarget (withHcr (k00 .aarch64 .el3 .usr)) .hcr = some (.own .hcr)) ∧
    (sysMapExtTarget (withHcr (k10 .aarch64 .el2 .usr)) (a32SysNamed "HCR".toList) = some (.own .hcr) ∧
      (withHcr (k10 .aarch64 .el2 .usr)).el.num ≤ (cellLevel .hcr).num) ∧
    (A64Sys.spsrFiq, A32Cell.spsrFiq) ∈
      [(A64Sys.spsrAbt, A32Cell.spsrAbt), (.spsrUnd, .spsrUnd), (.spsrIrq, .spsrIrq), (.spsrFiq, .spsrFiq)] ∧
    (k10 .aarch64 .el2 .usr).curState = .aarch64 ∧ (k10 .aarch64 .el2 .usr).el = .el2 ∧
    (k10 .aarch64 .el3 .usr).el = .el3 ∧ (k10 .aarch64 .el2 .usr).cfg.a32El1 = true ∧
    (k11 .aarch64 .el0 .usr).el = .el0 ∧ (k11 .aarch64 .el1 .usr).el = .el1 := by decide

theorem witness_BankedSpsrsRes0 :
    (A64Sys.spsrAbt, A32Sys.spsrAbt) ∈
      [(A64Sys.spsrAbt, A32Sys.spsrAbt), (.spsrUnd, .spsrUnd), (.spsrIrq, .spsrIrq), (.spsrFiq, .spsrFiq)] ∧
    (noA32El1 (k10 .aarch64 .el2 .usr)).cfg.a32El1 = false ∧ (noA32El1 (k10 .aarch64 .el2 .usr)).curState = .aarch64 ∧
    (noA32El1 (k10 .aarch64 .el2 .usr)).el = .el2 ∧ (noA32El1 (k11 .aarch32 .el0 .usr)).cfg.a32El1 = false ∧
    (noA32El1 (k11 .aarch32 .el0 .usr)).curState = .aarch32 := by decide

theorem witness_BankedSpsrsRetained :
    (∃ t, exec (.a32Syswr .spsrAbt 1#32) (k10 .aarch32 .el1 .svc) = .next t) ∧
    (∃ t, exec (.a64Syswr .spsrAbt 1) (k10 .aarch64 .el2 .usr) = .next t) ∧
    (∃ t, exec (.excEntry .el2 0) (k10 .aarch32 .el1 .svc) = .next t) :=
  ⟨next_of_goesOn (by decide), next_of_goesOn (by decide), next_of_goesOn (by decide)⟩

theorem witness_StackPointersRetained :
    (k11 .aarch32 .el0 .usr).cfg.sysMapExt = [] ∧ (k11 .aarch32 .el0 .usr).curState = .aarch32 ∧
    goesOn (exec (.excEntry .el1 0) (k11 .aarch32 .el0 .usr)) = true ∧
    goesOn (exec (.a32Syswr .elrHyp 1#32) (k11 .aarch32 .el0 .usr)) = true ∧
    isTransfer (.excReturn .el1 .aarch32 (some .svc) 0) = true ∧
    goesOn (exec (.excReturn .el1 .aarch32 (some .svc) 0) (k10 .aarch64 .el2 .usr)) = true := by decide

theorem witness_UnmappedSysregsRefused :
    (k10 .aarch32 .el1 .svc).cfg.sysMapExt = [] ∧ (k10 .aarch32 .el1 .svc).curState = .aarch32 ∧
    A32Sys.dfar ∉ [A32Sys.spsrSvc, .spsrHyp, .elrHyp, .spsrAbt, .spsrUnd, .spsrIrq, .spsrFiq] ∧
    (k10 .aarch64 .el2 .usr).sys.ext = [] ∧ (k10 .aarch64 .el2 .usr).curState = .aarch64 ∧
    (noEl2At3.curState = .aarch64 ∧ noEl2At3.cfg.haveEL2 = false) ∧
    (noEl3At2.curState = .aarch64 ∧ noEl3At2.cfg.haveEL3 = false) := by decide

theorem witness_ControlWriteTakesEffectAtOnce :
    (k10 .aarch64 .el3 .usr).curState = .aarch64 ∧ (k10 .aarch64 .el3 .usr).cfg.haveEL3 = true ∧
    (k10 .aarch64 .el3 .usr).cfg.topState = .aarch64 ∧ el2Enabled (k10 .aarch64 .el3 .usr) = true ∧
    stateOf (k10 .aarch64 .el3 .usr) .el2 = .aarch64 := by decide

/-- An EL3 that uses AArch32, and IFAR banked in two entries, in either Security state. -/
def bankedIfar (secure : Bool) : State :=
  { a32El3 with
    secure := secure
    cfg := { a32El3.cfg with
      sysMapExt :=
        [{ name := .ifar, bank := some .secure, target := .own .ifarS },
         { name := .ifar, bank := some .nonSecure, target := .own .ifarNS }] } }

theorem witness_BankingBySecurityState :
    el3UsesA32 (k10 .aarch32 .el1 .svc) = false ∧
    (el3UsesA32 (bankedIfar true) = true ∧ a32SysTarget (bankedIfar true) .ifar = some (.own .ifarS)) ∧
    (el3UsesA32 (bankedIfar false) = true ∧ a32SysTarget (bankedIfar false) .ifar = some (.own .ifarNS) ∧
      a32SysTarget (bankedIfar false) .hifar = some (.own .ifarS)) ∧
    A32Sys.ifar ∉ [A32Sys.spsrSvc, .spsrHyp, .elrHyp, .spsrAbt, .spsrUnd, .spsrIrq, .spsrFiq, .hifar, .hdfar] := by
  decide

end Sys2Proof.Tests
end

section
/-!
PROOFS. The state's storage (10_state.md): the table of `A32Map` (R25).
-/
namespace Sys2Proof.Machine

/-- The AArch32 registers in the order of their cells: the table of R25, read from cell to register. -/
def a32RegTable : List A32Reg :=
  [.r0, .r1, .r2, .r3, .r4, .r5, .r6, .r7, .r8Usr, .r9Usr, .r10Usr, .r11Usr, .r12Usr, .spUsr, .lrUsr, .spHyp,
    .lrIrq, .spIrq, .lrSvc, .spSvc, .lrAbt, .spAbt, .lrUnd, .spUnd, .r8Fiq, .r9Fiq, .r10Fiq, .r11Fiq, .r12Fiq, .spFiq,
    .lrFiq]

theorem a32RegTable_length : a32RegTable.length = 31 := rfl

theorem map_a32Map_a32RegTable : a32RegTable.map (fun a => (a32Map a).val) = List.range 31 := rfl

/-- The AArch32 register that a general-purpose cell holds: the inverse of `a32Map`. -/
def a32RegOfCell (k : Fin 31) : A32Reg := a32RegTable[k.val]'(k.isLt.trans_eq a32RegTable_length.symm)

/-- Every name is in the table at its own cell, so two names never share a cell. -/
@[simp] theorem a32RegOfCell_a32Map (a : A32Reg) : a32RegOfCell (a32Map a) = a := by
  cases a <;> rfl

/-- Every cell has a name: the table lists the cells 0 to 30 in order. -/
@[simp] theorem a32Map_a32RegOfCell (k : Fin 31) : a32Map (a32RegOfCell k) = k := by
  have hk : k.val < (a32RegTable.map fun a => (a32Map a).val).length :=
    k.isLt.trans_eq (by rw [List.length_map, a32RegTable_length])
  apply Fin.ext
  calc (a32Map (a32RegOfCell k)).val
      = (a32RegTable.map fun a => (a32Map a).val)[k.val] := by rw [List.getElem_map, a32RegOfCell]
    _ = k.val := by simp only [map_a32Map_a32RegTable, List.getElem_range]

theorem a32Map_bijective : Function.Bijective a32Map :=
  Function.bijective_iff_has_inverse.mpr ⟨a32RegOfCell, a32RegOfCell_a32Map, a32Map_a32RegOfCell⟩

/-- Settles O36: the table is `a32RegTable`, and reading it from cell to register inverts `a32Map`. -/
theorem a32MapTable : Obligations.A32MapTable :=
  ⟨map_a32Map_a32RegTable, a32Map_bijective⟩

end Sys2Proof.Machine
end

section
/-!
PROOFS. The directions of an exception entry and of a return (40_state_change.md R82, R83): which way a transfer that
completes goes, and the refusals of the other ways.
-/
namespace Sys2Proof.Machine

theorem exec_excEntry (l : EL) (p : Word) (s : State) : exec (.excEntry l p) s = takeException l p s :=
  rfl

theorem exec_excReturn (l : EL) (st : ExecState) (m : Option Mode) (p : Word) (s : State) :
    exec (.excReturn l st m p) s = returnFromException { target := l, state := st, mode := m, newPc := p } s :=
  rfl

/-! ## Exception entry -/

/-- An exception is never taken to a lower level (R82): the first test of R84. -/
theorem takeException_of_lower {l : EL} {s : State} (p : Word) (hlow : l.num < s.el.num) :
    takeException l p s = .refused .illegalStateChange :=
  if_pos hlow

/-- An exception is never taken from AArch64 state to AArch32 state (R82): to a lower level the first test of R84
refuses it, and to any other usable level the states differ, so that the fourth does. -/
theorem takeException_of_a64_to_a32 {l : EL} {s : State} (p : Word) (husable : levelUsable s l = true)
    (hcur : s.curState = .aarch64) (htarget : stateOf s l = .aarch32) :
    takeException l p s = .refused .illegalStateChange := by
  by_cases hlow : l.num < s.el.num
  · exact takeException_of_lower p hlow
  · simp [takeException, hlow, husable, hcur, htarget]

/-- An entry that completes goes from AArch32 state up to AArch64 state at its target (R82). -/
theorem takeException_direction {l : EL} {p : Word} {s t : State} (h : takeException l p s = .next t) :
    s.curState = .aarch32 ∧ t.curState = .aarch64 ∧ s.el.num < l.num ∧ t.el = l := by
  obtain ⟨⟨hcur, _, _, hhigher⟩, z, _, ht⟩ := takeException_next h
  rw [enterA64_eq] at ht
  subst ht
  exact ⟨hcur, rfl, hhigher, rfl⟩

/-- Settles O15: an entry that completes goes from AArch32 state up to AArch64 state, and both other directions stop
at a test of R84. -/
theorem entryDirection : Obligations.EntryDirection := by
  intro s l p
  rw [exec_excEntry]
  exact ⟨fun _ h => takeException_direction h, takeException_of_lower p, takeException_of_a64_to_a32 p⟩

/-! ## Exception return -/

/-- A return never goes to a higher level (R83): the first test of R85. -/
theorem returnFromException_of_higher {a : ReturnArgs} {s : State} (hhigher : s.el.num < a.target.num) :
    returnFromException a s = .refused .illegalStateChange :=
  if_pos hhigher

/-- A return never goes from AArch32 state to AArch64 state (R83): the first test of R85 refuses it to a higher level,
the second to any other. -/
theorem returnFromException_of_a32_to_a64 {a : ReturnArgs} {s : State} (hcur : s.curState = .aarch32)
    (hstate : a.state = .aarch64) : returnFromException a s = .refused .illegalStateChange := by
  by_cases hhigher : s.el.num < a.target.num
  · exact returnFromException_of_higher hhigher
  · simp [returnFromException, hhigher, hcur, hstate]

/-- A return that completes goes from AArch64 state down to AArch32 state at its target (R83). -/
theorem returnFromException_direction {a : ReturnArgs} {s t : State} (h : returnFromException a s = .next t) :
    s.curState = .aarch64 ∧ a.state = .aarch32 ∧ t.curState = .aarch32 ∧ a.target.num < s.el.num ∧ t.el = a.target := by
  obtain ⟨m, hstate, _, ⟨hcur, hlower, _⟩, ht⟩ := returnFromException_next h
  rw [enterA32_eq] at ht
  subst ht
  exact ⟨hcur, hstate, rfl, hlower, rfl⟩

/-- Settles O16: a return that completes goes from AArch64 state down to AArch32 state, and both other directions stop
at a test of R85. -/
theorem returnDirection : Obligations.ReturnDirection := by
  intro s l st m p
  rw [exec_excReturn]
  exact ⟨fun _ h => returnFromException_direction h, fun h => returnFromException_of_higher h,
    fun hcur hstate => returnFromException_of_a32_to_a64 hcur hstate⟩

end Sys2Proof.Machine
end

section
/-!
PROOFS. The general-purpose registers in interprocessing (41_gpr_interprocessing.md): what a read gives in each
Execution state (R90, R92), that an exception entry finds a cell of the table of R98 and keeps every low half (R106),
and that a return leaves every cell as it was (R94).
-/
namespace Sys2Proof.Machine

/-! ## Which cell a register number denotes -/

/-- Where the table of R27 names no copy, no `Bank` gives the number a cell. -/
theorem xNum_of_bankTable_error {c : Config} {m : Mode} {n : Fin 16} {r : Refusal} (h : bankTable m n = .error r) :
    xNum c m n = .error r := by
  simp only [xNum, bank, h]

theorem xNum_pc (c : Config) (m : Mode) : xNum c m 15 = .error .pcAsGpr :=
  xNum_of_bankTable_error rfl

theorem xNum_mon_sp_lr (c : Config) {n : Fin 16} (hn : n = 13 ∨ n = 14) : xNum c .mon n = .error .monitorBank := by
  obtain rfl | rfl := hn
  · exact xNum_of_bankTable_error rfl
  · exact xNum_of_bankTable_error rfl

/-! ## The reads -/

theorem withXNum_of_error {s : State} {n : Fin 16} {r : Refusal} (h : xNum s.cfg s.mode n = .error r)
    (f : Fin 31 → Outcome) : withXNum s n f = .refused r := by
  simp only [withXNum, h]

theorem exec_a32Rd {s : State} (hcur : s.curState = .aarch32) (n : Fin 16) :
    exec (.a32Rd n) s = withXNum s n fun k => .next (s.withResult (.bits32 (low32 (readX s k)))) :=
  inA32_of hcur _

theorem exec_a32Rd_of_xNum {s : State} {n : Fin 16} {k : Fin 31} (hcur : s.curState = .aarch32)
    (hk : xNum s.cfg s.mode n = .ok k) :
    exec (.a32Rd n) s = .next (s.withResult (.bits32 (low32 (readX s k)))) := by
  rw [exec_a32Rd hcur, withXNum_of hk]

theorem exec_a32Rd_of_error {s : State} {n : Fin 16} {r : Refusal} (hcur : s.curState = .aarch32)
    (hr : xNum s.cfg s.mode n = .error r) : exec (.a32Rd n) s = .refused r := by
  rw [exec_a32Rd hcur, withXNum_of_error hr]

theorem exec_a64Rd {s : State} (hcur : s.curState = .aarch64) (k : Fin 31) :
    exec (.a64Rd k) s = .next (s.withResult (.bits64 (readX s k))) :=
  inA64_of hcur _

/-- Settles O38: the cell is the one `xNum` answers, and the two refusals are the numbers to which the table of R27
gives none. -/
theorem a32ReadGpr : Obligations.A32ReadGpr := by
  intro s n hcur
  refine ⟨fun k hk => exec_a32Rd_of_xNum hcur hk, ?_, fun hmon hn => ?_⟩
  · rintro rfl
    exact exec_a32Rd_of_error hcur (xNum_pc s.cfg s.mode)
  · refine exec_a32Rd_of_error hcur ?_
    rw [hmon]
    exact xNum_mon_sp_lr s.cfg hn

/-! ## A legal entry has its cell in the table of R98 -/

/-- The cells of the table of R98 that are no dash, in its valid rows. -/
theorem isSome_zeroableTable_iff (scr hcr : Bool) (l : EL) :
    (zeroableTable scr hcr l).isSome = true ↔
      l ≠ .el0 ∧ (scr = false → l = .el3 ∧ hcr = false) ∧ (l = .el1 → hcr = true) := by
  cases scr <;> cases hcr <;> cases l <;> decide

theorem tableScrRW_of_ne_el3 (s : State) {l : EL} (hl : l ≠ .el3) : tableScrRW s l = true :=
  if_neg hl

/-- R97 never gives the row that is not valid: SCR_EL3.RW 0 with HCR_EL2.RW 1. -/
theorem tableHcrRW_of_tableScrRW_false {s : State} {l : EL} (h : tableScrRW s l = false) : tableHcrRW s l = false := by
  cases he : el2Enabled s <;> simp [tableHcrRW, hcrNotionalRW, he, h]

/-- An EL1 that is using AArch64 is below an EL2 with HCR_EL2.RW 1, or EL2 cannot be used and the index is that of
SCR_EL3.RW (R97, R121). -/
theorem tableHcrRW_of_stateOf_el1 {s : State} (h : stateOf s .el1 = .aarch64) : tableHcrRW s .el1 = true := by
  have hscr : tableScrRW s .el1 = true := tableScrRW_of_ne_el3 s (by decide)
  cases he : el2Enabled s with
  | false => simp [tableHcrRW, he, hscr]
  | true =>
    obtain ⟨_, hrw⟩ : stateOf2 s = .aarch64 ∧ hcrRW s = true := by simpa [stateOf, stateOf1, he] using h
    simp [tableHcrRW, he, hscr, hrw]

theorem exists_zeroableSet_of_entryLegal {s : State} {l : EL} (h : EntryLegal s l) : ∃ z, zeroableSet s l = some z := by
  obtain ⟨_, _, htarget, hhigher⟩ := h
  refine Option.isSome_iff_exists.mp ((isSome_zeroableTable_iff _ _ _).mpr ⟨?_, fun hscr => ⟨?_, ?_⟩, ?_⟩)
  · rintro rfl
    exact Nat.not_lt_zero _ hhigher
  · by_contra hl
    rw [tableScrRW_of_ne_el3 s hl] at hscr
    contradiction
  · exact tableHcrRW_of_tableScrRW_false hscr
  · rintro rfl
    exact tableHcrRW_of_stateOf_el1 htarget

theorem exec_excEntry_of_legal {s : State} {l : EL} (p : Word) (h : EntryLegal s l) :
    ∃ z, zeroableSet s l = some z ∧ exec (.excEntry l p) s = .next (enterA64 z l p s) := by
  obtain ⟨z, hz⟩ := exists_zeroableSet_of_entryLegal h
  exact ⟨z, hz, takeException_of_legal p h hz⟩

/-! ## The cells after an entry and after a return -/

/-- Of the steps of an entry only `GPRUpperOnEntry` changes a cell of `x` (R84). -/
theorem readX_enterA64 (z : RegRanges) (l : EL) (p : Word) (s : State) (k : Fin 31) :
    readX (enterA64 z l p s) k = readX (gprUpperOnEntry z s) k :=
  readX_congr (by rw [enterA64_eq]) k

theorem low32_readX_gprUpperOnEntry (z : RegRanges) (s : State) (k : Fin 31) :
    low32 (readX (gprUpperOnEntry z s) k) = low32 (readX s k) := by
  rw [readX_gprUpperOnEntry]
  split
  · exact low32_drawUpper _ _
  · rfl

theorem low32_readX_enterA64 (z : RegRanges) (l : EL) (p : Word) (s : State) (k : Fin 31) :
    low32 (readX (enterA64 z l p s) k) = low32 (readX s k) := by
  rw [readX_enterA64, low32_readX_gprUpperOnEntry]

theorem readX_enterA32 (l : EL) (m : Mode) (p : Word) (s : State) (k : Fin 31) :
    readX (enterA32 l m p s) k = readX s k :=
  readX_congr (by rw [enterA32_eq]) k

theorem cfg_enterA32 (l : EL) (m : Mode) (p : Word) (s : State) : (enterA32 l m p s).cfg = s.cfg := by
  rw [enterA32_eq]

/-- Settles O19: the entry draws upper halves only, and `A64.RD` then gives the whole cell. -/
theorem lowHalvesFoundAfterEntry : Obligations.LowHalvesFoundAfterEntry := by
  intro s l p hlegal
  obtain ⟨z, _, hexec⟩ := exec_excEntry_of_legal p hlegal
  exact ⟨enterA64 z l p s, hexec, low32_readX_enterA64 z l p s, fun a =>
    ⟨readX (enterA64 z l p s) (a32Map a), exec_a64Rd rfl (a32Map a), low32_readX_enterA64 z l p s (a32Map a)⟩⟩

/-- Settles O29: the return writes no cell, and `A32.RD` then reads the cell that the target mode's number denotes. -/
theorem aArch32ViewAfterReturn : Obligations.AArch32ViewAfterReturn := by
  intro s l m p hlegal
  refine ⟨enterA32 l m p s, returnFromException_of_legal p hlegal, readX_enterA32 l m p s, fun n k hk => ?_⟩
  have hk' : xNum (enterA32 l m p s).cfg (enterA32 l m p s).mode n = .ok k := by
    rw [cfg_enterA32]
    exact hk
  rw [exec_a32Rd_of_xNum rfl hk', readX_enterA32]
  rfl

end Sys2Proof.Machine
end

section
/-!
PROOFS. The SIMD and floating-point registers (42_simd_fp_interprocessing.md): what a whole-register access reads and
writes in each Execution state (R110, R113), and the low parts that AArch64 code reads as D and S (R113).
-/
namespace Sys2Proof.Machine

/-! ## The accesses, in the Execution state that has them -/

theorem exec_a32Qrd {s : State} (hcur : s.curState = .aarch32) (n : Fin 16) :
    exec (.a32Qrd n) s = .next (s.withResult (.bits128 (readV s (qCell n)))) :=
  inA32_of hcur _

theorem exec_a32Qwr {s : State} (hcur : s.curState = .aarch32) (n : Fin 16) (v : Quad) :
    exec (.a32Qwr n v) s = .next (s.withV (qCell n) v) :=
  inA32_of hcur _

theorem exec_a64Vrd {s : State} (hcur : s.curState = .aarch64) (n : Fin 32) :
    exec (.a64Vrd n) s = .next (s.withResult (.bits128 (readV s n))) :=
  inA64_of hcur _

theorem exec_a64Vwr {s : State} (hcur : s.curState = .aarch64) (n : Fin 32) (v : Quad) :
    exec (.a64Vwr n v) s = .next (s.withV n v) :=
  inA64_of hcur _

theorem exec_a64Drd {s : State} (hcur : s.curState = .aarch64) (n : Fin 32) :
    exec (.a64Drd n) s = .next (s.withResult (.bits64 (quadField (readV s n) 0 64))) :=
  inA64_of hcur _

theorem exec_a64Srd {s : State} (hcur : s.curState = .aarch64) (n : Fin 32) :
    exec (.a64Srd n) s = .next (s.withResult (.bits32 (quadField (readV s n) 0 32))) :=
  inA64_of hcur _

/-! ## The cell of a Q register, and what a write of a cell does -/

/-- AArch32 Q`n` is the cell of the same number (R110). -/
theorem qCell_eq_of_val_eq {n : Fin 16} {k : Fin 32} (h : k.val = n.val) : qCell n = k :=
  Fin.ext h.symm

/-- An operation that ends in a write of `vreg[k]` changes that cell alone, and the cell reads back. -/
theorem writes_cell_of_next_withV {o : Outcome} {s : State} {k : Fin 32} {v : Quad} (h : o = .next (s.withV k v)) :
    ∃ t, o = .next t ∧ t = { s with vreg := t.vreg } ∧ readV t k = v ∧ ∀ j : Fin 32, j ≠ k → readV t j = readV s j :=
  ⟨s.withV k v, h, rfl, readV_withV_same s k v, fun _ hj => readV_withV_ne s hj v⟩

/-! ## The statements -/

/-- Settles O43: both accesses go to the cell `qCell n`, whose number is `n`. -/
theorem a32ReadWriteQ : Obligations.A32ReadWriteQ := by
  intro s n k v hcur hk
  obtain rfl : qCell n = k := qCell_eq_of_val_eq hk
  exact ⟨exec_a32Qrd hcur n, writes_cell_of_next_withV (exec_a32Qwr hcur n v)⟩

/-- Settles O46: V`n` is the whole cell, and D`n` and S`n` are its fields from bit 0. -/
theorem a64ReadWriteV : Obligations.A64ReadWriteV := by
  intro s n v hcur
  exact ⟨exec_a64Vrd hcur n, exec_a64Drd hcur n, exec_a64Srd hcur n, writes_cell_of_next_withV (exec_a64Vwr hcur n v)⟩

end Sys2Proof.Machine
end

section
/-!
PROOFS. The System registers in interprocessing (43_sysreg_interprocessing.md): which operations can write one at all,
that a write in AArch32 state changes the mapped half alone (R122), and what keeps its value across a visit to AArch32
state: the cells of the AArch32 registers (R131), and the stack pointers and ELR_EL1 (R134).
-/
namespace Sys2Proof.Machine

/-! ## Which operations write a System register -/

/-- The two writes are the only operations beside the transfers that change a System register. -/
theorem exec_sysRegs_cases {i : Instr} {s t : State} (h : exec i s = .next t) :
    (∃ a v, i = .a32Syswr a v ∧ execA32Syswr a v s = .next t) ∨
    (∃ r v, i = .a64Syswr r v ∧ execA64Syswr r v s = .next t) ∨
    isTransfer i = true ∨ (t.cfg = s.cfg ∧ t.sys = s.sys) := by
  cases i with
  | a32Syswr a v => exact .inl ⟨a, v, rfl, h⟩
  | a64Syswr r v => exact .inr (.inl ⟨r, v, rfl, h⟩)
  | eret | excEntry | excReturn => exact .inr (.inr (.inl rfl))
  | a32Setmode l m =>
    obtain ⟨_, rfl⟩ := execA32Setmode_next h
    exact .inr (.inr (.inr ⟨rfl, rfl⟩))
  | a32Sysrd a =>
    obtain ⟨_, v, k, rfl⟩ := execA32Sysrd_next h
    exact .inr (.inr (.inr ⟨rfl, rfl⟩))
  | a64Sysrd r =>
    obtain ⟨_, v, k, rfl⟩ := execA64Sysrd_next h
    exact .inr (.inr (.inr ⟨rfl, rfl⟩))
  | a32Rd | a32Wr =>
    obtain ⟨k, _, hk⟩ := withXNum_next (inA32_next h).2
    cases hk
    exact .inr (.inr (.inr ⟨rfl, rfl⟩))
  | a64Rd | a64Wr | a64Vrd | a64Vwr | a64Drd | a64Srd =>
    cases (inA64_next h).2
    exact .inr (.inr (.inr ⟨rfl, rfl⟩))
  | a32Qrd | a32Qwr | a32Drd | a32Dwr | a32Srd | a32Swr =>
    cases (inA32_next h).2
    exact .inr (.inr (.inr ⟨rfl, rfl⟩))

/-! ## The System registers after a transfer -/

theorem sys_enterA64 (z : RegRanges) (l : EL) (p : Word) (s : State) : (enterA64 z l p s).sys = sysAfterEntry l s := by
  rw [enterA64_eq]

/-- A return writes FPSR alone among the System registers (R85, R146). -/
theorem sys_enterA32 (l : EL) (m : Mode) (p : Word) (s : State) :
    (enterA32 l m p s).sys = { s.sys with fpsr := if smResets s then s.cfg.smFixedFpsr else s.sys.fpsr } := by
  rw [enterA32_eq]

/-- No AArch32 register's own cell is in the frame of an entry (R154). -/
theorem readCell32_sysAfterEntry (l : EL) (s : State) (c : A32Cell) :
    readCell32 (sysAfterEntry l s) c = readCell32 s.sys c := by
  cases l <;> cases c <;> rfl

theorem readCell32_enterA32 (l : EL) (m : Mode) (p : Word) (s : State) (c : A32Cell) :
    readCell32 (enterA32 l m p s).sys c = readCell32 s.sys c := by
  rw [sys_enterA32]
  cases c <;> rfl

theorem readCell32_exec_transfer {i : Instr} {s t : State} (h : exec i s = .next t) (ht : isTransfer i = true)
    (c : A32Cell) : readCell32 t.sys c = readCell32 s.sys c := by
  obtain ⟨l, p, z, _, _, _, rfl⟩ | ⟨l, m, p, _, _, rfl⟩ := exec_transfer h ht
  · rw [sys_enterA64, readCell32_sysAfterEntry]
  · exact readCell32_enterA32 l m p s c

/-- The stack pointers are not in the frame of an entry, and ELR_EL1 is in that of an entry to EL1 only (R154). -/
theorem sysAfterEntry_stackPointers (l : EL) (s : State) :
    (sysAfterEntry l s).spEl0 = s.sys.spEl0 ∧ (sysAfterEntry l s).spEl1 = s.sys.spEl1 ∧
      (sysAfterEntry l s).spEl2 = s.sys.spEl2 ∧ (l ≠ .el1 → (sysAfterEntry l s).elrEl1 = s.sys.elrEl1) := by
  cases l with
  | el1 => exact ⟨rfl, rfl, rfl, fun h => absurd rfl h⟩
  | _ => exact ⟨rfl, rfl, rfl, fun _ => rfl⟩

/-! ## A write of a mapped AArch32 register -/

/-- A value with the mapped half written: bits[63:32] or bits[31:0] (R122). -/
def setHalf (hi : Bool) (w : Word) (v : Half) : Word := if hi then setHigh32 w v else setLow32 w v

theorem setHalf_halves (hi : Bool) (w : Word) (v : Half) :
    if hi then high32 (setHalf hi w v) = v ∧ low32 (setHalf hi w v) = low32 w
    else low32 (setHalf hi w v) = v ∧ high32 (setHalf hi w v) = high32 w := by
  cases hi <;> simp [setHalf]

theorem exec_a32Syswr_mapped {s : State} {a : A32Sys} {r : A64Sys} {w : Word} {hi : Bool} (v : Half)
    (hcur : s.curState = .aarch32) (htarget : a32SysTarget s a = some (if hi then .high r else .low r))
    (hr : readCell64 s r = some w) :
    exec (.a32Syswr a v) s = .next (s.withSys (writeCell64 s.cfg r (setHalf hi w v) s.sys)) := by
  have hwrite : exec (.a32Syswr a v) s = writeTarget (if hi then .high r else .low r) v s := by
    simp only [exec, execA32Syswr, inA32_of hcur, htarget]
  rw [hwrite]
  cases hi <;> simp [writeTarget, hr, setHalf]

theorem Inv.le_spsrWidth {s : State} (h : Inv s) : 32 ≤ s.cfg.spsrWidth := by
  have hwf := h.cfg
  simp only [Config.wf, Bool.and_eq_true, decide_eq_true_eq] at hwf
  obtain ⟨⟨⟨⟨⟨hwidth, _⟩, _⟩, _⟩, _⟩, _⟩ := hwf
  exact hwidth

theorem Inv.spsrTrunc_readCell64 {s : State} {r : A64Sys} {w : Word} (h : Inv s) (hspsr : r = .spsrEl1 ∨ r = .spsrEl2)
    (hr : readCell64 s r = some w) : spsrTrunc s.cfg w = w := by
  obtain rfl | rfl := hspsr
  · cases hr
    exact h.spsr1
  · cases hr
    exact h.spsr2

/-- An SPSR of at least 64 bits keeps a 64-bit value whole. -/
theorem spsrTrunc_of_le {c : Config} (h : 64 ≤ c.spsrWidth) (v : Word) : spsrTrunc c v = v := by
  apply BitVec.eq_of_getLsbD_eq
  intro i hi
  have hlt : i < c.spsrWidth := by omega
  simp [getLsbD_spsrTrunc, hlt]

/-- A cell that holds its register's implemented bits keeps a written half whole: the low half of an SPSR is
implemented (R4 P7), and the high half is where the SPSR has all of it. -/
theorem Inv.storedValue_setHalf {s : State} {r : A64Sys} {w : Word} {hi : Bool} (h : Inv s)
    (hr : readCell64 s r = some w) (hhigh : hi = true → r = .spsrEl1 ∨ r = .spsrEl2 → 64 ≤ s.cfg.spsrWidth)
    (v : Half) : storedValue s.cfg r (setHalf hi w v) = setHalf hi w v := by
  unfold storedValue
  split
  · rename_i hspsr
    cases hi with
    | true => exact spsrTrunc_of_le (hhigh rfl hspsr) _
    | false => exact spsrTrunc_setLow32 _ _ _ (h.spsrTrunc_readCell64 hspsr hr) h.le_spsrWidth
  · rfl

/-- Settles O50: the write is one of the mapped half in the register's own cell, which keeps it whole, and a write of
a cell of 64 bits leaves everything else. -/
theorem a32SysregWriteAffectsOnlyMappedPart : Obligations.A32SysregWriteAffectsOnlyMappedPart := by
  intro s a v r w hi hinv hcur htarget hr hhigh
  have hread : readCell64 (s.withSys (writeCell64 s.cfg r (setHalf hi w v) s.sys)) r = some (setHalf hi w v) := by
    rw [readCell64_writeCell64_same _ hr, hinv.storedValue_setHalf hr hhigh]
  exact ⟨s.withSys (writeCell64 s.cfg r (setHalf hi w v) s.sys), setHalf hi w v,
    exec_a32Syswr_mapped v hcur htarget hr, rfl, hread, setHalf_halves hi w v,
    fun _ hne => readCell64_writeCell64_ne _ hne, fun r' => readTop_writeCell64 _ r r' _ _,
    readCell32_writeCell64 _ _ _ _, writeCell64_el3 _ _ _ _⟩

/-! ## The cells of the AArch32 registers -/

/-- No AArch32 register with a cell of its own belongs to EL0, so AArch64 code reaches one above EL1 only (R129,
R132). -/
theorem one_le_num_cellLevel (c : A32Cell) : 1 ≤ (cellLevel c).num := by
  cases c <;> decide

theorem execA64Syswr_keeps_cells_or_above_el1 {r : A64Sys} {v : Nat} {s t : State}
    (h : execA64Syswr r v s = .next t) :
    (∀ c, readCell32 t.sys c = readCell32 s.sys c) ∨ (s.curState = .aarch64 ∧ 1 < s.el.num) := by
  obtain ⟨hcur, ⟨c, _, habove, _⟩ | ⟨w, _, _, rfl⟩⟩ := execA64Syswr_next h
  · exact .inr ⟨hcur, (one_le_num_cellLevel c).trans_lt habove⟩
  · exact .inl (readCell32_writeWhole _ _ _ _)

/-- R131 for every AArch32 register with a cell of its own. -/
theorem exec_keeps_cells {i : Instr} {s t : State} (h : exec i s = .next t) :
    (∀ c, readCell32 t.sys c = readCell32 s.sys c) ∨
    (∃ a v, i = .a32Syswr a v ∧ s.curState = .aarch32) ∨
    (∃ r v, i = .a64Syswr r v ∧ s.curState = .aarch64 ∧ 1 < s.el.num) := by
  obtain ⟨a, v, rfl, hw⟩ | ⟨r, v, rfl, hw⟩ | htransfer | ⟨_, hsys⟩ := exec_sysRegs_cases h
  · exact .inr (.inl ⟨a, v, rfl, (execA32Syswr_next hw).1⟩)
  · obtain hkept | habove := execA64Syswr_keeps_cells_or_above_el1 hw
    · exact .inl hkept
    · exact .inr (.inr ⟨r, v, rfl, habove⟩)
  · exact .inl (readCell32_exec_transfer h htransfer)
  · exact .inl fun c => by rw [hsys]

/-- Settles O56: the four registers are cells of the AArch32 registers' own, which `exec_keeps_cells` is about. -/
theorem bankedSpsrsRetained : Obligations.BankedSpsrsRetained := by
  intro i s t h
  obtain hkept | hwrite := exec_keeps_cells h
  · exact .inl ⟨hkept .spsrAbt, hkept .spsrUnd, hkept .spsrIrq, hkept .spsrFiq⟩
  · exact .inr hwrite

/-! ## The stack pointers and ELR_EL1 -/

theorem readCell64_congr {s t : State} (hcfg : t.cfg = s.cfg) (hsys : t.sys = s.sys) (r : A64Sys) :
    readCell64 t r = readCell64 s r := by
  simp only [readCell64, hcfg, hsys]

/-- The spec's own `SysMap` (R135): an AArch32 register is stored in a cell of its own, or in the low half of one of
three AArch64 registers. -/
theorem a32SysTarget_of_sysMapExt_nil {s : State} {a : A32Sys} {g : SysTarget} (hmap : s.cfg.sysMapExt = [])
    (h : a32SysTarget s a = some g) :
    (∃ c, g = .own c) ∨ ∃ r ∈ [A64Sys.spsrEl1, .spsrEl2, .elrEl2], g = .low r := by
  cases a with
  | spsrSvc | spsrHyp | elrHyp =>
    cases h
    exact .inr ⟨_, by decide, rfl⟩
  | spsrAbt | spsrUnd | spsrIrq | spsrFiq =>
    cases h
    exact .inl ⟨_, rfl⟩
  | _ => simp [a32SysTarget, sysMapExtTarget, hmap] at h

theorem readCell64_execA32Syswr {a : A32Sys} {v : Half} {s t : State} {r : A64Sys} (hmap : s.cfg.sysMapExt = [])
    (hr : r ∉ [A64Sys.spsrEl1, .spsrEl2, .elrEl2]) (h : execA32Syswr a v s = .next t) :
    readCell64 t r = readCell64 s r := by
  obtain ⟨_, g, htarget, hwrite⟩ := execA32Syswr_next h
  have hg := a32SysTarget_of_sysMapExt_nil hmap htarget
  obtain rfl | ⟨c, _, rfl⟩ | ⟨r', w, rfl, _, rfl⟩ | ⟨r', w, rfl, _, _⟩ := writeTarget_next hwrite
  · rfl
  · exact readCell64_writeCell32 c v s r
  · obtain ⟨c, hc⟩ | ⟨r'', hmem, hlow⟩ := hg
    · cases hc
    · cases hlow
      exact readCell64_writeCell64_ne _ (ne_of_mem_of_not_mem hmem hr).symm
  · obtain ⟨c, hc⟩ | ⟨r'', _, hlow⟩ := hg
    · cases hc
    · cases hlow

/-- With the spec's own `SysMap`, an operation in AArch32 state, other than the entry that leaves it, keeps every
AArch64 register but the three mapped ones (R122, R135). -/
theorem readCell64_exec_of_a32 {i : Instr} {s t : State} {r : A64Sys} (hmap : s.cfg.sysMapExt = [])
    (hcur : s.curState = .aarch32) (htransfer : isTransfer i = false) (hr : r ∉ [A64Sys.spsrEl1, .spsrEl2, .elrEl2])
    (h : exec i s = .next t) : readCell64 t r = readCell64 s r := by
  obtain ⟨a, v, rfl, hw⟩ | ⟨r', v, rfl, hw⟩ | htransfer' | ⟨hcfg, hsys⟩ := exec_sysRegs_cases h
  · exact readCell64_execA32Syswr hmap hr hw
  · have hcur' := (execA64Syswr_next hw).1
    simp [hcur] at hcur'
  · simp [htransfer] at htransfer'
  · exact readCell64_congr hcfg hsys r

/-- R134 for the operations inside the visit to AArch32 state. -/
theorem exec_keeps_stackPointers_of_a32 {i : Instr} {s t : State} (hmap : s.cfg.sysMapExt = [])
    (hcur : s.curState = .aarch32) (htransfer : isTransfer i = false) (h : exec i s = .next t) :
    t.sys.spEl0 = s.sys.spEl0 ∧ t.sys.spEl1 = s.sys.spEl1 ∧ t.sys.spEl2 = s.sys.spEl2 ∧
      t.sys.elrEl1 = s.sys.elrEl1 := by
  have hkept : ∀ r ∉ [A64Sys.spsrEl1, .spsrEl2, .elrEl2], readCell64 t r = readCell64 s r :=
    fun r hr => readCell64_exec_of_a32 hmap hcur htransfer hr h
  exact ⟨Option.some.inj (hkept .spEl0 (by decide)), Option.some.inj (hkept .spEl1 (by decide)),
    Option.some.inj (hkept .spEl2 (by decide)), Option.some.inj (hkept .elrEl1 (by decide))⟩

/-- R134 for the return that begins the visit and the entry that ends it. -/
theorem exec_transfer_keeps_stackPointers {i : Instr} {s t : State} (htransfer : isTransfer i = true)
    (h : exec i s = .next t) :
    t.sys.spEl0 = s.sys.spEl0 ∧ t.sys.spEl1 = s.sys.spEl1 ∧ t.sys.spEl2 = s.sys.spEl2 ∧
      ((∀ p, i ≠ .excEntry .el1 p) → t.sys.elrEl1 = s.sys.elrEl1) := by
  obtain ⟨l, p, z, rfl, _, _, rfl⟩ | ⟨l, m, p, _, _, rfl⟩ := exec_transfer h htransfer
  · rw [sys_enterA64]
    obtain ⟨hsp0, hsp1, hsp2, helr⟩ := sysAfterEntry_stackPointers l s
    exact ⟨hsp0, hsp1, hsp2, fun hne => helr fun hl => hne p (by rw [hl])⟩
  · rw [sys_enterA32]
    exact ⟨rfl, rfl, rfl, fun _ => rfl⟩

/-- Settles O57: a transfer has the four registers outside its frame, but for ELR_EL1 on an entry to EL1; and no other
operation in AArch32 state reaches a register that is not mapped. -/
theorem stackPointersRetained : Obligations.StackPointersRetained := by
  intro i s t hmap hvisit h
  cases htransfer : isTransfer i with
  | true => exact exec_transfer_keeps_stackPointers htransfer h
  | false =>
    have hcur : s.curState = .aarch32 := hvisit.resolve_right (by simp [htransfer])
    obtain ⟨hsp0, hsp1, hsp2, helr⟩ := exec_keeps_stackPointers_of_a32 hmap hcur htransfer h
    exact ⟨hsp0, hsp1, hsp2, fun _ => helr⟩

end Sys2Proof.Machine
end

section
/-!
PROOFS. PSTATE.SM and PSTATE.ZA in interprocessing (44_sme_interprocessing.md): what each of them is after a change of
Execution state (R140, R141), and the Effective value of PSTATE.SM in each state (R142).
-/
namespace Sys2Proof.Machine

/-! ## The Effective value of PSTATE.SM in each Execution state -/

theorem effectiveSM_of_aarch32 {s : State} (hcur : s.curState = .aarch32) : effectiveSM s = false := by
  simp [effectiveSM, hcur]

/-- In AArch64 state only the lack of SME makes the Effective value another than the stored one (R38). -/
theorem effectiveSM_of_aarch64 {s : State} (hcur : s.curState = .aarch64) :
    effectiveSM s = (s.cfg.haveSME && s.psSM) := by
  simp [effectiveSM, hcur]

/-! ## The stored bits after a change of Execution state -/

theorem storedSM_ZA_enterA32 (l : EL) (m : Mode) (p : Word) (s : State) :
    (enterA32 l m p s).psSM = s.psSM ∧ (enterA32 l m p s).psZA = s.psZA := by
  rw [enterA32_eq]
  exact ⟨rfl, rfl⟩

theorem storedSM_ZA_enterA64 (z : RegRanges) (l : EL) (p : Word) (s : State) :
    (enterA64 z l p s).psSM = s.psSM ∧ (enterA64 z l p s).psZA = s.psZA := by
  rw [enterA64_eq]
  exact ⟨rfl, rfl⟩

/-- The value in force after an entry is the one stored before it (R142). -/
theorem effectiveSM_enterA64 (z : RegRanges) (l : EL) (p : Word) (s : State) :
    effectiveSM (enterA64 z l p s) = (s.cfg.haveSME && s.psSM) := by
  rw [effectiveSM_of_aarch64 rfl, enterA64_eq]

/-- Settles O33: a return that completes is `enterA32` and an entry that completes is `enterA64`; both have the stored
bits outside their frame, and the Execution state each ends in decides the Effective value. -/
theorem smAndZaAcrossStateChange : Obligations.SmAndZaAcrossStateChange := by
  refine ⟨fun _ => effectiveSM_of_aarch32, fun s t l st m p h => ?ret, fun s t l p h => ?entry⟩
  case ret =>
    rw [exec_excReturn] at h
    obtain ⟨m', _, _, _, rfl⟩ := returnFromException_next h
    obtain ⟨hsm, hza⟩ := storedSM_ZA_enterA32 l m' p s
    exact ⟨hsm, hza, effectiveSM_of_aarch32 rfl⟩
  case entry =>
    rw [exec_excEntry] at h
    obtain ⟨_, z, _, rfl⟩ := takeException_next h
    obtain ⟨hsm, hza⟩ := storedSM_ZA_enterA64 z l p s
    exact ⟨hsm, hza, effectiveSM_enterA64 z l p s⟩

end Sys2Proof.Machine
end

section
/-!
PROOFS. Items and operations (30_encoding.md): the one machine word (R72), and the lines of a trace (R77), whose
tokens are taken apart again into the operation they were written for.
-/
namespace Sys2Proof.Machine

/-! ## The machine word -/

theorem eretWord_eq : eretWord = 0xD69F03E0#32 := by decide

theorem decodeWord_eq_ok_iff (w : BitVec 32) (i : Instr) : decodeWord w = .ok i ↔ w = eretWord ∧ i = .eret := by
  unfold decodeWord
  split
  · rename_i hw
    simp [hw, eq_comm]
  · rename_i hw
    simp [hw]

/-- Settles O1: the word compared with is the one whose fields R72 gives, which is 0xD69F03E0. -/
theorem onlyTheEretWordDecodes : Obligations.OnlyTheEretWordDecodes := by
  intro w i
  rw [← eretWord_eq]
  exact decodeWord_eq_ok_iff w i

/-- Settles O2: each line is a closed text, which the decoder is run on. -/
theorem specTraceLinesDecode : Obligations.SpecTraceLinesDecode :=
  ⟨by decide, by decide, by decide, by decide, by decide, by decide, by decide, by decide, by decide, by decide,
    by decide⟩

/-! ## The tokens of a line in parts -/

theorem splitToks_append_sep (a b : List Char) {c : Char} (hc : isSep c = true) :
    splitToks (a ++ c :: b) = splitToks a ++ splitToks b := by
  induction a with
  | nil => simp [splitToks, hc]
  | cons d ds ih =>
    simp only [List.cons_append, splitToks, ih]
    split
    · rfl
    · cases hds : splitToks ds with
      | nil => exact absurd hds (splitToks_ne_nil ds)
      | cons t ts => rfl

/-- Two stretches with a space between them have their tokens one after the other. -/
theorem tokens_append_space {a : List Char} (ha : ∀ c ∈ a, c ≠ ';') (b : List Char) :
    tokens (a ++ ' ' :: b) = tokens a ++ tokens b := by
  have hcut : (a ++ ' ' :: b).takeWhile (· != ';') = a ++ ' ' :: b.takeWhile (· != ';') := by
    rw [List.takeWhile_append_of_pos (by simpa using ha), List.takeWhile_cons_of_pos (by decide)]
  rw [tokens, tokens, tokens, hcut, takeWhile_plain a ha, splitToks_append_sep _ _ (by decide), List.filter_append]

theorem tokens_of_plainToken {t : Name} (ht : plainToken t = true) : tokens t = [t] := by
  have hcomment : ∀ c ∈ t, c ≠ ';' := joinOperands_plain [t] (by simpa using ht)
  obtain ⟨hne, hplain⟩ : (!t.isEmpty) = true ∧ t.all plainChar = true := by
    simpa only [plainToken, Bool.and_eq_true] using ht
  rw [tokens, takeWhile_plain t hcomment, splitToks_plain t hplain]
  simp [hne]

/-! ## The line of an operation -/

theorem plainToken_operandTokens {i : Instr} (h : i.wellFormed = true) : ∀ t ∈ operandTokens i, plainToken t = true := by
  cases i with
  | eret => exact Laws.OperandsPlain.eret h
  | a32Rd n => exact Laws.OperandsPlain.a32Rd n h
  | a32Wr n v => exact Laws.OperandsPlain.a32Wr n v h
  | a64Rd n => exact Laws.OperandsPlain.a64Rd n h
  | a64Wr n v => exact Laws.OperandsPlain.a64Wr n v h
  | a32Qrd n => exact Laws.OperandsPlain.a32Qrd n h
  | a32Qwr n v => exact Laws.OperandsPlain.a32Qwr n v h
  | a32Drd m => exact Laws.OperandsPlain.a32Drd m h
  | a32Dwr m v => exact Laws.OperandsPlain.a32Dwr m v h
  | a32Srd m => exact Laws.OperandsPlain.a32Srd m h
  | a32Swr m v => exact Laws.OperandsPlain.a32Swr m v h
  | a64Vrd n => exact Laws.OperandsPlain.a64Vrd n h
  | a64Vwr n v => exact Laws.OperandsPlain.a64Vwr n v h
  | a64Drd n => exact Laws.OperandsPlain.a64Drd n h
  | a64Srd n => exact Laws.OperandsPlain.a64Srd n h
  | a32Sysrd a => exact Laws.OperandsPlain.a32Sysrd a h
  | a32Syswr a v => exact Laws.OperandsPlain.a32Syswr a v h
  | a64Sysrd r => exact Laws.OperandsPlain.a64Sysrd r h
  | a64Syswr r v => exact Laws.OperandsPlain.a64Syswr r v h
  | excEntry t p => exact Laws.OperandsPlain.excEntry t p h
  | excReturn t st m p => exact Laws.OperandsPlain.excReturn t st m p h
  | a32Setmode t m => exact Laws.OperandsPlain.a32Setmode t m h

theorem encodeLine_of_no_operands {i : Instr} (h : operandTokens i = []) : encodeLine i = nameOf opNames (opOf i) := by
  simp only [encodeLine, h]

theorem encodeLine_of_operands {i : Instr} (h : operandTokens i ≠ []) :
    encodeLine i = nameOf opNames (opOf i) ++ ' ' :: joinOperands (operandTokens i) := by
  unfold encodeLine
  split
  · contradiction
  · rfl

/-- The tokens of an operation's line are its name and its operands (R77). -/
theorem tokens_encodeLine {i : Instr} (h : i.wellFormed = true) :
    tokens (encodeLine i) = nameOf opNames (opOf i) :: operandTokens i := by
  by_cases hnil : operandTokens i = []
  · rw [encodeLine_of_no_operands hnil, hnil, tokens_of_plainToken (plainToken_opName _)]
  · rw [encodeLine_of_operands hnil, tokens_join _ _ (plainToken_opName _) (plainToken_operandTokens h)]

theorem encodeLine_no_comment {i : Instr} (h : i.wellFormed = true) : ∀ c ∈ encodeLine i, c ≠ ';' := by
  have hname : ∀ c ∈ nameOf opNames (opOf i), c ≠ ';' :=
    joinOperands_plain [nameOf opNames (opOf i)] (by simpa using plainToken_opName (opOf i))
  by_cases hnil : operandTokens i = []
  · rwa [encodeLine_of_no_operands hnil]
  · rw [encodeLine_of_operands hnil]
    simp only [List.forall_mem_append, List.forall_mem_cons]
    exact ⟨hname, by decide, joinOperands_plain _ (plainToken_operandTokens h)⟩

/-! ## The operation of a line's tokens -/

theorem nameOperand_elName (l : EL) : nameOperand elNames (nameOf elNames l) = .ok l := by
  rw [nameOperand, lookupName_elNames]

theorem nameOperand_stateName (e : ExecState) : nameOperand stateNames (nameOf stateNames e) = .ok e := by
  rw [nameOperand, lookupName_stateNames]

theorem nameOperand_modeName (m : Mode) : nameOperand modeNames (nameOf modeNames m) = .ok m := by
  rw [nameOperand, lookupName_modeNames]

/-- Every operand is read back from its token. -/
theorem buildInstr_operandTokens {i : Instr} (h : i.wellFormed = true) :
    buildInstr (opOf i) (operandTokens i) = .ok i := by
  cases i with
  | eret => rfl
  | a32Rd n | a32Qrd n =>
    rw [opOf, operandTokens, buildInstr, regOperand_decToken 16 (by decide)]
    rfl
  | a64Rd n =>
    rw [opOf, operandTokens, buildInstr, regOperand_decToken 31 (by decide)]
    rfl
  | a32Drd n | a32Srd n | a64Vrd n | a64Drd n | a64Srd n =>
    rw [opOf, operandTokens, buildInstr, regOperand_decToken 32 (by decide)]
    rfl
  | a32Wr n v =>
    rw [opOf, operandTokens, buildInstr, regOperand_decToken 16 (by decide), valueOperand_hexToken 8 32 (by decide) rfl]
    rfl
  | a64Wr n v =>
    rw [opOf, operandTokens, buildInstr, regOperand_decToken 31 (by decide), valueOperand_hexToken 16 64 (by decide) rfl]
    rfl
  | a32Qwr n v =>
    rw [opOf, operandTokens, buildInstr, regOperand_decToken 16 (by decide), valueOperand_hexToken 32 128 (by decide) rfl]
    rfl
  | a32Dwr m v =>
    rw [opOf, operandTokens, buildInstr, regOperand_decToken 32 (by decide), valueOperand_hexToken 16 64 (by decide) rfl]
    rfl
  | a32Swr m v =>
    rw [opOf, operandTokens, buildInstr, regOperand_decToken 32 (by decide), valueOperand_hexToken 8 32 (by decide) rfl]
    rfl
  | a64Vwr n v =>
    rw [opOf, operandTokens, buildInstr, regOperand_decToken 32 (by decide), valueOperand_hexToken 32 128 (by decide) rfl]
    rfl
  | a32Sysrd a =>
    rw [opOf, operandTokens, buildInstr, a32SysOperand_a32SysToken a h]
    rfl
  | a32Syswr a v =>
    rw [opOf, operandTokens, buildInstr, a32SysOperand_a32SysToken a h, valueOperand_hexToken 8 32 (by decide) rfl]
    rfl
  | a64Sysrd r =>
    rw [opOf, operandTokens, buildInstr, a64SysOperand_a64SysToken r h]
    rfl
  | a64Syswr r v =>
    obtain ⟨hr, hfits⟩ : r.wellFormed = true ∧ r.fits v = true := by
      simpa only [Instr.wellFormed, Bool.and_eq_true] using h
    rw [opOf, operandTokens, buildInstr, a64SysOperand_a64SysToken r hr]
    show (do return Instr.a64Syswr r (← sysValueOperand r (wideToken v))) = Except.ok (Instr.a64Syswr r v)
    rw [sysValueOperand_wideToken r v hfits]
    rfl
  | excEntry t p =>
    rw [opOf, operandTokens, buildInstr, nameOperand_elName, valueOperand_hexToken 16 64 (by decide) rfl]
    rfl
  | excReturn t st m p =>
    rw [opOf, operandTokens, buildInstr, nameOperand_elName, nameOperand_stateName, modeOperand_modeToken,
      valueOperand_hexToken 16 64 (by decide) rfl]
    rfl
  | a32Setmode t m =>
    rw [opOf, operandTokens, buildInstr, nameOperand_elName, nameOperand_modeName]
    rfl

/-! ## The result that R77 lets follow a read -/

theorem isName_a32SysToken {a : A32Sys} (h : a.wellFormed = true) : isName (a32SysToken a) = true := by
  cases a with
  | other nm =>
    obtain ⟨hname, _⟩ : isName nm = true ∧ _ := by simpa only [A32Sys.wellFormed, Bool.and_eq_true] using h
    exact hname
  | _ => decide

theorem isName_a64SysToken {r : A64Sys} (h : r.wellFormed = true) : isName (a64SysToken r) = true := by
  cases r with
  | other nm =>
    obtain ⟨hname, _⟩ : isName nm = true ∧ _ := by simpa only [A64Sys.wellFormed, Bool.and_eq_true] using h
    exact hname
  | _ => decide

theorem isName_decToken {n : Nat} (hn : n < 32) : isName (decToken n) = true := by
  have hall : ∀ n : Fin 32, isName (decToken n.val) = true := by decide
  exact hall ⟨n, hn⟩

/-- A read has one operand, a register number or a register name. -/
theorem isName_operand_of_isRead {i : Instr} (h : i.wellFormed = true) (hread : (opOf i).isRead = true) :
    ∀ t ∈ operandTokens i, isName t = true := by
  cases i with
  | a32Rd n | a64Rd n | a32Qrd n | a32Drd n | a32Srd n | a64Vrd n | a64Drd n | a64Srd n =>
    exact List.forall_mem_singleton.mpr (isName_decToken (by omega))
  | a32Sysrd a => exact List.forall_mem_singleton.mpr (isName_a32SysToken h)
  | a64Sysrd r => exact List.forall_mem_singleton.mpr (isName_a64SysToken h)
  | _ => simp [opOf, Op.isRead] at hread

/-- The arrow of R77 is no name, so no operand of a read is taken for it. -/
theorem arrow_not_mem_operandTokens {i : Instr} (h : i.wellFormed = true) (hread : (opOf i).isRead = true) :
    ['-', '>'] ∉ operandTokens i :=
  fun hmem => absurd (isName_operand_of_isRead h hread _ hmem) (by decide)

theorem dropResult_cons_of_ne {t : Name} (ht : ['-', '>'] ≠ t) (ts : List Name) :
    dropResult (t :: ts) = t :: dropResult ts := by
  cases ts <;> simp [dropResult, Ne.symm ht]

theorem dropResult_of_no_arrow {ts : List Name} (h : ['-', '>'] ∉ ts) : dropResult ts = ts := by
  induction ts with
  | nil => rfl
  | cons t ts ih =>
    obtain ⟨ht, hts⟩ := List.ne_and_not_mem_of_not_mem_cons h
    rw [dropResult_cons_of_ne ht, ih hts]

theorem dropResult_append_result {ts : List Name} {v : Name} (h : ['-', '>'] ∉ ts) (hv : (parseHex v).isSome = true) :
    dropResult (ts ++ [['-', '>'], v]) = ts := by
  induction ts with
  | nil => simp [dropResult, hv]
  | cons t ts ih =>
    obtain ⟨ht, hts⟩ := List.ne_and_not_mem_of_not_mem_cons h
    rw [List.cons_append, dropResult_cons_of_ne ht, ih hts]

/-- A line is its operation if what is left of its operands, without the result of a read, are the operation's. -/
theorem decodeTokens_of_operands {i : Instr} {args : List Name} (h : i.wellFormed = true)
    (hargs : (if (opOf i).isRead then dropResult args else args) = operandTokens i) :
    decodeTokens (nameOf opNames (opOf i) :: args) = .ok i := by
  simp only [decodeTokens, lookupName_opNames, hargs, buildInstr_operandTokens h]

theorem decodeLine_encodeLine {i : Instr} (h : i.wellFormed = true) : decodeLine (encodeLine i) = .ok i := by
  rw [decodeLine, tokens_encodeLine h]
  refine decodeTokens_of_operands h ?_
  split
  · exact dropResult_of_no_arrow (arrow_not_mem_operandTokens h ‹_›)
  · rfl

theorem decodeLine_encodeLine_result {i : Instr} {v : Name} (h : i.wellFormed = true) (hread : (opOf i).isRead = true)
    (hplain : plainToken v = true) (hv : (parseHex v).isSome = true) :
    decodeLine (encodeLine i ++ ' ' :: '-' :: '>' :: ' ' :: v) = .ok i := by
  have harrow : tokens ('-' :: '>' :: ' ' :: v) = [['-', '>'], v] := by
    calc tokens ('-' :: '>' :: ' ' :: v)
        = tokens ['-', '>'] ++ tokens v := tokens_append_space (a := ['-', '>']) (by simp) v
      _ = [['-', '>'], v] := by rw [tokens_of_plainToken hplain, tokens_of_plainToken (by decide)]; rfl
  rw [decodeLine, tokens_append_space (encodeLine_no_comment h), tokens_encodeLine h, harrow, List.cons_append]
  refine decodeTokens_of_operands h ?_
  rw [if_pos hread, dropResult_append_result (arrow_not_mem_operandTokens h hread) hv]

/-- Settles O3: `ERET` is its word, and every other operation the line whose tokens are its name and operands. -/
theorem decodeInvertsEncode : Obligations.DecodeInvertsEncode := by
  intro i h
  cases i with
  | eret => exact (onlyTheEretWordDecodes eretWord .eret).mpr ⟨eretWord_eq, rfl⟩
  | _ => exact decodeLine_encodeLine h

/-! ## The line of an executed operation -/

theorem plainToken_resultToken (v : ReadValue) : plainToken (resultToken v) = true := by
  cases v <;> exact plainToken_hexToken _ _

theorem isSome_parseHex_hexToken {w k : Nat} (v : BitVec w) (hk : 0 < k) (hw : w = 4 * k) :
    (parseHex (hexToken k v.toNat)).isSome = true := by
  have hlt : v.toNat < 16 ^ k := by
    subst hw
    rw [show 16 = 2 ^ 4 from rfl, ← Nat.pow_mul]
    exact v.isLt
  rw [parseHex_hexToken k _ hk hlt]
  rfl

theorem isSome_parseHex_resultToken (v : ReadValue) : (parseHex (resultToken v)).isSome = true := by
  cases v with
  | bits32 v => exact isSome_parseHex_hexToken v (by decide) rfl
  | bits64 v => exact isSome_parseHex_hexToken v (by decide) rfl
  | bits128 v => exact isSome_parseHex_hexToken v (by decide) rfl
  | wide low top => rw [resultToken, parseHex_wideToken]; rfl

/-- Settles O4: a line with a value after the arrow has the operation's tokens, the arrow and the value's token, and of a
read the last two are dropped. -/
theorem traceLineReadsBack : Obligations.TraceLineReadsBack := by
  intro i s h
  unfold traceLine
  split
  · rename_i v hread _
    exact decodeLine_encodeLine_result h hread (plainToken_resultToken v) (isSome_parseHex_resultToken v)
  · exact decodeLine_encodeLine h

end Sys2Proof.Machine
end

section
/-!
PROOFS. The step and what every step keeps: how an item becomes an operation (30_encoding.md R70), the Execution state an
operation needs, and the invariants of the state (10_state.md R21, R22, R39; 00_scope.md R4; 40_state_change.md R80;
44_sme_interprocessing.md R145).
-/
namespace Sys2Proof.Machine

/-! ## The step -/

theorem fetch_of_decode_ok {s : State} {item : Item} {rest : List Item} {i : Instr} (hinput : s.input = item :: rest)
    (hi : decode item = .ok i) : fetch s = .ok (i, { s with input := rest }) := by
  simp only [fetch, hinput, hi]

theorem fetch_of_decode_error {s : State} {item : Item} {rest : List Item} {e : DecodeError}
    (hinput : s.input = item :: rest) (he : decode item = .error e) : fetch s = .error (.undecodable e) := by
  simp only [fetch, hinput, he]

theorem fetch_of_no_input {s : State} (hinput : s.input = []) : fetch s = .error .noOperation := by
  simp only [fetch, hinput]

/-- Taking the next item changes the items and nothing else. -/
theorem fetch_eq_ok {s s' : State} {i : Instr} (h : fetch s = .ok (i, s')) : ∃ rest, s' = { s with input := rest } := by
  unfold fetch at h
  split at h
  · cases h
  · split at h
    · cases h
      exact ⟨_, rfl⟩
    · cases h

theorem step_of_fetch_ok {s s' : State} {i : Instr} (h : fetch s = .ok (i, s')) : step s = exec i s' := by
  simp only [step, h]

theorem step_of_fetch_error {s : State} {r : Refusal} (h : fetch s = .error r) : step s = .refused r := by
  simp only [step, h]

/-- A step that goes on has executed an operation on the state without the item it came from. -/
theorem step_next {s t : State} (h : step s = .next t) : ∃ i rest, exec i { s with input := rest } = .next t := by
  cases hfetch : fetch s with
  | error r =>
    rw [step_of_fetch_error hfetch] at h
    cases h
  | ok p =>
    obtain ⟨i, s'⟩ := p
    obtain ⟨rest, rfl⟩ := fetch_eq_ok hfetch
    exact ⟨i, rest, (step_of_fetch_ok hfetch).symm.trans h⟩

/-- Settles O5: the item taken is the first of the input, and the word that is placed is the one R72 gives `ERET`. -/
theorem stepRunsDecodedOperation : Obligations.StepRunsDecodedOperation := by
  refine ⟨fun s item rest i hinput hi => step_of_fetch_ok (fetch_of_decode_ok hinput hi), fun s => ?_⟩
  have hword : decode (.word (BitVec.ofNat 32 0xD69F03E0)) = .ok .eret := (onlyTheEretWordDecodes _ _).mpr ⟨rfl, rfl⟩
  exact step_of_fetch_ok (fetch_of_decode_ok (s := s.withFetchWord 32 0xD69F03E0) rfl hword)

/-- Settles O6: the step answers the refusal of `fetch`. -/
theorem stepRefusesWhatIsNoOperation : Obligations.StepRefusesWhatIsNoOperation :=
  ⟨fun _ _ _ _ hinput he => step_of_fetch_error (fetch_of_decode_error hinput he),
    fun _ hinput => step_of_fetch_error (fetch_of_no_input hinput)⟩

/-! ## The Execution state an operation needs -/

/-- Settles O7: an operation that needs an Execution state begins with the test for it (R70). -/
theorem wrongStateRefused : Obligations.WrongStateRefused := by
  intro i s e hneeded hne
  cases i with
  | excEntry | excReturn => simp [neededState] at hneeded
  | eret | a64Rd | a64Wr | a64Vrd | a64Vwr | a64Drd | a64Srd | a64Sysrd | a64Syswr
  | a32Rd | a32Wr | a32Qrd | a32Qwr | a32Drd | a32Dwr | a32Srd | a32Swr | a32Sysrd | a32Syswr | a32Setmode =>
    cases hneeded
    exact if_neg hne

/-! ## What an operation can do, in four cases -/

/-- An operation that goes on is an entry, a return, a change of mode, or one that writes registers at most. -/
theorem exec_cases {i : Instr} {s t : State} (h : exec i s = .next t) :
    (∃ l p z, i = .excEntry l p ∧ EntryLegal s l ∧ t = enterA64 z l p s) ∨
    (∃ l m p, isTransfer i = true ∧ ReturnLegal s l m ∧ t = enterA32 l m p s) ∨
    (∃ l m, i = .a32Setmode l m ∧ SetmodeLegal s l m ∧ t = { s with el := l, mode := m }) ∨
    (t = { s with x := t.x, vreg := t.vreg, sys := t.sys, result := t.result, draws := t.draws } ∧
      SysWritten s t.sys) := by
  cases htransfer : isTransfer i with
  | true =>
    obtain ⟨l, p, z, hi, hlegal, _, ht⟩ | ⟨l, m, p, _, hlegal, ht⟩ := exec_transfer h htransfer
    · exact .inl ⟨l, p, z, hi, hlegal, ht⟩
    · exact .inr (.inl ⟨l, m, p, rfl, hlegal, ht⟩)
  | false =>
    by_cases hsetmode : ∃ l m, i = .a32Setmode l m
    · obtain ⟨l, m, rfl⟩ := hsetmode
      obtain ⟨hlegal, ht⟩ := execA32Setmode_next h
      exact .inr (.inr (.inl ⟨l, m, rfl, hlegal, ht⟩))
    · exact .inr (.inr (.inr (exec_quiet h htransfer fun l m hi => hsetmode ⟨l, m, hi⟩)))

theorem cfg_enterA64 (z : RegRanges) (l : EL) (p : Word) (s : State) : (enterA64 z l p s).cfg = s.cfg := by
  rw [enterA64_eq]

/-- Settles O11: the parameters are in the frame of no case. -/
theorem parametersNeverChange : Obligations.ParametersNeverChange := by
  intro i s t h
  obtain ⟨l, p, z, _, _, rfl⟩ | ⟨l, m, p, _, _, rfl⟩ | ⟨l, m, _, _, rfl⟩ | ⟨ht, _⟩ := exec_cases h
  · exact cfg_enterA64 z l p s
  · exact cfg_enterA32 l m p s
  · rfl
  · rw [ht]

/-- Settles O35: a change of Execution state resets SVE state, and none of these. -/
theorem zaStateNeverChanges : Obligations.ZaStateNeverChanges := by
  intro i s t h
  obtain ⟨l, p, z, _, _, rfl⟩ | ⟨l, m, p, _, _, rfl⟩ | ⟨l, m, _, _, rfl⟩ | ⟨ht, _⟩ := exec_cases h
  · rw [enterA64_eq]
    exact ⟨rfl, rfl, rfl, rfl⟩
  · rw [enterA32_eq]
    exact ⟨rfl, rfl, rfl, rfl⟩
  · exact ⟨rfl, rfl, rfl, rfl⟩
  · exact ⟨(by rw [ht]), (by rw [ht]), (by rw [ht]), (by rw [ht])⟩

/-- Settles O14: an entry goes up from AArch32, a return down from AArch64, and the other two cases keep `curState` and
the pc. -/
theorem executionStateChangesOnlyWithLevel : Obligations.ExecutionStateChangesOnlyWithLevel := by
  intro i s t h
  obtain ⟨l, p, z, rfl, ⟨hcur, _, _, hhigher⟩, rfl⟩ | ⟨l, m, p, htransfer, ⟨hcur, hlower, _⟩, rfl⟩ |
    ⟨l, m, rfl, _, rfl⟩ | ⟨ht, _⟩ := exec_cases h
  · have hchanged : (enterA64 z l p s).curState ≠ s.curState := by
      rw [hcur]
      exact nofun
    exact ⟨fun _ => ⟨rfl, .inl ⟨hcur, hhigher⟩⟩, nofun, fun hsame => absurd hsame hchanged⟩
  · have hchanged : (enterA32 l m p s).curState ≠ s.curState := by
      rw [hcur]
      exact nofun
    exact ⟨fun _ => ⟨htransfer, .inr ⟨hcur, hlower⟩⟩, fun hno => absurd htransfer (by simp [hno]),
      fun hsame => absurd hsame hchanged⟩
  · exact ⟨fun hne => absurd rfl hne, fun _ hset => absurd rfl (hset l m), fun _ => rfl⟩
  · have hcur : t.curState = s.curState := by rw [ht]
    exact ⟨fun hne => absurd hcur hne, fun _ _ => (by rw [ht]), fun _ => (by rw [ht])⟩

/-! ## The invariant -/

/-- Each SPSR has exactly the bits of its width: the last six clauses of the invariant (R4 P7). -/
structure SpsrsFit (c : Config) (g : SysRegs) : Prop where
  spsr1 : spsrTrunc c g.spsrEl1 = g.spsrEl1
  spsr2 : spsrTrunc c g.spsrEl2 = g.spsrEl2
  spsr3 : spsrTrunc c g.spsrEl3 = g.spsrEl3
  top1 : g.spsrEl1Top.length = c.spsrWidth - 64
  top2 : g.spsrEl2Top.length = c.spsrWidth - 64
  top3 : g.spsrEl3Top.length = c.spsrWidth - 64

theorem Inv.spsrsFit {s : State} (h : Inv s) : SpsrsFit s.cfg s.sys :=
  ⟨h.spsr1, h.spsr2, h.spsr3, h.top1, h.top2, h.top3⟩

theorem SpsrsFit.writeCell64 {c : Config} {g : SysRegs} (h : SpsrsFit c g) (r : A64Sys) (v : Word) :
    SpsrsFit c (writeCell64 c r v g) := by
  cases r with
  | spsrEl1 => exact { h with spsr1 := spsrTrunc_idem c v }
  | spsrEl2 => exact { h with spsr2 := spsrTrunc_idem c v }
  | _ => exact { h with }

theorem SpsrsFit.writeTop {c : Config} {g : SysRegs} (h : SpsrsFit c g) (r : A64Sys) {top : List Bool}
    (htop : top.length = c.spsrWidth - 64) : SpsrsFit c (writeTop r top g) := by
  cases r with
  | spsrEl1 => exact { h with top1 := htop }
  | spsrEl2 => exact { h with top2 := htop }
  | _ => exact h

theorem SpsrsFit.writeCell32 {c : Config} {g : SysRegs} (h : SpsrsFit c g) (k : A32Cell) (v : Half) :
    SpsrsFit c (writeCell32 k v g) := by
  cases k <;> exact { h with }

theorem SpsrsFit.of_sysWritten {s : State} {g : SysRegs} (h : SpsrsFit s.cfg s.sys) (hw : SysWritten s g) :
    SpsrsFit s.cfg g := by
  obtain rfl | ⟨c, v, rfl⟩ | ⟨r, v, w, _, rfl⟩ | ⟨r, v, w, _, rfl⟩ := hw
  · exact h
  · exact h.writeCell32 c v
  · exact h.writeCell64 r v
  · exact (h.writeCell64 r _).writeTop r (length_spsrTop s.cfg v)

/-- The entry keeps of what it draws for the SPSR of its target as many bits as the register has (R154). -/
theorem SpsrsFit.sysAfterEntry {s : State} (h : SpsrsFit s.cfg s.sys) (l : EL) : SpsrsFit s.cfg (sysAfterEntry l s) := by
  cases l with
  | el0 => exact { h with }
  | el1 => exact { h with spsr1 := spsrTrunc_idem s.cfg _, top1 := length_spsrTop s.cfg _ }
  | el2 => exact { h with spsr2 := spsrTrunc_idem s.cfg _, top2 := length_spsrTop s.cfg _ }
  | el3 => exact { h with spsr3 := spsrTrunc_idem s.cfg _, top3 := length_spsrTop s.cfg _ }

/-- The invariant of another state with the same parameters, whose SVE and ZA state has the same sizes. -/
theorem Inv.of_frame {s t : State} (h : Inv s) (hcfg : t.cfg = s.cfg) (hlevel : levelImplemented s.cfg t.el = true)
    (hmode : t.curState = .aarch32 → modeBelongs s.cfg t.mode t.el = true)
    (hsve : t.sveState.map List.length = s.sveState.map List.length) (hza : t.zaStorage = s.zaStorage)
    (hzt0 : t.zt0 = s.zt0) (hfit : SpsrsFit s.cfg t.sys) : Inv t where
  cfg := hcfg ▸ h.cfg
  level := hcfg ▸ hlevel
  mode := hcfg ▸ hmode
  sve := hcfg ▸ hsve.trans h.sve
  za := by rw [hcfg, hza, h.za]
  zt0 := by rw [hcfg, hzt0, h.zt0]
  spsr1 := hcfg ▸ hfit.spsr1
  spsr2 := hcfg ▸ hfit.spsr2
  spsr3 := hcfg ▸ hfit.spsr3
  top1 := hcfg ▸ hfit.top1
  top2 := hcfg ▸ hfit.top2
  top3 := hcfg ▸ hfit.top3

/-- A reset of the SVE registers keeps their sizes (R146). -/
theorem lengths_reset_sveState (s : State) :
    (if smResets s then s.sveState.map fun r => fixedBits s.cfg.smFixedRegBits r.length else s.sveState).map List.length =
      s.sveState.map List.length := by
  split
  · simp [Function.comp_def]
  · rfl

theorem Inv.enterA64 {s : State} {l : EL} (h : Inv s) (hlegal : EntryLegal s l) (z : RegRanges) (p : Word) :
    Inv (enterA64 z l p s) := by
  obtain ⟨_, husable, _, _⟩ := hlegal
  rw [enterA64_eq]
  exact h.of_frame rfl (levelImplemented_of_usable husable) nofun (lengths_reset_sveState s) rfl rfl
    (h.spsrsFit.sysAfterEntry l)

theorem Inv.enterA32 {s : State} {l : EL} {m : Mode} (h : Inv s) (hlegal : ReturnLegal s l m) (p : Word) :
    Inv (enterA32 l m p s) := by
  obtain ⟨_, _, himplemented, _, _, hbelongs⟩ := hlegal
  rw [enterA32_eq]
  exact h.of_frame rfl himplemented (fun _ => hbelongs) (lengths_reset_sveState s) rfl rfl { h.spsrsFit with }

theorem Inv.exec {i : Instr} {s t : State} (h : Inv s) (hexec : exec i s = .next t) : Inv t := by
  obtain ⟨l, p, z, _, hlegal, rfl⟩ | ⟨l, m, p, _, hlegal, rfl⟩ | ⟨l, m, _, ⟨_, husable, _, hbelongs⟩, rfl⟩ |
    ⟨ht, hw⟩ := exec_cases hexec
  · exact h.enterA64 hlegal z p
  · exact h.enterA32 hlegal p
  · exact h.of_frame rfl (levelImplemented_of_usable husable) (fun _ => hbelongs) rfl rfl rfl h.spsrsFit
  · have hfit := h.spsrsFit.of_sysWritten hw
    rw [ht]
    exact h.of_frame rfl h.level h.mode rfl rfl rfl hfit

/-- Settles O8: the reset state is closed, and each clause is computed. -/
theorem resetSatisfiesInvariant : Obligations.ResetSatisfiesInvariant :=
  ⟨by constructor <;> decide, by decide⟩

/-- Settles O9: taking the item away keeps the invariant, and so does every operation. -/
theorem stepKeepsInvariant : Obligations.StepKeepsInvariant := by
  intro s t h hstep
  obtain ⟨i, rest, hexec⟩ := step_next hstep
  have hrest : Inv { s with input := rest } := h.of_frame rfl h.level h.mode rfl rfl rfl h.spsrsFit
  exact hrest.exec hexec

/-! ## The Execution state of each level -/

theorem stateOf2_of_stateOf3 {s : State} (h : stateOf3 s = .aarch32) : stateOf2 s = .aarch32 := by
  have htop : s.cfg.topState = .aarch32 := h
  simp [stateOf2, belowEl3, h, htop]

theorem stateOf1_of_stateOf2 {s : State} (h : stateOf2 s = .aarch32) : stateOf1 s = .aarch32 := by
  unfold stateOf1
  split
  · exact if_neg fun h64 => by simp [h] at h64
  · exact h

theorem stateOf0_of_stateOf1 {s : State} (h : stateOf1 s = .aarch32) : stateOf0 s = .aarch32 :=
  if_pos h

/-- Settles O12: `state_of` is read from level to level downwards (R121), and at each of them AArch32 is passed on. -/
theorem lowerLevelsFollowAArch32 : Obligations.LowerLevelsFollowAArch32 := by
  intro s h l hlower hstate
  have h32 : stateOf s .el3 = .aarch32 → stateOf s .el2 = .aarch32 := stateOf2_of_stateOf3
  have h21 : stateOf s .el2 = .aarch32 → stateOf s .el1 = .aarch32 := stateOf1_of_stateOf2
  have h10 : stateOf s .el1 = .aarch32 → stateOf s .el0 = .aarch32 := stateOf0_of_stateOf1
  cases h with
  | el0 => exact absurd hlower (Nat.not_lt_zero _)
  | el1 =>
    cases l with
    | el0 => exact h10 hstate
    | _ => exact absurd hlower (by decide)
  | el2 =>
    cases l with
    | el0 => exact h10 (h21 hstate)
    | el1 => exact h21 hstate
    | _ => exact absurd hlower (by decide)
  | el3 =>
    cases l with
    | el0 => exact h10 (h21 (h32 hstate))
    | el1 => exact h21 (h32 hstate)
    | el2 => exact h32 hstate
    | el3 => exact absurd hlower (by decide)

theorem stateOf_el2_under_a64 {s : State} (hEL3 : s.cfg.haveEL3 = true) (htop : s.cfg.topState = .aarch64) :
    stateOf s .el2 = if scrRW s then .aarch64 else .aarch32 := by
  simp [stateOf, stateOf2, belowEl3, stateOf3, hEL3, htop]

theorem stateOf_el1_of_enabled {s : State} (henabled : el2Enabled s = true) :
    stateOf s .el1 = if stateOf s .el2 = .aarch64 ∧ hcrRW s = true then .aarch64 else .aarch32 :=
  if_pos henabled

/-- Settles O13: SCR_EL3.RW gives EL2 its state, and under an EL2 in AArch64 HCR_EL2.RW gives EL1 its state. -/
theorem levelStatesByRwBits : Obligations.LevelStatesByRwBits := by
  intro s hEL3 htop henabled
  rw [stateOf_el1_of_enabled henabled, stateOf_el2_under_a64 hEL3 htop]
  cases scrRW s <;> cases hcrRW s <;> simp

/-! ## The current Execution state is that of the level -/

/-- A return into EL0 sets the state of EL0 (R121). -/
theorem stateOf_el0_of_el0State {s : State} (h : s.el0State = .aarch32) : stateOf s .el0 = .aarch32 := by
  show (if stateOf1 s = .aarch32 then ExecState.aarch32 else s.el0State) = .aarch32
  rw [h, ite_self]

theorem exec_keeps_controls {i : Instr} {s t : State} (h : exec i s = .next t) (hw : writesControl s i = false) :
    t.sys.scrEl3 = s.sys.scrEl3 ∧ t.sys.hcrEl2 = s.sys.hcrEl2 := by
  obtain ⟨a, v, rfl, hwrite⟩ | ⟨r, v, rfl, hwrite⟩ | htransfer | ⟨_, hsys⟩ := exec_sysRegs_cases h
  · obtain ⟨_, g, htarget, hg⟩ := execA32Syswr_next hwrite
    obtain rfl | ⟨c, _, rfl⟩ | ⟨r, w, rfl, _, rfl⟩ | ⟨r, w, rfl, _, rfl⟩ := writeTarget_next hg
    · exact ⟨rfl, rfl⟩
    · exact writeCell32_controls c v s.sys
    · exact writeCell64_controls _ r _ _ (by simpa [writesControl, htarget] using hw)
    · exact writeCell64_controls _ r _ _ (by simpa [writesControl, htarget] using hw)
  · obtain ⟨_, ⟨c, _, _, rfl | rfl⟩ | ⟨w, _, _, rfl⟩⟩ := execA64Syswr_next hwrite
    · exact ⟨rfl, rfl⟩
    · exact writeCell32_controls c _ s.sys
    · exact writeWhole_controls _ r v _ hw
  · obtain ⟨l, p, z, _, _, _, rfl⟩ | ⟨l, m, p, _, _, rfl⟩ := exec_transfer h htransfer
    · rw [sys_enterA64]
      exact sysAfterEntry_controls l s
    · rw [sys_enterA32]
      exact ⟨rfl, rfl⟩
  · rw [hsys]
    exact ⟨rfl, rfl⟩

/-- Where the parameters, the two controls and `EL2Enabled` stay, a level's state changes only by a return into EL0. -/
theorem exec_keeps_levelAgrees {i : Instr} {s t : State} (h : exec i s = .next t) (hw : writesControl s i = false)
    (henabled : el2Enabled t = el2Enabled s) (hagrees : LevelAgrees s) : LevelAgrees t := by
  obtain ⟨hscr, hhcr⟩ := exec_keeps_controls h hw
  have hcfg : t.cfg = s.cfg := parametersNeverChange i s t h
  have hstate : t.el0State = s.el0State → ∀ l, stateOf t l = stateOf s l := fun h0 =>
    stateOf_congr hcfg h0 hscr hhcr henabled
  obtain ⟨l, p, z, _, ⟨_, _, htarget, _⟩, rfl⟩ | ⟨l, m, p, _, ⟨_, _, _, _, htarget, _⟩, rfl⟩ |
    ⟨l, m, _, ⟨hcur, _, htarget, _⟩, rfl⟩ | ⟨ht, _⟩ := exec_cases h
  · have h0 : (enterA64 z l p s).el0State = s.el0State := by rw [enterA64_eq]
    exact ((hstate h0 l).trans htarget).symm
  · have h0 : (enterA32 l m p s).el0State = if l = .el0 then .aarch32 else s.el0State := by rw [enterA32_eq]
    show ExecState.aarch32 = stateOf (enterA32 l m p s) l
    by_cases hl : l = .el0
    · rw [if_pos hl] at h0
      rw [hl] at h0 ⊢
      exact (stateOf_el0_of_el0State h0).symm
    · rw [if_neg hl] at h0
      exact ((hstate h0 l).trans (htarget.resolve_left hl)).symm
  · exact hcur.trans ((hstate rfl l).trans htarget).symm
  · have hcur : t.curState = s.curState := by rw [ht]
    have hel : t.el = s.el := by rw [ht]
    show t.curState = stateOf t t.el
    rw [hcur, hel, hstate ((by rw [ht]))]
    exact hagrees

theorem writesControl_withInput (s : State) (rest : List Item) (i : Instr) :
    writesControl { s with input := rest } i = writesControl s i := by
  cases i <;> rfl

/-- `EL2Enabled` does not see the items (notes/assumptions/10.md). -/
theorem el2Enabled_withInput (s : State) (rest : List Item) : el2Enabled { s with input := rest } = el2Enabled s :=
  el2Enabled_of_view rfl rfl

/-- Settles O10: unless the predicate is open, `EL2Enabled` depends on the parameters and the controls, which stay. -/
theorem stepKeepsLevelAgreement : Obligations.StepKeepsLevelAgreement := by
  intro s s' t i hfetch hw hagrees hstep hopen
  obtain ⟨rest, rfl⟩ := fetch_eq_ok hfetch
  have hexec : exec i { s with input := rest } = .next t := (step_of_fetch_ok hfetch).symm.trans hstep
  have hw' : writesControl { s with input := rest } i = false := (writesControl_withInput s rest i).trans hw
  have henabled : el2Enabled t = el2Enabled { s with input := rest } := by
    by_cases hrule : s.cfg.el2Rule = .anyRule
    · exact (hopen hrule).trans (el2Enabled_withInput s rest).symm
    · exact el2Enabled_of_rule (s := { s with input := rest }) hrule (parametersNeverChange i _ t hexec)
        (exec_keeps_controls hexec hw').1
  have hagrees' : LevelAgrees { s with input := rest } :=
    hagrees.trans (stateOf_congr rfl rfl rfl rfl (el2Enabled_withInput s rest).symm s.el)
  exact exec_keeps_levelAgrees hexec hw' henabled hagrees'

end Sys2Proof.Machine
end

section
/-!
PROOFS. Exception entry and return in full (40_state_change.md R84 to R88; 60_exceptions.md R154, R155): what a legal
transfer leaves in each part of the state, the refusals of the others, the sets of upper halves an entry draws for
(41_gpr_interprocessing.md R96 to R105), ELR_EL2 (R130), and the reset of the SVE state (R143).
-/
namespace Sys2Proof.Machine

theorem eq_aarch32_of_ne {e : ExecState} (h : e ≠ .aarch64) : e = .aarch32 := by
  cases e with
  | aarch64 => exact absurd rfl h
  | aarch32 => rfl

theorem eq_aarch64_of_ne {e : ExecState} (h : e ≠ .aarch32) : e = .aarch64 := by
  cases e with
  | aarch64 => rfl
  | aarch32 => exact absurd rfl h

/-! ## The transfers that are refused -/

theorem takeException_of_same_state {l : EL} {s : State} (p : Word) (hlevel : s.el.num ≤ l.num)
    (husable : levelUsable s l = true) (hstate : stateOf s l = s.curState) :
    takeException l p s = .refused .outsideSpec := by
  simp [takeException, Nat.not_lt.mpr hlevel, husable, hstate]

theorem takeException_of_unusable {l : EL} {s : State} (p : Word) (hlevel : s.el.num ≤ l.num)
    (husable : levelUsable s l = false) : takeException l p s = .refused .levelAbsent := by
  simp [takeException, Nat.not_lt.mpr hlevel, husable]

theorem returnFromException_of_same_state {a : ReturnArgs} {s : State} (hlevel : a.target.num ≤ s.el.num)
    (hstate : a.state = s.curState) : returnFromException a s = .refused .outsideSpec := by
  have hdirection : ¬ (s.curState = .aarch32 ∧ a.state = .aarch64) := by
    rintro ⟨h32, h64⟩
    rw [← hstate, h64] at h32
    contradiction
  simp only [returnFromException, if_neg (Nat.not_lt.mpr hlevel), if_neg hdirection, if_pos hstate]

/-- Settles O17: the test of the Execution states answers, since those before it pass. -/
theorem sameStateTransfersOutsideSpec : Obligations.SameStateTransfersOutsideSpec :=
  ⟨fun _ _ p hlevel husable hstate => takeException_of_same_state p hlevel husable hstate,
    fun _ _ _ _ hlevel => returnFromException_of_same_state hlevel rfl⟩

/-- A return to AArch32 at the current level is refused as illegal: from AArch64 state it changes the state and not the
level (R85). -/
theorem returnFromException_at_level {a : ReturnArgs} {s : State} (hcur : s.curState = .aarch64)
    (hstate : a.state = .aarch32) (hlevel : a.target = s.el) :
    returnFromException a s = .refused .illegalStateChange := by
  simp [returnFromException, hcur, hstate, hlevel]

/-- The tests of R85 on the controls, the level and the mode. -/
theorem returnFromException_not_admitted {l : EL} {m : Mode} {s : State} (p : Word) (hcur : s.curState = .aarch64)
    (himplemented : levelImplemented s.cfg l = true)
    (h : a32Supported s.cfg l = false ∨ (l ≠ .el0 ∧ stateOf s l = .aarch64) ∨ modeBelongs s.cfg m l = false) :
    returnFromException { target := l, state := .aarch32, mode := some m, newPc := p } s =
      .refused .illegalStateChange := by
  by_cases hhigher : s.el.num < l.num
  · exact returnFromException_of_higher hhigher
  by_cases hlevel : l = s.el
  · exact returnFromException_at_level hcur rfl hlevel
  obtain hno | ⟨hne, h64⟩ | hno := h
  · simp [returnFromException, hhigher, hlevel, hcur, himplemented, hno]
  · simp [returnFromException, hhigher, hlevel, hcur, himplemented, hne, h64]
  · simp [returnFromException, hhigher, hlevel, hcur, himplemented, hno]

theorem returnFromException_to_absent {a : ReturnArgs} {s : State} (hcur : s.curState = .aarch64)
    (hstate : a.state = .aarch32) (hlower : a.target.num < s.el.num)
    (habsent : levelImplemented s.cfg a.target = false) : returnFromException a s = .refused .levelAbsent := by
  have hlevel : a.target ≠ s.el := fun h => absurd hlower (by rw [h]; exact Nat.lt_irrefl _)
  simp [returnFromException, Nat.not_lt.mpr hlower.le, hcur, hstate, hlevel, habsent]

/-- Settles O28: a return to the current level is refused before its target is looked at; every other return and every
entry stops at the test that the statement names. -/
theorem illegalTransfersRefused : Obligations.IllegalTransfersRefused := by
  refine ⟨fun s l m p hcur h => ?notAdmitted, fun s l p hlevel h => ?entryAbsent,
    fun s m p hcur hel habsent => ?returnAbsent⟩
  case notAdmitted =>
    obtain hlevel | ⟨himplemented, h⟩ := h
    · exact returnFromException_at_level hcur rfl hlevel
    · exact returnFromException_not_admitted p hcur himplemented h
  case entryAbsent =>
    obtain ⟨rfl, hdisabled⟩ | ⟨rfl, habsent⟩ := h
    · exact takeException_of_unusable p hlevel hdisabled
    · exact takeException_of_unusable p hlevel habsent
  case returnAbsent =>
    refine returnFromException_to_absent hcur rfl ?_ habsent
    show EL.el2.num < s.el.num
    rw [hel]
    decide

/-- The tests of R84 before the table leave the legal entries only. -/
theorem entryLegal_of_invalidRw {l : EL} {p : Word} {s : State} (h : takeException l p s = .refused .invalidRw) :
    EntryLegal s l := by
  unfold takeException at h
  split_ifs at h with hlower hunusable hsame h64 hlevel
  · cases h
  · cases h
  · cases h
  · cases h
  · cases h
  · have hcur : s.curState = .aarch32 := eq_aarch32_of_ne h64
    have htarget : stateOf s l = .aarch64 := eq_aarch64_of_ne (hcur ▸ hsame)
    exact ⟨hcur, by simpa using hunusable, htarget,
      Nat.lt_of_le_of_ne (Nat.not_lt.mp hlower) fun hnum => hlevel (num_inj hnum).symm⟩

/-- Settles O25: past the other tests the entry is legal, and a legal entry has its cell in the table of R98. -/
theorem entryNeverAtInvalidCell : Obligations.EntryNeverAtInvalidCell := by
  intro s l p h
  obtain ⟨z, _, hexec⟩ := exec_excEntry_of_legal p (entryLegal_of_invalidRw h)
  rw [hexec] at h
  contradiction

/-! ## The sets of upper halves -/

/-- The two tables have no register at the same cells, and at every other cell one of three pairs of sets. -/
theorem tables_cases (scr hcr : Bool) (l : EL) :
    (zeroableTable scr hcr l = none ∧ retainTable scr hcr l = none) ∨
    (zeroableTable scr hcr l = some [(0, 30)] ∧ retainTable scr hcr l = some []) ∨
    (zeroableTable scr hcr l = some [(0, 14), (16, 30)] ∧ retainTable scr hcr l = some [(15, 15)]) ∨
    (zeroableTable scr hcr l = some [(0, 14)] ∧ retainTable scr hcr l = some [(15, 30)]) := by
  cases scr <;> cases hcr <;> cases l <;> decide

theorem inRanges_all_but_none : ∀ n : Fin 31, inRanges [] n.val = !inRanges [(0, 30)] n.val := by decide

theorem inRanges_all_but_X15 :
    ∀ n : Fin 31, inRanges [(15, 15)] n.val = !inRanges [(0, 14), (16, 30)] n.val := by decide

theorem inRanges_X15_up : ∀ n : Fin 31, inRanges [(15, 30)] n.val = !inRanges [(0, 14)] n.val := by decide

/-- Settles O22: each of the three pairs of sets that the tables have is a set and its complement. -/
theorem retainSetIsComplement : Obligations.RetainSetIsComplement := by
  intro scr hcr l n
  obtain ⟨hz, hr⟩ | ⟨hz, hr⟩ | ⟨hz, hr⟩ | ⟨hz, hr⟩ := tables_cases scr hcr l
  · rw [hz, hr]
    trivial
  · rw [hz, hr]
    exact inRanges_all_but_none n
  · rw [hz, hr]
    exact inRanges_all_but_X15 n
  · rw [hz, hr]
    exact inRanges_X15_up n

theorem zeroableSet_retainSet_of_indices {s : State} {l : EL} {scr hcr : Bool} (hscr : tableScrRW s l = scr)
    (hhcr : tableHcrRW s l = hcr) :
    zeroableSet s l = zeroableTable scr hcr l ∧ retainSet s l = retainTable scr hcr l := by
  rw [zeroableSet, retainSet, hscr, hhcr]
  exact ⟨rfl, rfl⟩

theorem EntryLegal.ne_el0 {s : State} {l : EL} (h : EntryLegal s l) : l ≠ .el0 := by
  obtain ⟨_, _, _, hhigher⟩ := h
  rintro rfl
  exact Nat.not_lt_zero _ hhigher

/-- The row index SCR_EL3.RW is 1 where EL2 is using AArch64: for target EL3 the bit is what gives EL2 its state. -/
theorem tableScrRW_of_el2_a64 {s : State} {l : EL} (h : EntryLegal s l) (hel2 : stateOf s .el2 = .aarch64) :
    tableScrRW s l = true := by
  obtain ⟨_, husable, htarget, _⟩ := h
  by_cases hl : l = .el3
  · subst hl
    rw [stateOf_el2_under_a64 husable htarget] at hel2
    simpa [tableScrRW] using hel2
  · exact tableScrRW_of_ne_el3 s hl

theorem tableHcrRW_of_enabled {s : State} {l : EL} (henabled : el2Enabled s = true) (hscr : tableScrRW s l = true) :
    tableHcrRW s l = hcrRW s := by
  simp [tableHcrRW, henabled, hscr]

theorem tableHcrRW_of_disabled {s : State} {l : EL} (hdisabled : el2Enabled s = false) :
    tableHcrRW s l = tableScrRW s l := by
  simp [tableHcrRW, hdisabled]

/-- With EL1 in AArch64 both indices are 1: EL2 is then in AArch64 too, and HCR_EL2.RW, where it counts, is 1. -/
theorem indices_of_el1_a64 {s : State} {l : EL} (h : EntryLegal s l) (hel1 : stateOf s .el1 = .aarch64) :
    tableScrRW s l = true ∧ tableHcrRW s l = true := by
  have hel2 : stateOf s .el2 = .aarch64 := eq_aarch64_of_ne fun h32 => by
    have : stateOf s .el1 = .aarch32 := stateOf1_of_stateOf2 h32
    simp [hel1] at this
  have hscr := tableScrRW_of_el2_a64 h hel2
  refine ⟨hscr, ?_⟩
  cases henabled : el2Enabled s with
  | false => rw [tableHcrRW_of_disabled henabled, hscr]
  | true =>
    rw [tableHcrRW_of_enabled henabled hscr]
    simpa [stateOf_el1_of_enabled henabled, hel2] using hel1

/-- With EL1 in AArch32 under an EL2 in AArch64, HCR_EL2.RW is 0. -/
theorem indices_of_el2_a64 {s : State} {l : EL} (h : EntryLegal s l) (hel1 : stateOf s .el1 = .aarch32)
    (henabled : el2Enabled s = true) (hel2 : stateOf s .el2 = .aarch64) :
    tableScrRW s l = true ∧ tableHcrRW s l = false := by
  have hscr := tableScrRW_of_el2_a64 h hel2
  refine ⟨hscr, ?_⟩
  rw [tableHcrRW_of_enabled henabled hscr]
  simpa [stateOf_el1_of_enabled henabled, hel2] using hel1

/-- Where EL3 alone is using AArch64 the entry is to EL3. -/
theorem eq_el3_of_only_a64 {s : State} {l : EL} (h : EntryLegal s l) (hel1 : stateOf s .el1 = .aarch32)
    (hel2 : el2Enabled s = false ∨ stateOf s .el2 = .aarch32) : l = .el3 := by
  have hne := h.ne_el0
  obtain ⟨_, husable, htarget, _⟩ := h
  cases l with
  | el0 => exact absurd rfl hne
  | el1 => simp [hel1] at htarget
  | el2 =>
    obtain hdisabled | h32 := hel2
    · have henabled : el2Enabled s = true := husable
      simp [hdisabled] at henabled
    · simp [h32] at htarget
  | el3 => rfl

/-- With AArch64 at EL3 alone both indices are 0: SCR_EL3.RW gives the level below EL3 its state. -/
theorem indices_of_only_el3_a64 {s : State} (h : EntryLegal s .el3) (hel1 : stateOf s .el1 = .aarch32)
    (hel2 : el2Enabled s = false ∨ stateOf s .el2 = .aarch32) :
    tableScrRW s .el3 = false ∧ tableHcrRW s .el3 = false := by
  obtain ⟨_, husable, htarget, _⟩ := h
  have hEL3 : s.cfg.haveEL3 = true := husable
  have htop : s.cfg.topState = .aarch64 := htarget
  have hscr : tableScrRW s .el3 = false := by
    obtain hdisabled | h32 := hel2
    · simpa [stateOf, stateOf1, belowEl3, stateOf3, hdisabled, hEL3, htop, tableScrRW] using hel1
    · simpa [stateOf_el2_under_a64 hEL3 htop, tableScrRW] using h32
  exact ⟨hscr, tableHcrRW_of_tableScrRW_false hscr⟩

theorem tables_true_true {l : EL} (hl : l ≠ .el0) :
    zeroableTable true true l = some [(0, 14)] ∧ retainTable true true l = some [(15, 30)] := by
  cases l with
  | el0 => exact absurd rfl hl
  | _ => exact ⟨rfl, rfl⟩

theorem tables_true_false {l : EL} (hl0 : l ≠ .el0) (hl1 : l ≠ .el1) :
    zeroableTable true false l = some [(0, 14), (16, 30)] ∧ retainTable true false l = some [(15, 15)] := by
  cases l with
  | el0 => exact absurd rfl hl0
  | el1 => exact absurd rfl hl1
  | _ => exact ⟨rfl, rfl⟩

/-- Settles O21: the lowest level in AArch64 gives the indices of R97, and with them the row of the two tables. -/
theorem zeroableSetByLowestA64Level : Obligations.ZeroableSetByLowestA64Level := by
  intro s l h
  refine ⟨fun hel1 => ?el1, fun hel1 henabled hel2 => ?el2, fun hel1 hel2 => ?el3⟩
  case el1 =>
    obtain ⟨hscr, hhcr⟩ := indices_of_el1_a64 h hel1
    obtain ⟨hz, hr⟩ := zeroableSet_retainSet_of_indices hscr hhcr
    rw [hz, hr]
    exact tables_true_true h.ne_el0
  case el2 =>
    obtain ⟨hscr, hhcr⟩ := indices_of_el2_a64 h hel1 henabled hel2
    obtain ⟨hz, hr⟩ := zeroableSet_retainSet_of_indices hscr hhcr
    have hne : l ≠ .el1 := by
      obtain ⟨_, _, htarget, _⟩ := h
      rintro rfl
      simp [hel1] at htarget
    rw [hz, hr]
    exact tables_true_false h.ne_el0 hne
  case el3 =>
    obtain rfl := eq_el3_of_only_a64 h hel1 hel2
    obtain ⟨hscr, hhcr⟩ := indices_of_only_el3_a64 h hel1 hel2
    exact zeroableSet_retainSet_of_indices hscr hhcr

/-! ## The upper halves after an entry -/

theorem high32_drawUpper_eq (c : Bool) (w : Word) : high32 (drawUpper c w) = if c then 0 else high32 w := by
  cases c <;> simp [drawUpper]

theorem readX_enterA64_of_mem {z : RegRanges} {k : Fin 31} (l : EL) (p : Word) (s : State)
    (hk : inRanges z k.val = true) :
    readX (enterA64 z l p s) k = drawUpper (Config.upperCleared s.draws k.val) (readX s k) := by
  rw [readX_enterA64, readX_gprUpperOnEntry, if_pos hk]

theorem readX_enterA64_of_not_mem {z : RegRanges} {k : Fin 31} (l : EL) (p : Word) (s : State)
    (hk : inRanges z k.val = false) : readX (enterA64 z l p s) k = readX s k := by
  rw [readX_enterA64, readX_gprUpperOnEntry, if_neg (by simp [hk])]

/-- Settles O20: a cell of the set is drawn for, and every other is left. -/
theorem upperHalvesAfterEntry : Obligations.UpperHalvesAfterEntry := by
  intro s l p h
  obtain ⟨z, hz, hexec⟩ := exec_excEntry_of_legal p h
  refine ⟨z, enterA64 z l p s, hz, hexec, rfl, fun n =>
    ⟨low32_readX_enterA64 z l p s n, fun hn => ?_, readX_enterA64_of_not_mem l p s⟩⟩
  rw [readX_enterA64_of_mem l p s hn, high32_drawUpper_eq]
  rfl

/-- Settles O24: SCR_EL3.RW 0 is the row of the table in which the set is X0 to X30. -/
theorem x15ZeroableWithoutHyp : Obligations.X15ZeroableWithoutHyp := by
  intro s p h _ hrw
  obtain ⟨z, hz, hexec⟩ := exec_excEntry_of_legal p h
  have hscr : tableScrRW s .el3 = false := hrw
  have hset : zeroableSet s .el3 = some [(0, 30)] :=
    (zeroableSet_retainSet_of_indices hscr (tableHcrRW_of_tableScrRW_false hscr)).1
  obtain rfl : z = [(0, 30)] := Option.some.inj (hz.symm.trans hset)
  refine ⟨[(0, 30)], _, hz, rfl, hexec, low32_readX_enterA64 _ _ p s 15, ?_⟩
  rw [readX_enterA64_of_mem (k := 15) .el3 p s rfl, high32_drawUpper_eq]
  rfl

/-- Settles O30: the return leaves the cells, so that what the entry draws for is what was there before it. -/
theorem returnThenEntryUpperHalves : Obligations.ReturnThenEntryUpperHalves := by
  intro s t l m p l' p' hreturn h
  have hx : ∀ n : Fin 31, readX t n = readX s n := by
    rw [exec_excReturn] at hreturn
    obtain ⟨m', _, _, _, rfl⟩ := returnFromException_next hreturn
    exact readX_enterA32 l m' p s
  obtain ⟨z, hz, hexec⟩ := exec_excEntry_of_legal p' h
  refine ⟨z, enterA64 z l' p' t, hz, hexec, fun n => ?_⟩
  rw [← hx n]
  exact ⟨low32_readX_enterA64 z l' p' t n, readX_enterA64_of_mem l' p' t, readX_enterA64_of_not_mem l' p' t⟩

/-! ## The other registers after an entry -/

/-- Only an entry to EL3 can draw for ELR_EL2 (R130). -/
theorem elr2Draws_iff {s : State} {l : EL} :
    elr2Draws s l = true ↔ l = .el3 ∧ el2Enabled s = true ∧ stateOf s .el2 = .aarch32 := by
  simp [elr2Draws, stateOf, and_assoc]

theorem elrEl2_sysAfterEntry {l : EL} (hl : l ≠ .el2) (s : State) :
    (sysAfterEntry l s).elrEl2 =
      if elr2Draws s l then drawUpper (Config.elr2Cleared s.draws) s.sys.elrEl2 else s.sys.elrEl2 := by
  cases l with
  | el2 => exact absurd rfl hl
  | _ => rfl

/-- Settles O26: the entry draws for ELR_EL2 in the case of R130, and `EntryEffects` writes it for target EL2 only. -/
theorem elrEl2AfterEntry : Obligations.ElrEl2AfterEntry := by
  intro s l p h
  obtain ⟨z, _, hexec⟩ := exec_excEntry_of_legal p h
  refine ⟨enterA64 z l p s, hexec, ?_⟩
  rw [sys_enterA64]
  split
  · rename_i hdraws
    have hl : l ≠ .el2 := by
      obtain ⟨rfl, _⟩ := hdraws
      decide
    rw [elrEl2_sysAfterEntry hl, if_pos (elr2Draws_iff.mpr hdraws)]
    exact ⟨low32_drawUpper _ _, high32_drawUpper_eq _ _⟩
  · rename_i hdraws
    intro hl
    rw [elrEl2_sysAfterEntry hl, if_neg (hdraws ∘ elr2Draws_iff.mp)]

theorem fpsr_sysAfterEntry (l : EL) (s : State) :
    (sysAfterEntry l s).fpsr = if smResets s then s.cfg.smFixedFpsr else s.sys.fpsr := by
  cases l <;> rfl

/-- Settles O18: `sysAfterEntry` has, target by target, the frame of `EntryEffects` (R154), and the rest is the whole
entry, field by field. -/
theorem entryCompletesWithFrame : Obligations.EntryCompletesWithFrame := by
  intro s l p h
  obtain ⟨z, _, hexec⟩ := exec_excEntry_of_legal p h
  refine ⟨enterA64 z l p s, hexec, ?_⟩
  rw [enterA64_eq]
  refine ⟨rfl, rfl, ⟨(sysAfterEntry l s).elrEl2, (sysAfterEntry l s).fpsr, ?_⟩, fun hno => ?_⟩
  · cases l <;> rfl
  · have hkeeps : smResets s = false := hno
    simp [hkeeps, fpsr_sysAfterEntry]

/-! ## The state after a return -/

theorem exec_excReturn_of_legal {s : State} {l : EL} {m : Mode} (p : Word) (h : ReturnLegal s l m) :
    exec (.excReturn l .aarch32 (some m) p) s = .next (enterA32 l m p s) :=
  returnFromException_of_legal p h

/-- What a return changes: the frame of R85 and R155. -/
theorem enterA32_frame (l : EL) (m : Mode) (p : Word) (s : State) :
    enterA32 l m p s =
      { s with
        curState := .aarch32, el := l, mode := m, pc := (low32 p).setWidth 64
        el0State := if l = .el0 then .aarch32 else s.el0State
        secure := (enterA32 l m p s).secure
        vreg := (enterA32 l m p s).vreg, sveState := (enterA32 l m p s).sveState
        sys := { s.sys with fpsr := (enterA32 l m p s).sys.fpsr }
        draws := (enterA32 l m p s).draws } := by
  rw [enterA32_eq]

/-- Settles O27: a legal return is `enterA32`, which resets SVE state and FPSR only where PSTATE.SM says so. -/
theorem returnCompletesWithFrame : Obligations.ReturnCompletesWithFrame := by
  intro s l m p h
  refine ⟨enterA32 l m p s, exec_excReturn_of_legal p h, enterA32_frame l m p s, fun hno => ?_⟩
  have hkeeps : smResets s = false := hno
  rw [enterA32_eq]
  simp [hkeeps]

/-! ## `ERET` and `A32.SETMODE` -/

theorem exec_eret {s : State} (hcur : s.curState = .aarch64) :
    exec .eret s = if s.el = .el0 then .refused .outsideSpec else returnFromException (eretArgs s) s :=
  inA64_of hcur _

theorem exec_eret_above_el0 {s : State} (hcur : s.curState = .aarch64) (hel : s.el ≠ .el0) :
    exec .eret s = returnFromException (eretArgs s) s := by
  rw [exec_eret hcur, if_neg hel]

/-- Settles O31: above EL0 `ERET` is `returnFromException` at what `eretArgs` answers. -/
theorem eretIsReturnWithSuppliedArguments : Obligations.EretIsReturnWithSuppliedArguments := by
  intro s hcur
  refine ⟨fun hel => by rw [exec_eret hcur, if_pos hel], fun a hel ha => ?_⟩
  have ha' : a = eretArgs s := by
    rw [ha, eretArgs]
    cases s.el <;> rfl
  have heret : exec .eret s = returnFromException a s := by rw [exec_eret_above_el0 hcur hel, ha']
  refine ⟨heret, fun h64 hlevel => ?_, fun m h32 hm hlegal => ?_⟩
  · rw [heret]
    exact returnFromException_of_same_state hlevel (h64.trans hcur.symm)
  · obtain ⟨l, st, mo, p⟩ := a
    cases h32
    cases hm
    exact ⟨enterA32 l m p s, heret.trans (returnFromException_of_legal p hlegal), enterA32_frame l m p s⟩

/-- Settles O32: `A32.SETMODE` has one test for all that is legal. -/
theorem setmodeChangesLevelAndMode : Obligations.SetmodeChangesLevelAndMode := by
  refine fun s l m => ⟨?legal, fun hcur h64 => ?refused⟩
  case legal =>
    rintro ⟨hcur, hlegal⟩
    exact (inA32_of hcur _).trans (if_pos hlegal)
  case refused =>
    refine (inA32_of hcur _).trans (if_neg ?_)
    rintro ⟨_, h32, _⟩
    simp [h64] at h32

/-! ## The reset of the SVE state -/

/-- A state with the SVE registers and FPSR of `SMEOnStateChange` has the reset of R143 or, where it does not apply, the
values before. -/
theorem sveReset_of_fields {s t : State}
    (hv : t.vreg = if smResets s then Vector.replicate 32 s.cfg.smFixedRegBits else s.vreg)
    (hs : t.sveState =
      if smResets s then s.sveState.map fun r => fixedBits s.cfg.smFixedRegBits r.length else s.sveState)
    (hf : t.sys.fpsr = if smResets s then s.cfg.smFixedFpsr else s.sys.fpsr) :
    if s.cfg.haveSME = true ∧ s.psSM = true then ResetToFixedValue s t
    else t.vreg = s.vreg ∧ t.sveState = s.sveState ∧ t.sys.fpsr = s.sys.fpsr := by
  have hresets : smResets s = true ↔ s.cfg.haveSME = true ∧ s.psSM = true := by
    simp [smResets]
  split
  · rename_i hsm
    rw [if_pos (hresets.mpr hsm)] at hv hs hf
    refine ⟨fun k => ?_, ?_, fun r hr i hi => ?_, hf⟩
    · simp [readV, hv]
    · simp [hs, Function.comp_def]
    · rw [hs] at hr
      obtain ⟨r', _, rfl⟩ := List.mem_map.mp hr
      exact getElem_fixedBits _ _ i hi
  · rename_i hsm
    rw [if_neg (hsm ∘ hresets.mp)] at hv hs hf
    exact ⟨hv, hs, hf⟩

/-- Settles O34: both transfers end in `SMEOnStateChange`, whose fields `enterA64_eq` and `enterA32_eq` give. -/
theorem sveResetOnStateChange : Obligations.SveResetOnStateChange := by
  refine ⟨fun s l p h => ?entry, fun s l m p h => ?ret⟩
  case entry =>
    obtain ⟨z, _, hexec⟩ := exec_excEntry_of_legal p h
    refine ⟨enterA64 z l p s, hexec, ?_⟩
    rw [enterA64_eq]
    exact sveReset_of_fields rfl rfl (fpsr_sysAfterEntry l s)
  case ret =>
    refine ⟨enterA32 l m p s, exec_excReturn_of_legal p h, ?_⟩
    rw [enterA32_eq]
    exact sveReset_of_fields rfl rfl rfl

end Sys2Proof.Machine
end

section
/-!
PROOFS. The general-purpose registers as a store (41_gpr_interprocessing.md): the numbers of the table of R27 (R93, R100),
the writes (R91, R92), and which modes see a write (the corner case of R91).
-/
namespace Sys2Proof.Machine

/-! ## The table of R27 -/

/-- Without entries of its own `Bank` is the table of R27, as it is at reset. -/
theorem xNum_of_no_bankRows {c : Config} (h : c.bankRows = []) (m : Mode) (n : Fin 16) :
    xNum c m n = xNum resetConfig m n := by
  have hreset : resetConfig.bankRows = [] := rfl
  simp only [xNum, bank, h, hreset]

theorem xNum_eq_ok_iff {c : Config} {m : Mode} {n : Fin 16} {k : Fin 31} :
    xNum c m n = .ok k ↔ ∃ a, bank c m n = .ok a ∧ a32Map a = k := by
  unfold xNum
  split
  · rename_i a ha
    simp [ha]
  · rename_i r hr
    simp [hr]

theorem esrRegNum_of_xNum {c : Config} {m : Mode} {n : Fin 16} {k : Fin 31} (h : xNum c m n = .ok k) :
    esrRegNum c m n = .ok (BitVec.ofNat 5 k.val) := by
  simp only [esrRegNum, h]

theorem esrRegNum_of_error {c : Config} {m : Mode} {n : Fin 16} {r : Refusal} (h : xNum c m n = .error r) :
    esrRegNum c m n = .error r := by
  simp only [esrRegNum, h]

/-- No entry of a `Bank` within its bounds is for R14 of Abort mode (R27). -/
theorem xNum_abt_lr {c : Config} (hwf : c.wf = true) : xNum c .abt 14 = .ok 20 := by
  obtain ⟨_, hrows⟩ : _ ∧ (c.bankRows.all fun b => 8 ≤ b.n.val && !(b.mode == .abt && b.n == 14)) = true := by
    simpa only [Config.wf, Bool.and_eq_true] using hwf
  have hnone : c.bankRows.find? (fun b => b.mode == .abt && b.n == 14) = none := by
    rw [List.find?_eq_none]
    intro b hb hmatch
    have hbound := List.all_eq_true.mp hrows b hb
    simp [hmatch] at hbound
  refine xNum_eq_ok_iff.mpr ⟨.lrAbt, ?_, rfl⟩
  rw [bank, hnone]
  rfl

/-- Settles O37: the table gives the cell, the field is its number, and the refusals are those of `xNum`. -/
theorem syndromeRegisterNumbers : Obligations.SyndromeRegisterNumbers := by
  refine ⟨fun c m n hrows hmode hn => ?_, fun c m n k => esrRegNum_of_xNum,
    fun c hwf => esrRegNum_of_xNum (xNum_abt_lr hwf), fun c m => esrRegNum_of_error (xNum_pc c m),
    fun c => ⟨esrRegNum_of_error (xNum_mon_sp_lr c (.inl rfl)), esrRegNum_of_error (xNum_mon_sp_lr c (.inr rfl))⟩⟩
  rw [xNum_of_no_bankRows hrows]
  -- R0 to R7 are the same in every mode; of the other numbers the mode decides.
  obtain ⟨n, hlt⟩ := n
  have hle : n ≤ 14 := hn
  interval_cases n
  iterate 8 exact ⟨_, rfl, rfl⟩
  all_goals
    cases m with
    | mon => exact absurd rfl hmode
    | _ => exact ⟨_, rfl, rfl⟩

/-! ## The cells that AArch32 code can name -/

theorem modeBelongs_el0_iff (c : Config) (m : Mode) : modeBelongs c m .el0 = true ↔ m = .usr := by
  cases m <;> simp [modeBelongs]

theorem modeBelongs_el1_iff (c : Config) (m : Mode) :
    modeBelongs c m .el1 = true ↔ m ∈ [Mode.fiq, .irq, .svc, .abt, .und, .sys] := by
  cases m <;> simp [modeBelongs]

theorem modeBelongs_el2_iff (c : Config) (m : Mode) : modeBelongs c m .el2 = true ↔ m = .hyp := by
  cases m <;> simp [modeBelongs]

/-- A mode and a register number that name a cell: User mode where it has a copy, else the mode whose copy it is. -/
def namingOfCell (k : Fin 31) : Mode × Fin 16 :=
  match a32RegOfCell k with
  | .spHyp => (.hyp, 13)
  | .lrIrq => (.irq, 14)
  | .spIrq => (.irq, 13)
  | .lrSvc => (.svc, 14)
  | .spSvc => (.svc, 13)
  | .lrAbt => (.abt, 14)
  | .spAbt => (.abt, 13)
  | .lrUnd => (.und, 14)
  | .spUnd => (.und, 13)
  | .r8Fiq => (.fiq, 8)
  | .r9Fiq => (.fiq, 9)
  | .r10Fiq => (.fiq, 10)
  | .r11Fiq => (.fiq, 11)
  | .r12Fiq => (.fiq, 12)
  | .spFiq => (.fiq, 13)
  | .lrFiq => (.fiq, 14)
  | _ => (.usr, Fin.ofNat 16 k.val)

theorem xNum_namingOfCell : ∀ k : Fin 31, xNum resetConfig (namingOfCell k).1 (namingOfCell k).2 = .ok k := by
  decide

theorem namingOfCell_usr : ∀ k : Fin 31, inRanges [(0, 14)] k.val = true → (namingOfCell k).1 = .usr := by
  decide

theorem namingOfCell_below_el2 : ∀ k : Fin 31, inRanges [(0, 14), (16, 30)] k.val = true →
    (namingOfCell k).1 = .usr ∨ (namingOfCell k).1 ∈ [Mode.fiq, .irq, .svc, .abt, .und, .sys] := by
  decide

theorem namingOfCell_mode : ∀ k : Fin 31,
    (namingOfCell k).1 = .usr ∨ (namingOfCell k).1 ∈ [Mode.fiq, .irq, .svc, .abt, .und, .sys] ∨
      (namingOfCell k).1 = .hyp := by
  decide

theorem cell_of_usr :
    ∀ (n : Fin 16) (k : Fin 31), xNum resetConfig .usr n = .ok k → inRanges [(0, 14)] k.val = true := by
  decide

/-- A mode of EL1 names the User mode cells and its own, which are 16 to 30. -/
theorem cell_of_el1_mode : ∀ m ∈ [Mode.fiq, .irq, .svc, .abt, .und, .sys], ∀ (n : Fin 16) (k : Fin 31),
    xNum resetConfig m n = .ok k → inRanges [(0, 14), (16, 30)] k.val = true := by
  decide

theorem inRanges_usr_below_el2 {k : Nat} (h : inRanges [(0, 14)] k = true) : inRanges [(0, 14), (16, 30)] k = true := by
  simp only [inRanges, List.any_cons, List.any_nil, Bool.or_false] at h ⊢
  rw [h, Bool.true_or]

/-- Settles O23: `namingOfCell` names each cell, in a mode of the level the table has it for, and the modes of a level
name no cell outside its set. -/
theorem nameableCellsByLevel : Obligations.NameableCellsByLevel := by
  intro c k hrows
  have hname : xNum c (namingOfCell k).1 (namingOfCell k).2 = .ok k :=
    (xNum_of_no_bankRows hrows _ _).trans (xNum_namingOfCell k)
  simp only [modeBelongs_el0_iff, modeBelongs_el1_iff, modeBelongs_el2_iff]
  refine ⟨⟨?el0, fun hk => ⟨_, _, namingOfCell_usr k hk, hname⟩⟩,
    ⟨?el1, fun hk => ⟨_, _, namingOfCell_below_el2 k hk, hname⟩⟩, ⟨_, _, namingOfCell_mode k, hname⟩⟩
  case el0 =>
    rintro ⟨m, n, rfl, hk⟩
    rw [xNum_of_no_bankRows hrows] at hk
    exact cell_of_usr n k hk
  case el1 =>
    rintro ⟨m, n, rfl | hm, hk⟩
    · rw [xNum_of_no_bankRows hrows] at hk
      exact inRanges_usr_below_el2 (cell_of_usr n k hk)
    · rw [xNum_of_no_bankRows hrows] at hk
      exact cell_of_el1_mode m hm n k hk

/-! ## The writes -/

theorem exec_a32Wr {s : State} (hcur : s.curState = .aarch32) (n : Fin 16) (v : Half) :
    exec (.a32Wr n v) s = withXNum s n fun k => .next (s.withX k (setLow32 (readX s k) v)) :=
  inA32_of hcur _

theorem exec_a32Wr_of_xNum {s : State} {n : Fin 16} {k : Fin 31} (hcur : s.curState = .aarch32)
    (hk : xNum s.cfg s.mode n = .ok k) (v : Half) :
    exec (.a32Wr n v) s = .next (s.withX k (setLow32 (readX s k) v)) := by
  rw [exec_a32Wr hcur, withXNum_of hk]

theorem exec_a32Wr_of_error {s : State} {n : Fin 16} {r : Refusal} (hcur : s.curState = .aarch32)
    (hr : xNum s.cfg s.mode n = .error r) (v : Half) : exec (.a32Wr n v) s = .refused r := by
  rw [exec_a32Wr hcur, withXNum_of_error hr]

theorem exec_a64Wr {s : State} (hcur : s.curState = .aarch64) (k : Fin 31) (v : Word) :
    exec (.a64Wr k v) s = .next (s.withX k v) :=
  inA64_of hcur _

/-- Settles O39: the write replaces the low half of the cell that `xNum` answers, or is refused as `xNum` is. -/
theorem a32WriteGpr : Obligations.A32WriteGpr := by
  intro s n v hcur
  refine ⟨fun k hk => ⟨_, exec_a32Wr_of_xNum hcur hk v, rfl, ?_, ?_, fun j hj => readX_withX_ne s hj _⟩, ?_,
    fun hmon hn => ?_⟩
  · rw [readX_withX_same, low32_setLow32]
  · rw [readX_withX_same, high32_setLow32]
  · rintro rfl
    exact exec_a32Wr_of_error hcur (xNum_pc s.cfg s.mode) v
  · refine exec_a32Wr_of_error hcur ?_ v
    rw [hmon]
    exact xNum_mon_sp_lr s.cfg hn

/-- Two register numbers denote one cell exactly where `Bank` gives them one name (R25: `A32Map` is injective). -/
theorem bank_eq_iff {c : Config} {m m' : Mode} {n n' : Fin 16} {k k' : Fin 31} (hk : xNum c m n = .ok k)
    (hk' : xNum c m' n' = .ok k') : bank c m n = bank c m' n' ↔ k' = k := by
  obtain ⟨a, ha, rfl⟩ := xNum_eq_ok_iff.mp hk
  obtain ⟨a', ha', rfl⟩ := xNum_eq_ok_iff.mp hk'
  rw [ha, ha', a32Map_bijective.injective.eq_iff, Except.ok.injEq, eq_comm]

/-- Settles O40: the read is of the written cell exactly where the two names are one. -/
theorem writeSeenWhereBankAgrees : Obligations.WriteSeenWhereBankAgrees := by
  intro s m' n n' k k' v hcur hk hk'
  refine ⟨_, exec_a32Wr_of_xNum hcur hk v, ?_⟩
  have hread := exec_a32Rd_of_xNum (s := { s.withX k (setLow32 (readX s k) v) with mode := m' }) hcur hk'
  have hcell : low32 (readX (s.withX k (setLow32 (readX s k) v)) k') =
      if bank s.cfg s.mode n = bank s.cfg m' n' then v else low32 (readX s k') := by
    rw [readX_withX]
    by_cases heq : k' = k
    · rw [if_pos heq, if_pos ((bank_eq_iff hk hk').mpr heq), low32_setLow32]
    · rw [if_neg heq, if_neg fun h => heq ((bank_eq_iff hk hk').mp h)]
  rw [hread, ← hcell]
  rfl

/-- Settles O41: both accesses are of the whole cell, with no test of the level. -/
theorem a64ReadWriteGpr : Obligations.A64ReadWriteGpr := by
  intro s n v hcur
  exact ⟨exec_a64Rd hcur n, _, exec_a64Wr hcur n v, rfl, readX_withX_same s n v, fun j hj => readX_withX_ne s hj v⟩

end Sys2Proof.Machine
end

section
/-!
PROOFS. The parts of the SIMD and floating-point registers that AArch32 code names (42_simd_fp_interprocessing.md R111,
R112, R116): D`m` and S`m` as fields of a cell.
-/
namespace Sys2Proof.Machine

theorem exec_a32Drd {s : State} (hcur : s.curState = .aarch32) (m : Fin 32) :
    exec (.a32Drd m) s = .next (s.withResult (.bits64 (quadField (readV s (dCell m)) (dLow m) 64))) :=
  inA32_of hcur _

theorem exec_a32Dwr {s : State} (hcur : s.curState = .aarch32) (m : Fin 32) (v : Word) :
    exec (.a32Dwr m v) s = .next (s.withV (dCell m) (setQuadField (readV s (dCell m)) (dLow m) v)) :=
  inA32_of hcur _

theorem exec_a32Srd {s : State} (hcur : s.curState = .aarch32) (m : Fin 32) :
    exec (.a32Srd m) s = .next (s.withResult (.bits32 (quadField (readV s (sCell m)) (sLow m) 32))) :=
  inA32_of hcur _

theorem exec_a32Swr {s : State} (hcur : s.curState = .aarch32) (m : Fin 32) (v : Half) :
    exec (.a32Swr m v) s = .next (s.withV (sCell m) (setQuadField (readV s (sCell m)) (sLow m) v)) :=
  inA32_of hcur _

theorem dCell_eq_of_val_eq {m k : Fin 32} (h : k.val = m.val / 2) : dCell m = k :=
  Fin.ext h.symm

theorem sCell_eq_of_val_eq {m k : Fin 32} (h : k.val = m.val / 4) : sCell m = k :=
  Fin.ext h.symm

/-- An operation that ends in a write of a field of `vreg[k]` changes the bits of that field alone. -/
theorem writes_field_of_next_withV {o : Outcome} {s : State} {k : Fin 32} {lo n : Nat} {v : BitVec n}
    (h : o = .next (s.withV k (setQuadField (readV s k) lo v))) :
    ∃ t, o = .next t ∧ t = { s with vreg := t.vreg } ∧
      (∀ b : Nat, b < 128 → (readV t k).getLsbD b =
        if lo ≤ b ∧ b < lo + n then v.getLsbD (b - lo) else (readV s k).getLsbD b) ∧
      ∀ j : Fin 32, j ≠ k → readV t j = readV s j := by
  obtain ⟨t, ht, hframe, hcell, hothers⟩ := writes_cell_of_next_withV h
  refine ⟨t, ht, hframe, fun b hb => ?_, hothers⟩
  rw [hcell]
  exact getLsbD_setQuadField _ lo v b hb

/-- Settles O44: D`m` is the field of 64 bits at `dLow m` of the cell `dCell m`. -/
theorem a32ReadWriteD : Obligations.A32ReadWriteD := by
  intro s m k v hcur hk
  obtain rfl : dCell m = k := dCell_eq_of_val_eq hk
  exact ⟨exec_a32Drd hcur m, writes_field_of_next_withV (exec_a32Dwr hcur m v)⟩

/-- Settles O45: S`m` is the field of 32 bits at `sLow m` of the cell `sCell m`. -/
theorem a32ReadWriteS : Obligations.A32ReadWriteS := by
  intro s m k v hcur hk
  obtain rfl : sCell m = k := sCell_eq_of_val_eq hk
  exact ⟨exec_a32Srd hcur m, writes_field_of_next_withV (exec_a32Swr hcur m v)⟩

/-- The value a read gave, from the outcome it is known to have. -/
theorem result_of_next_withResult {o : Outcome} {s t : State} {v : ReadValue} (h : o = .next (s.withResult v))
    (ht : o = .next t) : t.result = some v := by
  cases h.symm.trans ht
  rfl

/-- Settles O47: both reads are of the same cell, as a whole and as a field of it. -/
theorem unpackingFormulae : Obligations.UnpackingFormulae := by
  intro s s' t t' m k q h64 h32 hsame hread hq
  have hq' : q = readV s' k := by
    have hv := (result_of_next_withResult (exec_a64Vrd h64 k) hread).symm.trans hq
    rw [readV_congr hsame]
    simpa using hv.symm
  subst hq'
  refine ⟨fun hk h => ?_, fun hk h => ?_, fun n hk h => ?_⟩
  · obtain rfl := dCell_eq_of_val_eq hk
    exact result_of_next_withResult (exec_a32Drd h32 m) h
  · obtain rfl := sCell_eq_of_val_eq hk
    exact result_of_next_withResult (exec_a32Srd h32 m) h
  · obtain rfl := qCell_eq_of_val_eq hk
    exact result_of_next_withResult (exec_a32Qrd h32 n) h

end Sys2Proof.Machine
end

section
/-!
PROOFS. What AArch32 execution cannot see (R26, R36, R117): the upper halves of the general-purpose cells and V16 to V31.
One theorem about two runs covers both: two states that differ there alone go on alike, and each keeps its own.
-/
namespace Sys2Proof.Machine

/-! ## The relation between the two runs -/

/-- The two states agree in all that AArch32 code can name. -/
structure SameVisible (s s' : State) : Prop where
  rest : s' = { s with x := s'.x, vreg := s'.vreg }
  low : ∀ k : Fin 31, low32 (readX s' k) = low32 (readX s k)
  vreg : ∀ k : Fin 32, k.val < 16 → readV s' k = readV s k

/-- From the first state to the second, what AArch32 code cannot name is unchanged. -/
structure HiddenKept (s t : State) : Prop where
  high : ∀ k : Fin 31, high32 (readX t k) = high32 (readX s k)
  vreg : ∀ k : Fin 32, 16 ≤ k.val → readV t k = readV s k

/-- Both runs reach a state, the two states agree again, and neither run changed what it cannot see. -/
def RunsAlike (s s' t : State) (o' : Outcome) : Prop :=
  ∃ t', o' = .next t' ∧ SameVisible t t' ∧ HiddenKept s t ∧ HiddenKept s' t'

/-- The second state as the first with other general-purpose and SIMD registers. -/
theorem SameVisible.exists_withRegs {s s' : State} (h : SameVisible s s') :
    ∃ x' v', s' = { s with x := x', vreg := v' } :=
  ⟨s'.x, s'.vreg, h.rest⟩

theorem HiddenKept.of_regs_eq {s t : State} (hx : t.x = s.x) (hv : t.vreg = s.vreg) : HiddenKept s t :=
  ⟨fun k => by rw [readX_congr hx], fun k _ => readV_congr hv k⟩

/-- An operation that leaves the general-purpose and SIMD registers, and in the other run does the same beside them. -/
theorem runsAlike_of_untouched {s t : State} {x' : Vector Word 31} {v' : Vector Quad 32} {o' : Outcome}
    (hs : SameVisible s { s with x := x', vreg := v' }) (hx : t.x = s.x) (hv : t.vreg = s.vreg)
    (ho : o' = .next { t with x := x', vreg := v' }) : RunsAlike s { s with x := x', vreg := v' } t o' := by
  refine ⟨_, ho, ⟨rfl, fun k => ?_, fun k hk => ?_⟩, .of_regs_eq hx hv, .of_regs_eq rfl rfl⟩
  · rw [readX_congr hx]
    exact hs.low k
  · rw [readV_congr hv]
    exact hs.vreg k hk

/-- A write of the low half of one cell. -/
theorem runsAlike_withX {s : State} {x' : Vector Word 31} {v' : Vector Quad 32} {o' : Outcome} (k : Fin 31) (v : Half)
    (hs : SameVisible s { s with x := x', vreg := v' })
    (ho : o' = .next ({ s with x := x', vreg := v' }.withX k (setLow32 (readX { s with x := x', vreg := v' } k) v))) :
    RunsAlike s { s with x := x', vreg := v' } (s.withX k (setLow32 (readX s k) v)) o' := by
  have hhigh : ∀ (u : State) (j : Fin 31),
      high32 (readX (u.withX k (setLow32 (readX u k) v)) j) = high32 (readX u j) := by
    intro u j
    rw [readX_withX]
    split
    · rename_i hj
      rw [high32_setLow32, hj]
    · rfl
  refine ⟨_, ho, ⟨rfl, fun j => ?_, hs.vreg⟩, ⟨hhigh _, fun _ _ => rfl⟩, ⟨hhigh _, fun _ _ => rfl⟩⟩
  rw [readX_withX, readX_withX]
  split
  · rw [low32_setLow32, low32_setLow32]
  · exact hs.low j

/-- A write of one of V0 to V15, of the same value in both runs. -/
theorem runsAlike_withV {s : State} {x' : Vector Word 31} {v' : Vector Quad 32} {o' : Outcome} {k : Fin 32} (hk : k.val < 16)
    (q : Quad) (hs : SameVisible s { s with x := x', vreg := v' })
    (ho : o' = .next ({ s with x := x', vreg := v' }.withV k q)) :
    RunsAlike s { s with x := x', vreg := v' } (s.withV k q) o' := by
  have hupper : ∀ (u : State) (j : Fin 32), 16 ≤ j.val → readV (u.withV k q) j = readV u j := by
    intro u j hj
    refine readV_withV_ne u ?_ q
    rintro rfl
    omega
  refine ⟨_, ho, ⟨rfl, hs.low, fun j hj => ?_⟩, ⟨fun _ => rfl, hupper _⟩, ⟨fun _ => rfl, hupper _⟩⟩
  rw [readV_withV, readV_withV]
  split
  · rfl
  · exact hs.vreg j hj

/-! ## The operations of AArch32 state -/

theorem qCell_lt (n : Fin 16) : (qCell n).val < 16 := n.isLt

theorem dCell_lt (m : Fin 32) : (dCell m).val < 16 := by
  show m.val / 2 < 16
  omega

theorem sCell_lt (m : Fin 32) : (sCell m).val < 16 := by
  show m.val / 4 < 16
  omega

/-- The predicate of `EL2Enabled` does not see what AArch32 code cannot name (notes/assumptions/10.md). -/
theorem el2Enabled_of_sameVisible {s : State} {x' : Vector Word 31} {v' : Vector Quad 32}
    (hs : SameVisible s { s with x := x', vreg := v' }) :
    el2Enabled { s with x := x', vreg := v' } = el2Enabled s := by
  have hx : el2View { s with x := x', vreg := v' } = el2View { s with vreg := v' } :=
    el2View_withUpper { s with vreg := v' } x' fun k => maskLow_congr (hs.low k)
  have hv : el2View { s with vreg := v' } = el2View s := el2View_withV16 s v' hs.vreg
  exact el2Enabled_of_view (hx.trans hv) rfl

theorem levelUsable_congr {s t : State} (hcfg : t.cfg = s.cfg) (henabled : el2Enabled t = el2Enabled s) (l : EL) :
    levelUsable t l = levelUsable s l := by
  cases l with
  | el2 => exact henabled
  | _ => simp only [levelUsable, hcfg]

theorem exec_a32Setmode_of_legal {s : State} {l : EL} {m : Mode} (h : SetmodeLegal s l m) :
    exec (.a32Setmode l m) s = .next { s with el := l, mode := m } :=
  (setmodeChangesLevelAndMode s l m).1 h

/-- Where an AArch32 System register is stored, no general-purpose or SIMD register decides. -/
theorem a32SysTarget_withRegs (s : State) (x' : Vector Word 31) (v' : Vector Quad 32) (a : A32Sys) :
    a32SysTarget { s with x := x', vreg := v' } a = a32SysTarget s a := rfl

theorem exec_a32Sysrd_of_target {s : State} {a : A32Sys} {g : SysTarget} (hcur : s.curState = .aarch32)
    (hg : a32SysTarget s a = some g) : exec (.a32Sysrd a) s = readTarget g s := by
  simp only [exec, execA32Sysrd, inA32_of hcur, hg]

theorem exec_a32Syswr_of_target {s : State} {a : A32Sys} {g : SysTarget} (hcur : s.curState = .aarch32)
    (hg : a32SysTarget s a = some g) (v : Half) : exec (.a32Syswr a v) s = writeTarget g v s := by
  simp only [exec, execA32Syswr, inA32_of hcur, hg]

theorem exec_a32Sysrd_target {s t : State} {a : A32Sys} (h : exec (.a32Sysrd a) s = .next t) :
    ∃ g, a32SysTarget s a = some g ∧ readTarget g s = .next t := by
  obtain ⟨_, h⟩ := inA32_next h
  split at h
  · exact ⟨_, ‹_›, h⟩
  · cases h

theorem readOwn_withRegs {c : A32Cell} {s t : State} (x' : Vector Word 31) (v' : Vector Quad 32)
    (h : readOwn c s = .next t) : readOwn c { s with x := x', vreg := v' } = .next { t with x := x', vreg := v' } := by
  unfold readOwn at h ⊢
  split at h
  · rename_i hres0
    rw [if_pos hres0]
    split at h
    · rename_i hzero
      cases h
      exact if_pos hzero
    · rename_i hdraw
      cases h
      exact if_neg hdraw
  · rename_i hcell
    cases h
    exact if_neg hcell

theorem readTarget_withRegs {g : SysTarget} {s t : State} (x' : Vector Word 31) (v' : Vector Quad 32)
    (h : readTarget g s = .next t) :
    readTarget g { s with x := x', vreg := v' } = .next { t with x := x', vreg := v' } := by
  cases g with
  | own c => exact readOwn_withRegs x' v' h
  | low r | high r =>
    have hr : readCell64 { s with x := x', vreg := v' } r = readCell64 s r := rfl
    simp only [readTarget, hr] at h ⊢
    split at h
    · cases h
      rfl
    · cases h

theorem writeTarget_withRegs {g : SysTarget} {v : Half} {s t : State} (x' : Vector Word 31) (v' : Vector Quad 32)
    (h : writeTarget g v s = .next t) :
    writeTarget g v { s with x := x', vreg := v' } = .next { t with x := x', vreg := v' } := by
  cases g with
  | own c =>
    simp only [writeTarget, writeOwn] at h ⊢
    split at h
    · rename_i hres0
      cases h
      exact if_pos hres0
    · rename_i hcell
      cases h
      exact if_neg hcell
  | low r | high r =>
    have hr : readCell64 { s with x := x', vreg := v' } r = readCell64 s r := rfl
    simp only [writeTarget, hr] at h ⊢
    split at h
    · cases h
      rfl
    · cases h

theorem writeTarget_keeps_regs {g : SysTarget} {v : Half} {s t : State} (h : writeTarget g v s = .next t) :
    t.x = s.x ∧ t.vreg = s.vreg := by
  obtain rfl | ⟨_, _, rfl⟩ | ⟨_, _, _, _, rfl⟩ | ⟨_, _, _, _, rfl⟩ := writeTarget_next h <;> exact ⟨rfl, rfl⟩

/-- An operation in AArch32 state, other than the entry that leaves it, goes on alike in two states that agree in all that
AArch32 code can name. -/
theorem exec_runsAlike {i : Instr} {s s' t : State} (hcur : s.curState = .aarch32) (hentry : ∀ l p, i ≠ .excEntry l p)
    (hs : SameVisible s s') (h : exec i s = .next t) : RunsAlike s s' t (exec i s') := by
  obtain ⟨x', v', rfl⟩ := hs.exists_withRegs
  have hcur' : State.curState { s with x := x', vreg := v' } = .aarch32 := hcur
  cases i with
  | excEntry l p => exact absurd rfl (hentry l p)
  | excReturn l st m p =>
    obtain ⟨h64, _⟩ := returnFromException_direction h
    simp [hcur] at h64
  | eret | a64Rd | a64Wr | a64Vrd | a64Vwr | a64Drd | a64Srd | a64Sysrd | a64Syswr =>
    have h64 := (inA64_next h).1
    simp [hcur] at h64
  | a32Rd n =>
    obtain ⟨k, hk, hread⟩ := withXNum_next (inA32_next h).2
    cases hread
    refine runsAlike_of_untouched hs rfl rfl ?_
    rw [exec_a32Rd_of_xNum hcur' hk, hs.low k]
    rfl
  | a32Wr n v =>
    obtain ⟨k, hk, hwrite⟩ := withXNum_next (inA32_next h).2
    cases hwrite
    exact runsAlike_withX k v hs (exec_a32Wr_of_xNum hcur' hk v)
  | a32Qrd n =>
    cases (exec_a32Qrd hcur n).symm.trans h
    refine runsAlike_of_untouched hs rfl rfl ?_
    rw [exec_a32Qrd hcur', hs.vreg _ (qCell_lt n)]
    rfl
  | a32Drd m =>
    cases (exec_a32Drd hcur m).symm.trans h
    refine runsAlike_of_untouched hs rfl rfl ?_
    rw [exec_a32Drd hcur', hs.vreg _ (dCell_lt m)]
    rfl
  | a32Srd m =>
    cases (exec_a32Srd hcur m).symm.trans h
    refine runsAlike_of_untouched hs rfl rfl ?_
    rw [exec_a32Srd hcur', hs.vreg _ (sCell_lt m)]
    rfl
  | a32Qwr n v =>
    cases (exec_a32Qwr hcur n v).symm.trans h
    exact runsAlike_withV (qCell_lt n) v hs (exec_a32Qwr hcur' n v)
  | a32Dwr m v =>
    cases (exec_a32Dwr hcur m v).symm.trans h
    refine runsAlike_withV (dCell_lt m) _ hs ?_
    rw [exec_a32Dwr hcur', hs.vreg _ (dCell_lt m)]
  | a32Swr m v =>
    cases (exec_a32Swr hcur m v).symm.trans h
    refine runsAlike_withV (sCell_lt m) _ hs ?_
    rw [exec_a32Swr hcur', hs.vreg _ (sCell_lt m)]
  | a32Sysrd a =>
    obtain ⟨g, hg, hread⟩ := exec_a32Sysrd_target h
    have ho := (exec_a32Sysrd_of_target hcur' ((a32SysTarget_withRegs s x' v' a).trans hg)).trans
      (readTarget_withRegs x' v' hread)
    obtain ⟨_, _, rfl⟩ := readTarget_next hread
    exact runsAlike_of_untouched hs rfl rfl ho
  | a32Syswr a v =>
    obtain ⟨_, g, hg, hwrite⟩ := execA32Syswr_next h
    have ho := (exec_a32Syswr_of_target hcur' ((a32SysTarget_withRegs s x' v' a).trans hg) v).trans
      (writeTarget_withRegs x' v' hwrite)
    obtain ⟨hx, hv⟩ := writeTarget_keeps_regs hwrite
    exact runsAlike_of_untouched hs hx hv ho
  | a32Setmode l m =>
    obtain ⟨⟨_, husable, htarget, hbelongs⟩, rfl⟩ := execA32Setmode_next h
    have henabled := el2Enabled_of_sameVisible hs
    have husable' : levelUsable { s with x := x', vreg := v' } l = true :=
      (levelUsable_congr (s := s) (t := { s with x := x', vreg := v' }) rfl henabled l).trans husable
    have htarget' : stateOf { s with x := x', vreg := v' } l = .aarch32 :=
      (stateOf_congr (s := s) (t := { s with x := x', vreg := v' }) rfl rfl rfl rfl henabled l).trans htarget
    exact runsAlike_of_untouched hs rfl rfl (exec_a32Setmode_of_legal ⟨hcur', husable', htarget', hbelongs⟩)

/-! ## The upper halves and V16 to V31 -/

/-- Two states with the same halves of every cell have the same cells. -/
theorem x_ext {s t : State} (hlow : ∀ k : Fin 31, low32 (readX t k) = low32 (readX s k))
    (hhigh : ∀ k : Fin 31, high32 (readX t k) = high32 (readX s k)) : t.x = s.x := by
  ext i hi : 1
  exact word_ext (hlow ⟨i, hi⟩) (hhigh ⟨i, hi⟩)

theorem vreg_ext {s t : State} (h : ∀ k : Fin 32, readV t k = readV s k) : t.vreg = s.vreg := by
  ext i hi : 1
  exact h ⟨i, hi⟩

/-- Settles O42: the two runs start with the same `vreg` and so end with the same. -/
theorem upperHalvesIgnoredInAArch32 : Obligations.UpperHalvesIgnoredInAArch32 := by
  intro i s t x' hcur hentry hlow h
  have hs : SameVisible s { s with x := x' } := ⟨rfl, hlow, fun _ _ => rfl⟩
  obtain ⟨t', ho, ht, hkept, hkept'⟩ := exec_runsAlike hcur hentry hs h
  have hv : t'.vreg = t.vreg := vreg_ext fun k => by
    by_cases hk : k.val < 16
    · exact ht.vreg k hk
    · rw [hkept'.vreg k (by omega), hkept.vreg k (by omega)]
      rfl
  refine ⟨t', ho, ?_, fun k => ⟨ht.low k, hkept.high k, hkept'.high k⟩⟩
  rw [ht.rest, hv]

/-- A transfer that completes changes the Execution state, and resets V16 to V31 only with PSTATE.SM (R143). -/
theorem readV_exec_transfer {i : Instr} {s t : State} (htransfer : isTransfer i = true) (h : exec i s = .next t)
    (hcase : (s.curState = .aarch32 ∧ t.curState = .aarch32) ∨ smResets s = false) (k : Fin 32) :
    readV t k = readV s k := by
  obtain ⟨l, p, z, _, ⟨_, _⟩, _, rfl⟩ | ⟨l, m, p, _, ⟨h64, _⟩, rfl⟩ := exec_transfer h htransfer
  · obtain ⟨_, h32⟩ | hkeeps := hcase
    · cases h32
    · refine readV_congr ?_ k
      rw [enterA64_eq]
      exact if_neg (by simp [hkeeps])
  · obtain ⟨h32, _⟩ | hkeeps := hcase
    · simp [h64] at h32
    · refine readV_congr ?_ k
      rw [enterA32_eq]
      exact if_neg (by simp [hkeeps])

/-- Settles O48: inside the visit the two runs start with the same cells and end with the same; the transfers at its ends
leave V16 to V31 unless they reset them. -/
theorem v16ToV31UntouchedInAArch32 : Obligations.V16ToV31UntouchedInAArch32 := by
  refine ⟨fun i s t v' hcur hentry hv h => ?twoRuns, fun i s t hvisit h hcase k hk => ?kept⟩
  case twoRuns =>
    have hs : SameVisible s { s with vreg := v' } := ⟨rfl, fun _ => rfl, hv⟩
    obtain ⟨t', ho, ht, hkept, hkept'⟩ := exec_runsAlike hcur hentry hs h
    have hx : t'.x = t.x := x_ext ht.low fun k => by
      rw [hkept'.high k, hkept.high k]
      rfl
    refine ⟨t', ho, ?_, ht.vreg, fun k hk => ⟨hkept.vreg k hk, hkept'.vreg k hk⟩⟩
    rw [ht.rest, hx]
  case kept =>
    cases htransfer : isTransfer i with
    | true => exact readV_exec_transfer htransfer h hcase k
    | false =>
      have hcur : s.curState = .aarch32 := hvisit.resolve_right (by simp [htransfer])
      have hentry : ∀ l p, i ≠ .excEntry l p := by
        rintro l p rfl
        cases htransfer
      have hself : SameVisible s s := ⟨rfl, fun _ => rfl, fun _ _ => rfl⟩
      obtain ⟨_, _, _, hkept, _⟩ := exec_runsAlike hcur hentry hself h
      exact hkept.vreg k hk

end Sys2Proof.Machine
end

section
/-!
PROOFS. The System registers, access by access (43_sysreg_interprocessing.md): the AArch32 accesses (R123, R135), the
AArch64 accesses to whole registers and to the AArch32 registers' own cells (R129, R132, R133, R135), the effect of a
write of a control (R176), and banking by Security state (R125 to R128).
-/
namespace Sys2Proof.Machine

/-! ## The accesses, by where the register is stored -/

theorem exec_a32Sysrd_of_no_target {s : State} {a : A32Sys} (hcur : s.curState = .aarch32)
    (hg : a32SysTarget s a = none) : exec (.a32Sysrd a) s = .refused .unmappedSysreg := by
  simp only [exec, execA32Sysrd, inA32_of hcur, hg]

theorem exec_a32Syswr_of_no_target {s : State} {a : A32Sys} (hcur : s.curState = .aarch32)
    (hg : a32SysTarget s a = none) (v : Half) : exec (.a32Syswr a v) s = .refused .unmappedSysreg := by
  simp only [exec, execA32Syswr, inA32_of hcur, hg]

theorem exec_a64Sysrd_of_own {s : State} {r : A64Sys} {c : A32Cell} (hcur : s.curState = .aarch64)
    (hown : a64OwnCell s r = some c) :
    exec (.a64Sysrd r) s = if (cellLevel c).num < s.el.num then readOwn c s else .refused .unmappedSysreg := by
  simp only [exec, execA64Sysrd, inA64_of hcur, hown]

theorem exec_a64Syswr_of_own {s : State} {r : A64Sys} {c : A32Cell} (hcur : s.curState = .aarch64)
    (hown : a64OwnCell s r = some c) (v : Nat) :
    exec (.a64Syswr r v) s =
      if (cellLevel c).num < s.el.num then writeOwn c (BitVec.ofNat 32 v) s else .refused .unmappedSysreg := by
  simp only [exec, execA64Syswr, inA64_of hcur, hown]

theorem exec_a64Sysrd_of_cell {s : State} {r : A64Sys} {w : Word} (hcur : s.curState = .aarch64)
    (hown : a64OwnCell s r = none) (hr : readCell64 s r = some w) :
    exec (.a64Sysrd r) s = .next (s.withResult (wholeValue w (readTop s.sys r))) := by
  simp only [exec, execA64Sysrd, inA64_of hcur, hown, hr]

theorem exec_a64Syswr_of_cell {s : State} {r : A64Sys} {w : Word} (hcur : s.curState = .aarch64)
    (hown : a64OwnCell s r = none) (hr : readCell64 s r = some w) (v : Nat) :
    exec (.a64Syswr r v) s = .next (s.withSys (writeWhole s.cfg r v s.sys)) := by
  simp only [exec, execA64Syswr, inA64_of hcur, hown, hr]

theorem exec_a64Sys_of_no_cell {s : State} {r : A64Sys} (hcur : s.curState = .aarch64) (hown : a64OwnCell s r = none)
    (hr : readCell64 s r = none) (v : Nat) :
    exec (.a64Sysrd r) s = .refused .unmappedSysreg ∧ exec (.a64Syswr r v) s = .refused .unmappedSysreg := by
  simp only [exec, execA64Sysrd, execA64Syswr, inA64_of hcur, hown, hr, and_self]

/-! ## The own cells -/

/-- The four registers of R44, which are RES0 where EL1 does not support AArch32 (R133). -/
theorem isRes0_iff (c : Config) (k : A32Cell) :
    isRes0 c k = true ↔ k ∈ [A32Cell.spsrAbt, .spsrUnd, .spsrIrq, .spsrFiq] ∧ c.a32El1 = false := by
  cases k <;> simp [isRes0]

theorem isRes0_eq_false {c : Config} {k : A32Cell}
    (h : k ∈ [A32Cell.spsrAbt, .spsrUnd, .spsrIrq, .spsrFiq] → c.a32El1 = true) : isRes0 c k = false := by
  rw [← Bool.not_eq_true, isRes0_iff]
  rintro ⟨hk, ha32⟩
  simp [h hk] at ha32

theorem readOwn_of_stored {s : State} {c : A32Cell} (h : isRes0 s.cfg c = false) :
    readOwn c s = .next (s.withResult (.bits32 (readCell32 s.sys c))) :=
  if_neg (by simp [h])

theorem writeOwn_of_stored {s : State} {c : A32Cell} (h : isRes0 s.cfg c = false) (v : Half) :
    writeOwn c v s = .next (s.withSys (writeCell32 c v s.sys)) :=
  if_neg (by simp [h])

/-- A read of a RES0 register gives the draw, or zero, and counts the draw at most (R133). -/
theorem readOwn_of_res0 {s : State} {c : A32Cell} (h : isRes0 s.cfg c = true) :
    ∃ t w, readOwn c s = .next t ∧ t = { s with result := some (.bits32 w), draws := t.draws } ∧
      w = (if s.cfg.res0ReadsZero then 0#32 else Config.res0Read s.draws) := by
  rw [readOwn, if_pos h]
  split
  · exact ⟨_, _, rfl, rfl, rfl⟩
  · exact ⟨_, _, rfl, rfl, rfl⟩

theorem writeOwn_of_res0 {s : State} {c : A32Cell} (h : isRes0 s.cfg c = true) (v : Half) : writeOwn c v s = .next s :=
  if_pos h

/-- An outcome that is a write of an own cell changes that cell and nothing else. -/
theorem writes_own_cell_of_next {o : Outcome} {s : State} {c : A32Cell} {v : Half}
    (h : o = .next (s.withSys (writeCell32 c v s.sys))) :
    ∃ t, o = .next t ∧ t = { s with sys := t.sys } ∧ readCell32 t.sys c = v ∧
      (∀ c' : A32Cell, c' ≠ c → readCell32 t.sys c' = readCell32 s.sys c') ∧
      (∀ r : A64Sys, readCell64 t r = readCell64 s r ∧ readTop t.sys r = readTop s.sys r) ∧
      t.sys.spsrEl3 = s.sys.spsrEl3 ∧ t.sys.spsrEl3Top = s.sys.spsrEl3Top ∧ t.sys.elrEl3 = s.sys.elrEl3 :=
  ⟨_, h, rfl, readCell32_writeCell32_same c v s.sys, fun _ hne => readCell32_writeCell32_ne hne v s.sys,
    fun r => ⟨readCell64_writeCell32 c v s r, readTop_writeCell32 c v s.sys r⟩, writeCell32_el3 c v s.sys⟩

/-! ## AArch32 accesses -/

theorem exec_a32Sysrd_own {s : State} {a : A32Sys} {c : A32Cell} (hcur : s.curState = .aarch32)
    (hg : a32SysTarget s a = some (.own c))
    (hstored : c ∈ [A32Cell.spsrAbt, .spsrUnd, .spsrIrq, .spsrFiq] → s.cfg.a32El1 = true) :
    exec (.a32Sysrd a) s = .next (s.withResult (.bits32 (readCell32 s.sys c))) :=
  (exec_a32Sysrd_of_target hcur hg).trans (readOwn_of_stored (isRes0_eq_false hstored))

theorem exec_a32Syswr_own {s : State} {a : A32Sys} {c : A32Cell} (hcur : s.curState = .aarch32)
    (hg : a32SysTarget s a = some (.own c))
    (hstored : c ∈ [A32Cell.spsrAbt, .spsrUnd, .spsrIrq, .spsrFiq] → s.cfg.a32El1 = true) (v : Half) :
    exec (.a32Syswr a v) s = .next (s.withSys (writeCell32 c v s.sys)) :=
  (exec_a32Syswr_of_target hcur hg v).trans (writeOwn_of_stored (isRes0_eq_false hstored) v)

theorem exec_a32Sysrd_low {s : State} {a : A32Sys} {r : A64Sys} {w : Word} (hcur : s.curState = .aarch32)
    (hg : a32SysTarget s a = some (.low r)) (hr : readCell64 s r = some w) :
    exec (.a32Sysrd a) s = .next (s.withResult (.bits32 (low32 w))) := by
  rw [exec_a32Sysrd_of_target hcur hg]
  simp only [readTarget, hr]

theorem exec_a32Sysrd_high {s : State} {a : A32Sys} {r : A64Sys} {w : Word} (hcur : s.curState = .aarch32)
    (hg : a32SysTarget s a = some (.high r)) (hr : readCell64 s r = some w) :
    exec (.a32Sysrd a) s = .next (s.withResult (.bits32 (high32 w))) := by
  rw [exec_a32Sysrd_of_target hcur hg]
  simp only [readTarget, hr]

/-- Settles O49: each register is read where `SysMap` has it, and the seven of the spec's own are entries of `SysMap`. -/
theorem a32ReadSysreg : Obligations.A32ReadSysreg := by
  intro s hcur
  exact ⟨exec_a32Sysrd_low hcur rfl rfl, exec_a32Sysrd_low hcur rfl rfl, exec_a32Sysrd_low hcur rfl rfl,
    fun ha32 => ⟨exec_a32Sysrd_own (c := .spsrAbt) hcur rfl fun _ => ha32,
      exec_a32Sysrd_own (c := .spsrUnd) hcur rfl fun _ => ha32,
      exec_a32Sysrd_own (c := .spsrIrq) hcur rfl fun _ => ha32,
      exec_a32Sysrd_own (c := .spsrFiq) hcur rfl fun _ => ha32⟩,
    fun a r w hr => ⟨fun hg => exec_a32Sysrd_low hcur hg hr, fun hg => exec_a32Sysrd_high hcur hg hr⟩,
    fun a c hg hstored => exec_a32Sysrd_own hcur hg hstored⟩

/-- A write of a mapped low half leaves the cell with that half written: an SPSR has the 32 bits (R4 P7). -/
theorem exec_a32Syswr_low {s : State} {a : A32Sys} {r : A64Sys} {w : Word} (hinv : Inv s) (hcur : s.curState = .aarch32)
    (hg : a32SysTarget s a = some (.low r)) (hr : readCell64 s r = some w) (v : Half) :
    exec (.a32Syswr a v) s = .next (s.withSys (writeCell64 s.cfg r (setLow32 w v) s.sys)) ∧
      (r = .spsrEl1 ∨ r = .spsrEl2 → spsrTrunc s.cfg (setLow32 w v) = setLow32 w v) :=
  ⟨exec_a32Syswr_mapped (hi := false) v hcur hg hr,
    fun hspsr => spsrTrunc_setLow32 _ _ _ (hinv.spsrTrunc_readCell64 hspsr hr) hinv.le_spsrWidth⟩

/-- Settles O52: the three mapped registers are low halves, of which an SPSR keeps all; the others are own cells. -/
theorem a32WriteSysreg : Obligations.A32WriteSysreg := by
  intro s v hinv hcur
  have hsvc := exec_a32Syswr_low hinv hcur (a := .spsrSvc) rfl rfl v
  have hhyp := exec_a32Syswr_low hinv hcur (a := .spsrHyp) rfl rfl v
  have helr := exec_a32Syswr_low hinv hcur (a := .elrHyp) rfl rfl v
  refine ⟨?_, ?_, helr.1, fun ha32 => ?_, fun a c hg hstored => ?_⟩
  · rw [hsvc.1, writeCell64, hsvc.2 (.inl rfl)]
    rfl
  · rw [hhyp.1, writeCell64, hhyp.2 (.inr rfl)]
    rfl
  · exact ⟨exec_a32Syswr_own (c := .spsrAbt) hcur rfl (fun _ => ha32) v,
      exec_a32Syswr_own (c := .spsrUnd) hcur rfl (fun _ => ha32) v,
      exec_a32Syswr_own (c := .spsrIrq) hcur rfl (fun _ => ha32) v,
      exec_a32Syswr_own (c := .spsrFiq) hcur rfl (fun _ => ha32) v⟩
  · exact writes_own_cell_of_next (exec_a32Syswr_own hcur hg hstored v)

/-! ## The halves nothing is mapped to -/

/-- An SPSR holds the low half of what is written to it whole, since it has at least 32 bits (R4 P7). -/
theorem low32_storedValue {c : Config} (h : 32 ≤ c.spsrWidth) (r : A64Sys) (v : Word) :
    low32 (storedValue c r v) = low32 v := by
  unfold storedValue
  split
  · apply BitVec.eq_of_getLsbD_eq
    intro i hi
    have hlt : i < c.spsrWidth := by omega
    simp [getLsbD_low32, getLsbD_spsrTrunc, hlt]
  · rfl

/-- R123 of one register: the bits of it that no AArch32 register is mapped to. -/
def UnmappedBitsKept (s t : State) (r : A64Sys) (w : Word) : Prop :=
  ∃ w', readCell64 t r = some w' ∧ readTop t.sys r = readTop s.sys r ∧
    ((∀ a : A32Sys, a32SysTarget s a ≠ some (.high r)) → high32 w' = high32 w) ∧
    ((∀ a : A32Sys, a32SysTarget s a ≠ some (.low r)) → low32 w' = low32 w)

theorem unmappedBitsKept_of_eq {s t : State} {r : A64Sys} {w : Word} (hr : readCell64 s r = some w)
    (hcell : readCell64 t r = readCell64 s r) (htop : readTop t.sys r = readTop s.sys r) : UnmappedBitsKept s t r w :=
  ⟨w, hcell.trans hr, htop, fun _ => rfl, fun _ => rfl⟩

theorem unmappedBitsKept_writeTarget {s t : State} {a : A32Sys} {g : SysTarget} {v : Half} {r : A64Sys} {w : Word}
    (hinv : Inv s) (hg : a32SysTarget s a = some g) (hwrite : writeTarget g v s = .next t)
    (hr : readCell64 s r = some w) : UnmappedBitsKept s t r w := by
  obtain rfl | ⟨c, rfl, rfl⟩ | ⟨r', w', rfl, hr', rfl⟩ | ⟨r', w', rfl, hr', rfl⟩ := writeTarget_next hwrite
  · exact unmappedBitsKept_of_eq hr rfl rfl
  · exact unmappedBitsKept_of_eq hr (readCell64_writeCell32 c v s r) (readTop_writeCell32 c v s.sys r)
  · by_cases hrr : r = r'
    · subst hrr
      obtain rfl : w = w' := Option.some.inj (hr.symm.trans hr')
      have hstored : storedValue s.cfg r (setLow32 w v) = setLow32 w v :=
        hinv.storedValue_setHalf (hi := false) hr nofun v
      refine ⟨_, readCell64_writeCell64_same _ hr, readTop_writeCell64 _ _ _ _ _,
        fun _ => ?_, fun hno => absurd hg (hno a)⟩
      rw [hstored, high32_setLow32]
    · exact unmappedBitsKept_of_eq hr (readCell64_writeCell64_ne _ hrr) (readTop_writeCell64 _ _ _ _ _)
  · by_cases hrr : r = r'
    · subst hrr
      obtain rfl : w = w' := Option.some.inj (hr.symm.trans hr')
      refine ⟨_, readCell64_writeCell64_same _ hr, readTop_writeCell64 _ _ _ _ _,
        fun hno => absurd hg (hno a), fun _ => ?_⟩
      rw [low32_storedValue hinv.le_spsrWidth, low32_setHigh32]
    · exact unmappedBitsKept_of_eq hr (readCell64_writeCell64_ne _ hrr) (readTop_writeCell64 _ _ _ _ _)

/-- Settles O51: in AArch32 state only `A32.SYSWR` writes a System register, and of a cell of 64 bits the mapped half. -/
theorem unmappedSysregBitsKept : Obligations.UnmappedSysregBitsKept := by
  intro i s t r w hinv hcur hentry h hr
  obtain ⟨a, v, rfl, hw⟩ | ⟨r', v, rfl, hw⟩ | htransfer | ⟨hcfg, hsys⟩ := exec_sysRegs_cases h
  · obtain ⟨_, g, hg, hwrite⟩ := execA32Syswr_next hw
    exact unmappedBitsKept_writeTarget hinv hg hwrite hr
  · have h64 := (execA64Syswr_next hw).1
    simp [hcur] at h64
  · obtain ⟨l, p, _, rfl, _⟩ | ⟨_, _, _, _, ⟨h64, _⟩, _⟩ := exec_transfer h htransfer
    · exact absurd rfl (hentry l p)
    · simp [hcur] at h64
  · exact unmappedBitsKept_of_eq hr (readCell64_congr hcfg hsys r) (by rw [hsys])

/-! ## AArch64 accesses to a whole register -/

theorem getElem_spsrTop (c : Config) (v i : Nat) (h : i < (spsrTop c v).length) :
    (spsrTop c v)[i] = v.testBit (64 + i) := by
  simp [spsrTop]

/-- What a whole register holds after a write: an SPSR the bits it has, every other register 64. -/
theorem writeWhole_same {s : State} {r : A64Sys} {w : Word} (v : Nat) (hr : readCell64 s r = some w) :
    if r = .spsrEl1 ∨ r = .spsrEl2 then
      readCell64 (s.withSys (writeWhole s.cfg r v s.sys)) r =
          some (((BitVec.ofNat 64 v).setWidth s.cfg.spsrWidth).setWidth 64) ∧
        (readTop (writeWhole s.cfg r v s.sys) r).length = s.cfg.spsrWidth - 64 ∧
        ∀ (i : Nat) (h : i < (readTop (writeWhole s.cfg r v s.sys) r).length),
          (readTop (writeWhole s.cfg r v s.sys) r)[i] = v.testBit (64 + i)
    else
      readCell64 (s.withSys (writeWhole s.cfg r v s.sys)) r = some (BitVec.ofNat 64 v) ∧
        readTop (writeWhole s.cfg r v s.sys) r = [] := by
  have hcell := readCell64_writeWhole_same v hr
  have htop := readTop_writeWhole_same s.cfg r v s.sys
  split
  · rename_i hspsr
    rw [if_pos hspsr] at htop
    rw [storedValue, if_pos hspsr] at hcell
    simp only [htop]
    exact ⟨hcell, length_spsrTop s.cfg v, getElem_spsrTop s.cfg v⟩
  · rename_i hspsr
    rw [if_neg hspsr] at htop
    rw [storedValue, if_neg hspsr] at hcell
    exact ⟨hcell, htop⟩

/-- Settles O53: the write is of the whole register, which then holds the bits it has, and of no other. -/
theorem a64ReadWriteSysreg : Obligations.A64ReadWriteSysreg := by
  intro s r w v hcur hr hown
  exact ⟨exec_a64Sysrd_of_cell hcur hown hr, _, exec_a64Syswr_of_cell hcur hown hr v, rfl, writeWhole_same v hr,
    fun r' hne => ⟨readCell64_writeWhole_ne v hne, readTop_writeWhole_ne hne s.cfg v s.sys⟩,
    readCell32_writeWhole s.cfg r v s.sys, writeWhole_el3 s.cfg r v s.sys⟩

/-! ## AArch64 accesses to the own cells -/

theorem a64OwnCell_other {s : State} {nm : Name} {c : A32Cell}
    (h : sysMapExtTarget s (a32SysNamed nm) = some (.own c)) : a64OwnCell s (.other nm) = some c := by
  simp only [a64OwnCell, h]

/-- The names of R44 and the names with an entry for an own cell are those by which AArch64 code reaches a cell. -/
theorem a64OwnCell_of_reached {s : State} {r : A64Sys} {c : A32Cell}
    (h : (r, c) ∈ [(A64Sys.spsrAbt, A32Cell.spsrAbt), (.spsrUnd, .spsrUnd), (.spsrIrq, .spsrIrq), (.spsrFiq, .spsrFiq)] ∨
      ∃ nm, r = .other nm ∧ sysMapExtTarget s (a32SysNamed nm) = some (.own c)) : a64OwnCell s r = some c := by
  obtain h | ⟨nm, rfl, h⟩ := h
  · simp only [List.mem_cons, Prod.mk.injEq, List.not_mem_nil, or_false] at h
    obtain ⟨rfl, rfl⟩ | ⟨rfl, rfl⟩ | ⟨rfl, rfl⟩ | ⟨rfl, rfl⟩ := h <;> rfl
  · exact a64OwnCell_other h

/-- The name of a well-formed AArch32 register spells it. -/
theorem a32SysNamed_a32SysToken {a : A32Sys} (h : a.wellFormed = true) : a32SysNamed (a32SysToken a) = a := by
  cases a with
  | other nm =>
    obtain ⟨_, hno⟩ : isName nm = true ∧ (a32SysNames.map Prod.fst).contains nm = false := by
      simpa only [A32Sys.wellFormed, Bool.and_eq_true, Bool.not_eq_true'] using h
    have hnone : lookupName a32SysNames nm = none := lookupName_none _ _ hno
    exact congrArg (Option.getD · (A32Sys.other nm)) hnone
  | _ => decide

/-- An own cell that the user's part of `SysMap` gives is reached by the AArch32 name (R129). -/
theorem exists_a64OwnCell_of_ext {s : State} {a : A32Sys} {c : A32Cell} (hwf : a.wellFormed = true)
    (h : sysMapExtTarget s a = some (.own c)) : ∃ r, a64OwnCell s r = some c := by
  refine ⟨.other (a32SysToken a), a64OwnCell_other ?_⟩
  rw [a32SysNamed_a32SysToken hwf, h]

/-- Every own cell that an AArch32 name reaches, AArch64 code reaches too: by the names of R44, or by the AArch32 name. -/
theorem exists_a64OwnCell {s : State} {a : A32Sys} {c : A32Cell} (hwf : a.wellFormed = true)
    (h : a32SysTarget s a = some (.own c)) : ∃ r, a64OwnCell s r = some c := by
  cases a with
  | spsrAbt =>
    cases h
    exact ⟨.spsrAbt, rfl⟩
  | spsrUnd =>
    cases h
    exact ⟨.spsrUnd, rfl⟩
  | spsrIrq =>
    cases h
    exact ⟨.spsrIrq, rfl⟩
  | spsrFiq =>
    cases h
    exact ⟨.spsrFiq, rfl⟩
  | spsrSvc | spsrHyp | elrHyp => cases h
  | _ => exact exists_a64OwnCell_of_ext hwf h

/-- Settles O54: the access is of the own cell, past one test of the level. -/
theorem bankedSpsrsFromAbove : Obligations.BankedSpsrsFromAbove := by
  refine ⟨fun s r c v hcur hreached => ?access, ⟨rfl, rfl, rfl, rfl⟩, fun s a c hwf h => exists_a64OwnCell hwf h⟩
  case access =>
    have hown := a64OwnCell_of_reached hreached
    rw [exec_a64Sysrd_of_own hcur hown, exec_a64Syswr_of_own hcur hown]
    refine ⟨fun habove hstored => ?_, fun hbelow => ?_⟩
    · rw [if_pos habove, if_pos habove]
      exact ⟨readOwn_of_stored (isRes0_eq_false hstored),
        writes_own_cell_of_next (writeOwn_of_stored (isRes0_eq_false hstored) _)⟩
    · rw [if_neg (Nat.not_lt.mpr hbelow), if_neg (Nat.not_lt.mpr hbelow)]
      exact ⟨rfl, rfl⟩

/-- The cell of each of the four registers of R44, by its AArch64 and its AArch32 name. -/
theorem exists_banked_cell {s : State} {r : A64Sys} {a : A32Sys}
    (h : (r, a) ∈ [(A64Sys.spsrAbt, A32Sys.spsrAbt), (.spsrUnd, .spsrUnd), (.spsrIrq, .spsrIrq), (.spsrFiq, .spsrFiq)]) :
    ∃ c ∈ [A32Cell.spsrAbt, .spsrUnd, .spsrIrq, .spsrFiq], a64OwnCell s r = some c ∧ cellLevel c = .el1 ∧
      a32SysTarget s a = some (.own c) := by
  simp only [List.mem_cons, Prod.mk.injEq, List.not_mem_nil, or_false] at h
  obtain ⟨rfl, rfl⟩ | ⟨rfl, rfl⟩ | ⟨rfl, rfl⟩ | ⟨rfl, rfl⟩ := h
  · exact ⟨.spsrAbt, by decide, rfl, rfl, rfl⟩
  · exact ⟨.spsrUnd, by decide, rfl, rfl, rfl⟩
  · exact ⟨.spsrIrq, by decide, rfl, rfl, rfl⟩
  · exact ⟨.spsrFiq, by decide, rfl, rfl, rfl⟩

/-- Settles O55: from either state the access comes to a read or a write of the own cell, which is RES0. -/
theorem bankedSpsrsRes0 : Obligations.BankedSpsrsRes0 := by
  intro s r a v v' hpair ha32
  obtain ⟨c, hc, hown, hlevel, hg⟩ := exists_banked_cell (s := s) hpair
  have hres0 : isRes0 s.cfg c = true := (isRes0_iff s.cfg c).mpr ⟨hc, ha32⟩
  refine ⟨fun hcur hel => ?_, fun hcur => ?_⟩
  · have habove : (cellLevel c).num < s.el.num := by
      obtain hel | hel := hel
      · rw [hlevel, hel]
        decide
      · rw [hlevel, hel]
        decide
    rw [exec_a64Sysrd_of_own hcur hown, exec_a64Syswr_of_own hcur hown, if_pos habove, if_pos habove]
    exact ⟨readOwn_of_res0 hres0, writeOwn_of_res0 hres0 _⟩
  · rw [exec_a32Sysrd_of_target hcur hg, exec_a32Syswr_of_target hcur hg]
    exact ⟨readOwn_of_res0 hres0, writeOwn_of_res0 hres0 _⟩

/-! ## What is stored nowhere -/

theorem sysMapExtTarget_of_nil {s : State} (h : s.cfg.sysMapExt = []) (a : A32Sys) : sysMapExtTarget s a = none := by
  simp only [sysMapExtTarget, h, List.find?_nil, Option.map_none]

/-- Beyond the seven registers of the spec's own `SysMap`, the user's part decides where a register is stored (R52). -/
theorem a32SysTarget_of_not_mem (s : State) {a : A32Sys}
    (h : a ∉ [A32Sys.spsrSvc, .spsrHyp, .elrHyp, .spsrAbt, .spsrUnd, .spsrIrq, .spsrFiq]) :
    a32SysTarget s a = sysMapExtTarget s a := by
  cases a with
  | spsrSvc | spsrHyp | elrHyp | spsrAbt | spsrUnd | spsrIrq | spsrFiq => exact absurd (by decide) h
  | _ => rfl

/-- Settles O58: without an entry and without a cell every access is refused. -/
theorem unmappedSysregsRefused : Obligations.UnmappedSysregsRefused := by
  refine ⟨fun s a v hmap hcur ha => ?a32, fun s nm v hmap hext hcur => ?other, fun s r v hcur h => ?control⟩
  case a32 =>
    have hg : a32SysTarget s a = none := (a32SysTarget_of_not_mem s ha).trans (sysMapExtTarget_of_nil hmap a)
    exact ⟨exec_a32Sysrd_of_no_target hcur hg, exec_a32Syswr_of_no_target hcur hg v⟩
  case other =>
    refine exec_a64Sys_of_no_cell hcur ?_ ?_ v
    · simp only [a64OwnCell, sysMapExtTarget_of_nil hmap]
    · simp only [readCell64, hext, extRead]
  case control =>
    obtain ⟨rfl, habsent⟩ | ⟨rfl, habsent⟩ := h
    · exact exec_a64Sys_of_no_cell hcur rfl (by simp [readCell64, habsent]) v
    · exact exec_a64Sys_of_no_cell hcur rfl (by simp [readCell64, habsent]) v

/-! ## A write of a control -/

/-- Settles O59: `state_of` reads the bit in the cell that the write has just filled. -/
theorem controlWriteTakesEffectAtOnce : Obligations.ControlWriteTakesEffectAtOnce := by
  intro s v hcur hEL3 htop
  refine ⟨?scr, fun hEL2 hstate => ?hcr⟩
  case scr =>
    have hr : readCell64 s .scrEl3 = some s.sys.scrEl3 := if_pos hEL3
    refine ⟨_, exec_a64Syswr_of_cell hcur rfl hr v, ?_⟩
    rw [stateOf_el2_under_a64 (s := s.withSys (writeWhole s.cfg .scrEl3 v s.sys)) hEL3 htop]
    simp [scrRW, writeWhole, writeTop, writeCell64, BitVec.getLsbD_ofNat, and_comm]
  case hcr =>
    have hr : readCell64 s .hcrEl2 = some s.sys.hcrEl2 := if_pos hEL2
    refine ⟨_, exec_a64Syswr_of_cell hcur rfl hr v, fun hrule => el2Enabled_of_rule hrule rfl rfl, fun henabled => ?_⟩
    have hstate' : stateOf (s.withSys (writeWhole s.cfg .hcrEl2 v s.sys)) .el2 = .aarch64 :=
      (stateOf2_congr (s := s) rfl rfl).trans hstate
    rw [stateOf_el1_of_enabled henabled, hstate']
    simp [hcrRW, writeWhole, writeTop, writeCell64, BitVec.getLsbD_ofNat, and_comm]

/-! ## Banking by Security state -/

theorem resolveBank_of_el3_a64 {s : State} (h : el3UsesA32 s = false) (a : A32Sys) : resolveBank s a = (a, none) := by
  simp [resolveBank, h]

/-- Where EL3 uses AArch32 a register other than HIFAR and HDFAR is that of the current Security state (R125). -/
theorem resolveBank_of_el3_a32 {s : State} (h : el3UsesA32 s = true) {a : A32Sys} (ha : a ≠ .hifar ∧ a ≠ .hdfar) :
    resolveBank s a = (a, some (if s.secure then .secure else .nonSecure)) := by
  obtain ⟨hifar, hdfar⟩ := ha
  unfold resolveBank
  rw [if_pos h]
  split
  · contradiction
  · contradiction
  · rfl

/-- `SysMap` reads of the state where the user's part has an entry for what `resolveBank` gives, and nothing else. -/
theorem sysMapExtTarget_congr {s t : State} {a b : A32Sys} (hmap : t.cfg.sysMapExt = s.cfg.sysMapExt)
    (hbank : resolveBank t b = resolveBank s a) : sysMapExtTarget t b = sysMapExtTarget s a := by
  simp only [sysMapExtTarget, hmap, hbank]

/-- Settles O60: with EL3 not using AArch32 no name is banked (R127); with EL3 using AArch32 HIFAR and HDFAR are
the Secure registers (R128), and of two entries the one of the current Security state is found (R125). -/
theorem bankingBySecurityState : Obligations.BankingBySecurityState := by
  refine ⟨fun s a b l h => ?oneRegister, fun s h => ?el2Names, fun s a gS gN h ha hmap => ?banked⟩
  case oneRegister =>
    have hext : sysMapExtTarget { s with secure := b, cfg := { s.cfg with bankSecure := l } } a = sysMapExtTarget s a :=
      sysMapExtTarget_congr rfl ((resolveBank_of_el3_a64 (s := { s with secure := b }) h a).trans
        (resolveBank_of_el3_a64 h a).symm)
    cases a with
    | spsrSvc | spsrHyp | elrHyp | spsrAbt | spsrUnd | spsrIrq | spsrFiq => rfl
    | _ => exact hext
  case el2Names =>
    have hifar := resolveBank_of_el3_a32 (s := { s with secure := true }) h (a := .ifar) (by decide)
    have hdfar := resolveBank_of_el3_a32 (s := { s with secure := true }) h (a := .dfar) (by decide)
    refine ⟨sysMapExtTarget_congr rfl ?_, sysMapExtTarget_congr rfl ?_⟩
    · rw [hifar, resolveBank, if_pos h]
      rfl
    · rw [hdfar, resolveBank, if_pos h]
      rfl
  case banked =>
    have hother : a ∉ [A32Sys.spsrSvc, .spsrHyp, .elrHyp, .spsrAbt, .spsrUnd, .spsrIrq, .spsrFiq] := by
      intro hmem
      exact ha (List.mem_append_left [A32Sys.hifar, .hdfar] hmem)
    have hbank := resolveBank_of_el3_a32 h (a := a) ⟨by rintro rfl; simp at ha, by rintro rfl; simp at ha⟩
    rw [a32SysTarget_of_not_mem s hother]
    simp only [sysMapExtTarget, hbank, hmap]
    cases s.secure <;> simp [entryIsFor]

end Sys2Proof.Machine
end
